-- ==== Sys2Proof/Word.lean ====
section
/-! DEFINITION. The word types of the core and the conversions of spec rule R12. -/

namespace Sys2Proof

/-- One byte of memory (R31). -/
abbrev Byte := BitVec 8

/-- A word: 32 bits (R8, R11). -/
abbrev Word := BitVec 32

/-- `u32(w)`, the unsigned integer of a word (R12). -/
abbrev u32 (w : Word) : Nat := w.toNat

/-- `s32(w)`, the two's-complement signed integer of a word (R12). -/
abbrev s32 (w : Word) : Int := w.toInt

/-- `w32(n)`, the word whose unsigned value is `n mod 2^32` (R12). -/
abbrev w32 (n : Int) : Word := BitVec.ofInt 32 n

end Sys2Proof
end

