-- ==== Sys2Proof/Config.lean ====
section
/-! DEFINITION. The fixed parameters of the hardware, spec rule R8. No free value is declared: the rules fix every value
that an instruction computes. The parameters the spec decides itself (R9) stand in Machine/Params.lean and Decode.lean. -/

namespace Sys2Proof.Config

/-- MEM_SIZE: the memory has 4096 bytes, addresses 0..4095 (R8, R31). -/
abbrev memSize : Nat := 4096

/-- WORD_BYTES and INSTR_BYTES: a word, and so an instruction, is four bytes (R8, R90). -/
abbrev wordBytes : Nat := 4

/-- SP_EMPTY: the stack pointer of an empty stack, and its upper clamp (R8, R32, R36). -/
abbrev spEmpty : Int := 4096

/-- The upper clamp of the plain PC increment (R37). -/
abbrev pcClamp : Int := 4096

/-- WORD_READ_LIMIT: a word read above it returns 0 (R8, R63). -/
abbrev wordReadLimit : Int := 4092

/-- The address of the last byte (R31). -/
abbrev lastByte : Int := 4095

end Sys2Proof.Config
end

