-- ==== Sys2Proof/Syntax.lean ====
section
/-! DEFINITION. The instructions, one constructor per row of spec/opcode_table.json (39 rows), with the operands that
decoding yields (R93 to R100). -/

namespace Sys2Proof

/-- Print's format field `fmt = w[1:0]` (R100). -/
inductive PrintFormat where
  | decimal
  | hex
  | binary
  | octal
deriving DecidableEq, Repr

/-- The two BinaryIf conditions outside the named set: 6 and 7 (R139, R270). -/
inductive ReservedCond where
  | rsv6
  | rsv7
deriving DecidableEq, Repr

/-- A decoded instruction. Offsets are signed byte offsets, as `rel28`, `rel24` (R94) and Swap's fields (R97) give them. -/
inductive Instr where
  /-- R160: opcode 0x0, sub 0x0. -/
  | exit (code : Byte)
  /-- R161: opcode 0x0, sub 0x1. -/
  | swap (offA offB : Int)
  /-- R162: opcode 0x0, sub 0x2. -/
  | nop
  /-- R163: opcode 0x0, sub 0x4. -/
  | input
  /-- R165: opcode 0x0, sub 0x5. -/
  | stinput (maxLen : Nat)
  /-- R167: opcode 0x0, sub 0xF. -/
  | debug
  /-- R190: opcode 0x1, an unsigned byte offset. -/
  | pop (offset : Nat)
  /-- R211: opcode 0x2, sub 0x0. -/
  | add
  /-- R212: opcode 0x2, sub 0x1. -/
  | sub
  /-- R213: opcode 0x2, sub 0x2. -/
  | mul
  /-- R214: opcode 0x2, sub 0x3. -/
  | div
  /-- R215: opcode 0x2, sub 0x4. -/
  | rem
  /-- R216: opcode 0x2, sub 0x5. -/
  | and
  /-- R217: opcode 0x2, sub 0x6. -/
  | or
  /-- R218: opcode 0x2, sub 0x7. -/
  | xor
  /-- R219: opcode 0x2, sub 0x8. -/
  | lsl
  /-- R220: opcode 0x2, sub 0x9. -/
  | lsr
  /-- R221: opcode 0x2, sub 0xB. -/
  | asr
  /-- R222: opcode 0x3, sub 0x0. -/
  | neg
  /-- R223: opcode 0x3, sub 0x1. -/
  | not
  /-- R240: opcode 0x4. -/
  | stprint (offset : Int)
  /-- R260: opcode 0x5. -/
  | call (offset : Int)
  /-- R261: opcode 0x6, the row "return". -/
  | ret (offset : Int)
  /-- R262: opcode 0x7. -/
  | goto (offset : Int)
  /-- R264: opcode 0x8, condition 0. -/
  | ifeq (offset : Int)
  /-- R265: opcode 0x8, condition 1. -/
  | ifne (offset : Int)
  /-- R266: opcode 0x8, condition 2. -/
  | iflt (offset : Int)
  /-- R267: opcode 0x8, condition 3. -/
  | ifgt (offset : Int)
  /-- R268: opcode 0x8, condition 4. -/
  | ifle (offset : Int)
  /-- R269: opcode 0x8, condition 5. -/
  | ifge (offset : Int)
  /-- R270: opcode 0x8, condition 6 or 7, the row "ifrsv6_ifrsv7". -/
  | ifrsv (cond : ReservedCond) (offset : Int)
  /-- R272: opcode 0x9, condition 0. -/
  | ifez (offset : Int)
  /-- R273: opcode 0x9, condition 1. -/
  | ifnz (offset : Int)
  /-- R274: opcode 0x9, condition 2. -/
  | ifmi (offset : Int)
  /-- R275: opcode 0x9, condition 3. -/
  | ifpl (offset : Int)
  /-- R191: opcode 0xC. -/
  | dup (offset : Int)
  /-- R241: opcode 0xD. -/
  | print (offset : Int) (fmt : PrintFormat)
  /-- R242: opcode 0xE. -/
  | dump
  /-- R192: opcode 0xF; the immediate `imm28(w)` (R95). -/
  | push (value : Word)
deriving DecidableEq, Repr

end Sys2Proof
end

