-- ==== Sys2Proof/WellFormed.lean ====
section
/-! DEFINITION. Which operands an encoding admits: the ranges of rules R94 to R98 and the constraints of R105. -/

namespace Sys2Proof

/-- A value of `rel28`: a multiple of 4 in -134217728..134217724 (R94). -/
def rel28Ok (o : Int) : Bool := o % 4 == 0 && decide (-134217728 ≤ o) && decide (o ≤ 134217724)

/-- A value of `rel24`: a multiple of 4 in -8388608..8388604 (R94). -/
def rel24Ok (o : Int) : Bool := o % 4 == 0 && decide (-8388608 ≤ o) && decide (o ≤ 8388604)

/-- An offset of Swap: a multiple of 4 in -8192..8188 (R97). -/
def swapOffsetOk (o : Int) : Bool := o % 4 == 0 && decide (-8192 ≤ o) && decide (o ≤ 8188)

/-- A value of `imm28`: a word whose signed value lies in -134217728..134217727 (R95). -/
def imm28Ok (v : Word) : Bool := decide (-134217728 ≤ s32 v) && decide (s32 v ≤ 134217727)

/-- The instruction is one that an encoding of R93 can hold. -/
def Instr.wellFormed : Instr → Bool
  | .exit _ => true
  | .swap a b => swapOffsetOk a && swapOffsetOk b
  | .nop => true
  | .input => true
  | .stinput n => decide (n ≤ 16777215)
  | .debug => true
  | .pop n => decide (n ≤ 268435455)
  | .add => true
  | .sub => true
  | .mul => true
  | .div => true
  | .rem => true
  | .and => true
  | .or => true
  | .xor => true
  | .lsl => true
  | .lsr => true
  | .asr => true
  | .neg => true
  | .not => true
  | .stprint o => rel28Ok o
  | .call o => rel28Ok o
  | .ret o => rel28Ok o
  | .goto o => rel28Ok o
  | .ifeq o => rel24Ok o
  | .ifne o => rel24Ok o
  | .iflt o => rel24Ok o
  | .ifgt o => rel24Ok o
  | .ifle o => rel24Ok o
  | .ifge o => rel24Ok o
  | .ifrsv _ o => rel24Ok o
  | .ifez o => rel24Ok o
  | .ifnz o => rel24Ok o
  | .ifmi o => rel24Ok o
  | .ifpl o => rel24Ok o
  | .dup o => rel28Ok o
  | .print o _ => rel28Ok o
  | .dump => true
  | .push v => imm28Ok v

end Sys2Proof
end

