-- ==== Sys2Proof/Decode.lean ====
section
/-! DEFINITION. The decoder of spec rules R90 to R103, total on every word and every list of bytes, rejecting by name; then
the encoder of R105 and the opcode table of R106, written from the same tables. -/

namespace Sys2Proof

/-! ## Bit fields and byte order -/

/-- `w[hi:lo]` as an unsigned number (R11). -/
def field (hi lo w : Nat) : Nat := w / 2 ^ lo % 2 ^ (hi - lo + 1)

/-- The signed value of an `n`-bit field: bit `n-1` is its sign (`sext_n` of R12, read as an integer). -/
def sext (n v : Nat) : Int := if v < 2 ^ (n - 1) then (v : Int) else (v : Int) - 2 ^ n

/-- The word of four bytes, the first at the lowest address and so bits 7:0 (R61, R62). -/
def wordOfBytes (b0 b1 b2 b3 : Byte) : Word :=
  BitVec.ofNat 32 (b0.toNat + 2 ^ 8 * b1.toNat + 2 ^ 16 * b2.toNat + 2 ^ 24 * b3.toNat)

/-- Byte `k` of a word, byte 0 being bits 7:0 (R11). -/
def byteOf (v : Word) (k : Nat) : Byte := BitVec.ofNat 8 (v.toNat / 2 ^ (8 * k))

/-- The bytes of a word in memory order (R61). -/
def bytesOf (v : Word) : List Byte := [byteOf v 0, byteOf v 1, byteOf v 2, byteOf v 3]

/-! ## Operand fields (R94 to R100) -/

/-- `rel28(w)`: bits 27:2 with the low two bits cleared, signed by bit 27 (R94; STACK_OFFSET_MASK of R9). -/
def rel28 (w : Nat) : Int := sext 28 (field 27 2 w * 4)

/-- `rel24(w)`: bits 23:2 with the low two bits cleared, signed by bit 23 (R94). -/
def rel24 (w : Nat) : Int := sext 24 (field 23 2 w * 4)

/-- `imm28(w)`: bits 27:0 unmasked, signed by bit 27, as a word (R95). -/
def imm28 (w : Nat) : Word := w32 (sext 28 (field 27 0 w))

/-- `uoff28(w)`: bits 27:0, unsigned and unmasked (R96; POP_OFFSET_MASK of R9). -/
def uoff28 (w : Nat) : Nat := field 27 0 w

/-- Swap's first offset, bits 23:12 signed, times 4 (R97). -/
def swapA (w : Nat) : Int := sext 12 (field 23 12 w) * 4

/-- Swap's second offset, bits 11:0 signed, times 4 (R97). -/
def swapB (w : Nat) : Int := sext 12 (field 11 0 w) * 4

/-- Exit's code, bits 7:0 (R98). -/
def exitCode (w : Nat) : Byte := BitVec.ofNat 8 (field 7 0 w)

/-- StInput's maximum length, bits 23:0, unsigned (R98). -/
def maxLen (w : Nat) : Nat := field 23 0 w

/-- Print's format, bits 1:0 (R100). -/
def printFormat (w : Nat) : PrintFormat :=
  match field 1 0 w with
  | 0 => .decimal
  | 1 => .hex
  | 2 => .binary
  | _ => .octal

/-! ## The decoder (R102) -/

/-- Why a word, or a list of bytes, is no instruction (R103). The engine skips such a word; it is no fault (R306). -/
inductive DecodeReject where
  /-- Opcode 0xA or 0xB. -/
  | unmappedOpcode (op : Nat)
  /-- Opcode 0x0 with a sub-opcode outside MISC_SUBOP. -/
  | unmappedMisc (sub : Nat)
  /-- Opcode 0x2 with a sub-opcode outside BIN_SUBOP. -/
  | unmappedBinary (sub : Nat)
  /-- Opcode 0x3 with a sub-opcode outside UN_SUBOP. -/
  | unmappedUnary (sub : Nat)
  /-- Fewer than the four bytes of an instruction (R90). -/
  | truncated (len : Nat)
deriving DecidableEq, Repr

/-- Opcode 0x0: MISC_SUBOP (R9, R102). -/
def decodeMisc (w : Nat) : Except DecodeReject Instr :=
  match field 27 24 w with
  | 0x0 => .ok (.exit (exitCode w))
  | 0x1 => .ok (.swap (swapA w) (swapB w))
  | 0x2 => .ok .nop
  | 0x4 => .ok .input
  | 0x5 => .ok (.stinput (maxLen w))
  | 0xF => .ok .debug
  | sub => .error (.unmappedMisc sub)

/-- Opcode 0x2: BIN_SUBOP (R9, R102). -/
def decodeBinary (w : Nat) : Except DecodeReject Instr :=
  match field 27 24 w with
  | 0x0 => .ok .add
  | 0x1 => .ok .sub
  | 0x2 => .ok .mul
  | 0x3 => .ok .div
  | 0x4 => .ok .rem
  | 0x5 => .ok .and
  | 0x6 => .ok .or
  | 0x7 => .ok .xor
  | 0x8 => .ok .lsl
  | 0x9 => .ok .lsr
  | 0xB => .ok .asr
  | sub => .error (.unmappedBinary sub)

/-- Opcode 0x3: UN_SUBOP (R9, R102). -/
def decodeUnary (w : Nat) : Except DecodeReject Instr :=
  match field 27 24 w with
  | 0x0 => .ok .neg
  | 0x1 => .ok .not
  | sub => .error (.unmappedUnary sub)

/-- Opcode 0x8: the condition `w[27:25]`, every value an instruction (BIF_COND of R9; R99, R102). -/
def decodeBinaryIf (w : Nat) : Instr :=
  match field 27 25 w with
  | 0 => .ifeq (rel24 w)
  | 1 => .ifne (rel24 w)
  | 2 => .iflt (rel24 w)
  | 3 => .ifgt (rel24 w)
  | 4 => .ifle (rel24 w)
  | 5 => .ifge (rel24 w)
  | 6 => .ifrsv .rsv6 (rel24 w)
  | _ => .ifrsv .rsv7 (rel24 w)

/-- Opcode 0x9: the condition `w[26:25]`, every value an instruction (UIF_COND of R9; R99, R102). -/
def decodeUnaryIf (w : Nat) : Instr :=
  match field 26 25 w with
  | 0 => .ifez (rel24 w)
  | 1 => .ifnz (rel24 w)
  | 2 => .ifmi (rel24 w)
  | _ => .ifpl (rel24 w)

/-- `decode(w)` on the unsigned value of a word (R102). -/
def decodeNat (w : Nat) : Except DecodeReject Instr :=
  match field 31 28 w with
  | 0x0 => decodeMisc w
  | 0x1 => .ok (.pop (uoff28 w))
  | 0x2 => decodeBinary w
  | 0x3 => decodeUnary w
  | 0x4 => .ok (.stprint (rel28 w))
  | 0x5 => .ok (.call (rel28 w))
  | 0x6 => .ok (.ret (rel28 w))
  | 0x7 => .ok (.goto (rel28 w))
  | 0x8 => .ok (decodeBinaryIf w)
  | 0x9 => .ok (decodeUnaryIf w)
  | 0xC => .ok (.dup (rel28 w))
  | 0xD => .ok (.print (rel28 w) (printFormat w))
  | 0xE => .ok .dump
  | 0xF => .ok (.push (imm28 w))
  | op => .error (.unmappedOpcode op)

/-- `decode(w)` (R102): the instruction of a word, or why it is Unrecognized (R103). -/
def decode (w : Word) : Except DecodeReject Instr := decodeNat w.toNat

/-- The instruction at the head of a list of bytes in memory order, with the bytes after it (R90). -/
def decodeBytes : List Byte → Except DecodeReject (Instr × List Byte)
  | b0 :: b1 :: b2 :: b3 :: rest =>
    match decode (wordOfBytes b0 b1 b2 b3) with
    | .ok i => .ok (i, rest)
    | .error r => .error r
  | bs => .error (.truncated bs.length)

/-- The instruction the decoder reads from the opcode-table bits `w` (`nbits` of them), laid out as the hardware stores them. -/
def decodeTableWord (nbits w : Nat) : Option Instr :=
  match decodeBytes (bytesOf (BitVec.ofNat 32 (w % 2 ^ nbits))) with
  | .ok (i, _) => some i
  | .error _ => none

/-! ## The encoder (R105) -/

/-- A word from its opcode and its bits 27:0. -/
def instrWord (op rest : Nat) : Word := BitVec.ofNat 32 (op * 2 ^ 28 + rest % 2 ^ 28)

/-- The low `n` bits of an integer in two's complement, as a number. -/
def lowBits (n : Nat) (v : Int) : Nat := (v % 2 ^ n).toNat

/-- `o & 0x0FFFFFFC` of R105. -/
def encRel28 (o : Int) : Nat := lowBits 26 (o / 4) * 4

/-- `o & 0x00FFFFFC` of R105. -/
def encRel24 (o : Int) : Nat := lowBits 22 (o / 4) * 4

/-- The format's two bits (R100). -/
def PrintFormat.bits : PrintFormat → Nat
  | .decimal => 0
  | .hex => 1
  | .binary => 2
  | .octal => 3

/-- The condition's three bits (R270). -/
def ReservedCond.bits : ReservedCond → Nat
  | .rsv6 => 6
  | .rsv7 => 7

/-- A word of opcode 0x0, 0x2 or 0x3: the sub-opcode in bits 27:24 (R92). -/
def subWord (op sub rest : Nat) : Word := instrWord op (sub * 2 ^ 24 + rest % 2 ^ 24)

/-- A BinaryIf word: `0x80000000 | cond3 << 25 | offset` (R263). -/
def binaryIfWord (cond : Nat) (o : Int) : Word := instrWord 0x8 (cond * 2 ^ 25 + encRel24 o)

/-- A UnaryIf word: `0x90000000 | cond2 << 25 | offset` (R271). -/
def unaryIfWord (cond : Nat) (o : Int) : Word := instrWord 0x9 (cond * 2 ^ 25 + encRel24 o)

/-- The word of an instruction, every ignored bit 0 (R105). -/
def encode : Instr → Word
  | .exit c => subWord 0x0 0x0 c.toNat
  | .swap a b => subWord 0x0 0x1 (lowBits 12 (a / 4) * 2 ^ 12 + lowBits 12 (b / 4))
  | .nop => subWord 0x0 0x2 0
  | .input => subWord 0x0 0x4 0
  | .stinput n => subWord 0x0 0x5 n
  | .debug => subWord 0x0 0xF 0
  | .pop n => instrWord 0x1 n
  | .add => subWord 0x2 0x0 0
  | .sub => subWord 0x2 0x1 0
  | .mul => subWord 0x2 0x2 0
  | .div => subWord 0x2 0x3 0
  | .rem => subWord 0x2 0x4 0
  | .and => subWord 0x2 0x5 0
  | .or => subWord 0x2 0x6 0
  | .xor => subWord 0x2 0x7 0
  | .lsl => subWord 0x2 0x8 0
  | .lsr => subWord 0x2 0x9 0
  | .asr => subWord 0x2 0xB 0
  | .neg => subWord 0x3 0x0 0
  | .not => subWord 0x3 0x1 0
  | .stprint o => instrWord 0x4 (encRel28 o)
  | .call o => instrWord 0x5 (encRel28 o)
  | .ret o => instrWord 0x6 (encRel28 o)
  | .goto o => instrWord 0x7 (encRel28 o)
  | .ifeq o => binaryIfWord 0 o
  | .ifne o => binaryIfWord 1 o
  | .iflt o => binaryIfWord 2 o
  | .ifgt o => binaryIfWord 3 o
  | .ifle o => binaryIfWord 4 o
  | .ifge o => binaryIfWord 5 o
  | .ifrsv c o => binaryIfWord c.bits o
  | .ifez o => unaryIfWord 0 o
  | .ifnz o => unaryIfWord 1 o
  | .ifmi o => unaryIfWord 2 o
  | .ifpl o => unaryIfWord 3 o
  | .dup o => instrWord 0xC (encRel28 o)
  | .print o f => instrWord 0xD (encRel28 o + f.bits)
  | .dump => instrWord 0xE 0
  | .push v => instrWord 0xF (v.toNat % 2 ^ 28)

/-! ## The opcode table (R106) -/

/-- One row of spec/opcode_table.json: the words `w` with `w & mask = pattern` are this row's. -/
structure OpcodeRow where
  mnemonic : String
  pattern : Nat
  mask : Nat
deriving DecidableEq, Repr

/-- The row selects the word (R106). -/
def OpcodeRow.selects (r : OpcodeRow) (w : Word) : Bool := w.toNat &&& r.mask == r.pattern

/-- The row of an instruction. -/
def Instr.row : Instr → OpcodeRow
  | .exit _ => ⟨"exit", 0x00000000, 0xFF000000⟩
  | .swap _ _ => ⟨"swap", 0x01000000, 0xFF000000⟩
  | .nop => ⟨"nop", 0x02000000, 0xFF000000⟩
  | .input => ⟨"input", 0x04000000, 0xFF000000⟩
  | .stinput _ => ⟨"stinput", 0x05000000, 0xFF000000⟩
  | .debug => ⟨"debug", 0x0F000000, 0xFF000000⟩
  | .pop _ => ⟨"pop", 0x10000000, 0xF0000000⟩
  | .add => ⟨"add", 0x20000000, 0xFF000000⟩
  | .sub => ⟨"sub", 0x21000000, 0xFF000000⟩
  | .mul => ⟨"mul", 0x22000000, 0xFF000000⟩
  | .div => ⟨"div", 0x23000000, 0xFF000000⟩
  | .rem => ⟨"rem", 0x24000000, 0xFF000000⟩
  | .and => ⟨"and", 0x25000000, 0xFF000000⟩
  | .or => ⟨"or", 0x26000000, 0xFF000000⟩
  | .xor => ⟨"xor", 0x27000000, 0xFF000000⟩
  | .lsl => ⟨"lsl", 0x28000000, 0xFF000000⟩
  | .lsr => ⟨"lsr", 0x29000000, 0xFF000000⟩
  | .asr => ⟨"asr", 0x2B000000, 0xFF000000⟩
  | .neg => ⟨"neg", 0x30000000, 0xFF000000⟩
  | .not => ⟨"not", 0x31000000, 0xFF000000⟩
  | .stprint _ => ⟨"stprint", 0x40000000, 0xF0000000⟩
  | .call _ => ⟨"call", 0x50000000, 0xF0000000⟩
  | .ret _ => ⟨"return", 0x60000000, 0xF0000000⟩
  | .goto _ => ⟨"goto", 0x70000000, 0xF0000000⟩
  | .ifeq _ => ⟨"ifeq", 0x80000000, 0xFE000000⟩
  | .ifne _ => ⟨"ifne", 0x82000000, 0xFE000000⟩
  | .iflt _ => ⟨"iflt", 0x84000000, 0xFE000000⟩
  | .ifgt _ => ⟨"ifgt", 0x86000000, 0xFE000000⟩
  | .ifle _ => ⟨"ifle", 0x88000000, 0xFE000000⟩
  | .ifge _ => ⟨"ifge", 0x8A000000, 0xFE000000⟩
  | .ifrsv _ _ => ⟨"ifrsv6_ifrsv7", 0x8C000000, 0xFC000000⟩
  | .ifez _ => ⟨"ifez", 0x90000000, 0xF6000000⟩
  | .ifnz _ => ⟨"ifnz", 0x92000000, 0xF6000000⟩
  | .ifmi _ => ⟨"ifmi", 0x94000000, 0xF6000000⟩
  | .ifpl _ => ⟨"ifpl", 0x96000000, 0xF6000000⟩
  | .dup _ => ⟨"dup", 0xC0000000, 0xF0000000⟩
  | .print _ _ => ⟨"print", 0xD0000000, 0xF0000000⟩
  | .dump => ⟨"dump", 0xE0000000, 0xF0000000⟩
  | .push _ => ⟨"push", 0xF0000000, 0xF0000000⟩

end Sys2Proof
end

