-- ==== Sys2Proof/Machine/State.lean ====
section
/-! DEFINITION. The architectural state of the core (spec rule R30), its reset value (R48), and the reasons a step gives no
next state. -/

namespace Sys2Proof.Machine

/-- The fault kinds of R303. A fault of the core is part of its STATE (`Status.faulted`): the run ends in it. -/
inductive FaultKind where
  /-- Code 1: Div or Rem with a zero divisor (R214, R215). -/
  | divideByZero
  /-- Code 2: Div or Rem of -2^31 by -1 (R214, R215). -/
  | divideOverflow
  /-- Code 3: Lsl, Lsr or Asr by an amount outside 0..31 (R219 to R221). -/
  | shiftOutOfRange
  /-- Code 4: an access below 0, a word write above 4092, a byte access above 4095 (R63 to R66). -/
  | addressFault (addr : Int)
  /-- Code 5: a jump to a negative target (R35). -/
  | pcOutOfRange (target : Int)
  /-- Code 6: only when OVERFLOW_TRAPS holds (R211 to R213, R222). -/
  | arithmeticOverflow
deriving DecidableEq, Repr

/-- The termination status (R39). Every value but `running` is final. -/
inductive Status where
  | running
  /-- Set by Exit (R137, R160). -/
  | exited (code : Byte)
  /-- Set by the halt check when SP <= boundary (R132). -/
  | stackOverrun
  /-- Set by the halt check when PC >= boundary (R132). -/
  | codeOverrun
  /-- Set by `raise Fault(kind)`, with the faulting instruction's address (R141, R302, R305). -/
  | faulted (kind : FaultKind) (pc : Word)
deriving DecidableEq, Repr

/-- An event of the output port (R41). -/
inductive Event where
  /-- One line, from Print (R241). -/
  | printValue (fmt : PrintFormat) (value : Word)
  /-- One line, from Dump (R242). -/
  | dumpLine (addr : Int) (value : Word)
  /-- One character, from StPrint (R240). -/
  | char (b : Byte)
deriving DecidableEq, Repr

/-- Memory as the list of its nonzero bytes; an address that is not listed reads as the reset contents, 0 (R31, R48). -/
abbrev Memory := List Host.Cell

/-- The state of R30, and three fields of the model's own: `started`, `input`, `inputEnded`. -/
structure State where
  /-- M (R31). -/
  mem : Memory
  /-- SP, a signed 32-bit register (R32, R47). -/
  sp : Word
  /-- PC, a signed 32-bit register (R33, R47). -/
  pc : Word
  /-- The run-time code boundary (R38, R333). -/
  boundary : Nat
  /-- The load-time code boundary, which no rule reads (R38, R331). -/
  loadBoundary : Nat
  /-- The termination status (R39). -/
  status : Status
  /-- The addresses of the skipped unrecognized words, oldest first (R43). -/
  unrecLog : List Word
  /-- The events sent to the output port, oldest first (R41). -/
  out : List Event
  /-- The model's own (log 3): the run has started, so the boundary has been scanned (R333). -/
  started : Bool
  /-- The model's own (log 1): the lines the host has supplied and no instruction has read, oldest first (R42). -/
  input : List (List Byte)
  /-- The model's own (log 1): after `input` the host's input is at its end (R42). -/
  inputEnded : Bool
deriving DecidableEq, Repr

/-- The machine right after reset (R48, R330); `started`, `input` and `inputEnded` as logs 1 and 3 say. -/
def State.reset : State where
  mem := []
  sp := 4096
  pc := 0
  boundary := 0
  loadBoundary := 0
  status := .running
  unrecLog := []
  out := []
  started := false
  input := []
  inputEnded := true

/-- Why the machine has no next step. These are no faults of the core: those are next states (`Status.faulted`). -/
inductive Fault where
  /-- Raised by the engine on a state whose status is final: "no further step happens" (R39, R130). Safe: nothing is claimed
  of a step the spec says does not exist. -/
  | runEnded (status : Status)
  /-- Raised by Input and StInput when the host has supplied no line and has not closed the input: the core is blocked in
  readLine and has no step until a line arrives (R42, R316, R317; U24 of 93_implementation_defined.md). Safe. -/
  | waitingForInput
deriving DecidableEq, Repr

/-- What the model does not run. -/
inductive Refusal where
  /-- Raised by an arm of exec whose instruction has no meaning yet; no arm does. Safe. -/
  | notModelled (mnemonic : String)
  /-- Raised by the load interface on a buffer longer than 4096 bytes: the machine is not run (R331). Safe. -/
  | loadTooLong (len : Nat)
  /-- Raised by the load interface during a run, where the host may not load (R317). Safe. -/
  | loadDuringRun
deriving DecidableEq, Repr

/-- The outcome of a step. -/
abbrev Outcome := Host.Outcome State Fault Refusal

end Sys2Proof.Machine
end

