-- ==== Sys2Proof/Machine/Memory.lean ====
section
/-! DEFINITION. Memory: its canonical form, reading and writing one byte, and the guarded accesses of spec rules R61 to R66. -/

namespace Sys2Proof.Machine

/-! ## One byte -/

/-- The byte at an address; 0, the reset contents, where nothing is listed (R31, R48). -/
def Memory.read : Memory → Nat → Byte
  | [], _ => 0
  | (x, b) :: rest, a => if x = a then b else Memory.read rest a

/-- The memory without what it lists at an address. -/
def Memory.erase (m : Memory) (a : Nat) : Memory := m.filter fun c => c.1 != a

/-- A cell put in its place among rising addresses. -/
def Memory.insert : Memory → Nat → Byte → Memory
  | [], a, b => [(a, b)]
  | (x, c) :: rest, a, b => if a < x then (a, b) :: (x, c) :: rest else (x, c) :: Memory.insert rest a b

/-- The memory after one byte is written; a zero byte is not listed. -/
def Memory.write (m : Memory) (a : Nat) (b : Byte) : Memory :=
  if b = 0 then m.erase a else (m.erase a).insert a b

/-- Addresses rise strictly from `lo` on, lie in 0..4095, and no listed byte is 0. -/
def Memory.wfFrom : Nat → Memory → Bool
  | _, [] => true
  | lo, (a, b) :: rest => decide (lo ≤ a) && decide (a < Config.memSize) && b != 0 && Memory.wfFrom (a + 1) rest

/-- The canonical form of memory. -/
def Memory.wf (m : Memory) : Bool := m.wfFrom 0

/-! ## Words and guarded accesses -/

/-- `word(a)` (R62). -/
def Memory.wordAt (m : Memory) (a : Nat) : Word :=
  wordOfBytes (m.read a) (m.read (a + 1)) (m.read (a + 2)) (m.read (a + 3))

/-- The four bytes of a word written at `a` (R64). -/
def Memory.writeWord (m : Memory) (a : Nat) (v : Word) : Memory :=
  (((m.write a (byteOf v 0)).write (a + 1) (byteOf v 1)).write (a + 2) (byteOf v 2)).write (a + 3) (byteOf v 3)

/-- `MemRead(addr, 4)`, the guarded word read (R63). -/
def peek (m : Memory) (addr : Int) : Except FaultKind Word :=
  if addr < 0 then .error (.addressFault addr)
  else if Config.wordReadLimit < addr then .ok 0
  else .ok (m.wordAt addr.toNat)

/-- `MemWrite(addr, 4, v)` (R64). -/
def poke (m : Memory) (addr : Int) (v : Word) : Except FaultKind Memory :=
  if addr < 0 ∨ Config.wordReadLimit < addr then .error (.addressFault addr)
  else .ok (m.writeWord addr.toNat v)

/-- `MemRead(addr, 1)` (R65). -/
def peekByte (m : Memory) (addr : Int) : Except FaultKind Byte :=
  if addr < 0 ∨ Config.lastByte < addr then .error (.addressFault addr)
  else .ok (m.read addr.toNat)

/-- `MemWrite(addr, 1, b)` (R66). -/
def pokeByte (m : Memory) (addr : Int) (b : Byte) : Except FaultKind Memory :=
  if addr < 0 ∨ Config.lastByte < addr then .error (.addressFault addr)
  else .ok (m.write addr.toNat b)

/-! ## The boundary scan -/

/-- One more than the address of the last nonzero byte; 0 if every byte is 0. -/
def Memory.top : Memory → Nat
  | [] => 0
  | (a, b) :: rest => if b = 0 then Memory.top rest else max (a + 1) (Memory.top rest)

/-- `ComputeBoundary()`: the end of the word that holds the last nonzero byte, 0 for an all-zero memory (R333). -/
def computeBoundary (m : Memory) : Nat := (m.top + 3) / 4 * 4

end Sys2Proof.Machine
end

