-- ==== Sys2Proof/Machine/Params.lean ====
section
/-! DEFINITION. The parameters of spec rule R9 that an instruction's effect depends on, each at the value the spec decides.
The operations take them as arguments, so that the other value is modelled as well. -/

namespace Sys2Proof.Machine

/-- PUSH_SEXT_MODE (R9, decision D25): what Push does to bits 31:28 when bit 27 is 0. -/
inductive PushSextMode where
  /-- Leave the word unchanged. -/
  | orOnly
  /-- Clear bits 31:28. -/
  | full
deriving DecidableEq, Repr

/-- PUSH_SEXT_MODE = OrOnly (R9, R67; log 10). UNVERIFIED: the spec's decision D25. -/
def pushSextMode : PushSextMode := .orOnly

/-- OVERFLOW_TRAPS = false (R9, R211; log 9). UNVERIFIED: the spec's decision D13. -/
def overflowTraps : Bool := false

/-- EOF_AS_EMPTY = true (R9, R42; log 15). UNVERIFIED: the spec's decision D22. -/
def eofAsEmpty : Bool := true

end Sys2Proof.Machine
end

