-- ==== Sys2Proof/Machine/Ops.lean ====
section
/-! DEFINITION. The primitives of spec rule R13 over registers, stack, ports and status; taking a fault (R141); and how an
instruction's effect ends (R136 to R138). -/

namespace Sys2Proof.Machine

/-! ## Updates of one field -/

def State.setMem (s : State) (m : Memory) : State := { s with mem := m }

/-- SP as the word of an integer (R47). -/
def State.setSp (s : State) (v : Int) : State := { s with sp := w32 v }

/-- PC as the word of an integer (R47). -/
def State.setPc (s : State) (v : Int) : State := { s with pc := w32 v }

def State.setStatus (s : State) (st : Status) : State := { s with status := st }

/-- `emit` of several events, in order (R13, R41). -/
def State.emitAll (s : State) (es : List Event) : State := { s with out := s.out ++ es }

/-- The PC goes to the unrecognized log (R43). -/
def State.logPc (s : State) : State := { s with unrecLog := s.unrecLog ++ [s.pc] }

def State.setInput (s : State) (ls : List (List Byte)) : State := { s with input := ls }

/-- The run starts with this boundary (R333). -/
def State.start (s : State) (b : Nat) : State := { s with boundary := b, started := true }

/-! ## Effects -/

/-- What an instruction's pseudocode did so far: it goes on with a value, or it raised a fault. Either way the state holds
every effect made before (R141, R305). -/
inductive Eff (α : Type) where
  | ok (a : α) (s : State)
  | raise (k : FaultKind) (s : State)
deriving DecidableEq, Repr

/-- Statements in order; a raise stops the block (R13). -/
def Eff.bind {α β : Type} (e : Eff α) (f : α → State → Eff β) : Eff β :=
  match e with
  | .ok a s => f a s
  | .raise k s => .raise k s

/-- A computation that reads no state, run in a state. -/
def Eff.lift {α : Type} (s : State) (e : Except FaultKind α) : Eff α :=
  match e with
  | .ok a => .ok a s
  | .error k => .raise k s

/-- `raise Fault(k)`: the run is over, with the fault's kind and the instruction's own PC (R141, R302, R305). The core has no
handler, no saved state and no return from a fault (R300, R308, R309). -/
def takeFault (k : FaultKind) (s : State) : State := s.setStatus (.faulted k s.pc)

/-- `advancePC` (R37). -/
def advancePc (s : State) : State := s.setPc (min (s32 s.pc + 4) Config.pcClamp)

/-- The end of an instruction after which the engine advances PC (R138). -/
def Eff.thenAdvance (e : Eff Unit) : Outcome :=
  match e with
  | .ok _ s => .next (advancePc s)
  | .raise k s => .next (takeFault k s)

/-- The end of an instruction that sets PC itself (R136). -/
def Eff.thenStay (e : Eff Unit) : Outcome :=
  match e with
  | .ok _ s => .next s
  | .raise k s => .next (takeFault k s)

/-! ## Registers -/

/-- `pc <- target` (R34, R35). -/
def jumpPc (target : Int) (s : State) : Eff Unit :=
  if target < 0 then .raise (.pcOutOfRange target) s else .ok () (s.setPc target)

/-- `sp <- v`, clamped above (R36). -/
def jumpSp (v : Int) (s : State) : State := s.setSp (min v Config.spEmpty)

/-! ## The stack -/

/-- Push's rule for bit 27 (R67, PUSH_SEXT_MODE). -/
def fillSign (mode : PushSextMode) (v : Word) : Word :=
  if v.getLsbD 27 then v ||| 0xF0000000#32
  else match mode with
    | .orOnly => v
    | .full => v &&& 0x0FFFFFFF#32

/-- `Push(v)` (R67): SP is already lower when the write faults. -/
def push (v : Word) (s : State) : Eff Unit :=
  let s1 := s.setSp (s32 s.sp - 4)
  (Eff.lift s1 (poke s1.mem (s32 s1.sp) (fillSign pushSextMode v))).bind fun m s2 => .ok () (s2.setMem m)

/-- `Pop()` (R68). -/
def pop (s : State) : Eff Word :=
  (Eff.lift s (peek s.mem (s32 s.sp))).bind fun v s1 => .ok v (jumpSp (s32 s1.sp + 4) s1)

/-- Several pushes, the first word first. -/
def pushAll : List Word → State → Eff Unit
  | [], s => .ok () s
  | v :: vs, s => (push v s).bind fun _ s1 => pushAll vs s1

/-! ## The input port -/

/-- `readLine()` (R42): the next line; at the end of input the empty line (EOF_AS_EMPTY); `none` while the host has supplied
no line, when the core waits (R316). -/
def readLine (eofEmpty : Bool) (s : State) : Option (List Byte × State) :=
  match s.input with
  | line :: rest => some (line, s.setInput rest)
  | [] => if s.inputEnded && eofEmpty then some ([], s) else none

/-! ## Fault codes -/

/-- The cause code of a fault kind (R303). -/
def faultCode : FaultKind → Nat
  | .divideByZero => 1
  | .divideOverflow => 2
  | .shiftOutOfRange => 3
  | .addressFault _ => 4
  | .pcOutOfRange _ => 5
  | .arithmeticOverflow => 6

end Sys2Proof.Machine
end

