-- ==== Sys2Proof/Machine/Operands.lean ====
section
/-! DEFINITION. The operand forms: SP-relative addresses, PC-relative targets, the words on top of the stack. -/

namespace Sys2Proof.Machine

/-- `SP + offset`, an exact integer (R12, R47, R60). -/
def spRel (s : State) (offset : Int) : Int := s32 s.sp + offset

/-- `PC + offset`, PC being the executing instruction's own address (R131). -/
def pcRel (s : State) (offset : Int) : Int := s32 s.pc + offset

/-- Call's return address, `w32(PC + 4)` (R131, R260). -/
def returnAddress (s : State) : Word := w32 (s32 s.pc + 4)

/-- The word on top, read without popping (R139, R140). -/
def topWord (s : State) : Except FaultKind Word := peek s.mem (s32 s.sp)

/-- The word below the top, read without popping (R139). -/
def secondWord (s : State) : Except FaultKind Word := peek s.mem (spRel s 4)

end Sys2Proof.Machine
end

