-- ==== Sys2Proof/Machine/Arithmetic.lean ====
section
/-! DEFINITION. The binary and unary arithmetic instructions (spec rules R210 to R224). -/

namespace Sys2Proof.Machine

/-- A function of two words, left then right, that may raise a fault. -/
abbrev BinFn := Word → Word → Except FaultKind Word

/-! ## The functions -/

/-- An exact result narrowed to 32 bits; under OVERFLOW_TRAPS one outside -2^31..2^31-1 raises ArithmeticOverflow (R211). -/
def narrow (traps : Bool) (exact : Int) : Except FaultKind Word :=
  if traps ∧ (exact < -2147483648 ∨ 2147483647 < exact) then .error .arithmeticOverflow else .ok (w32 exact)

/-- R211. -/
def addFn (traps : Bool) : BinFn := fun l r => narrow traps (s32 l + s32 r)

/-- R212. -/
def subFn (traps : Bool) : BinFn := fun l r => narrow traps (s32 l - s32 r)

/-- R213. -/
def mulFn (traps : Bool) : BinFn := fun l r => narrow traps (s32 l * s32 r)

/-- The two faults of a signed division (R214, R215), checked in this order (R307). -/
def divisionFault (l r : Word) : Option FaultKind :=
  if s32 r = 0 then some .divideByZero
  else if s32 l = -2147483648 ∧ s32 r = -1 then some .divideOverflow
  else none

/-- R214: the quotient rounded toward zero. -/
def divFn : BinFn := fun l r =>
  match divisionFault l r with
  | some k => .error k
  | none => .ok (w32 (Int.tdiv (s32 l) (s32 r)))

/-- R215: the remainder, with the sign of the dividend. -/
def remFn : BinFn := fun l r =>
  match divisionFault l r with
  | some k => .error k
  | none => .ok (w32 (s32 l - Int.tdiv (s32 l) (s32 r) * s32 r))

/-- R216. -/
def andFn : BinFn := fun l r => .ok (l &&& r)

/-- R217. -/
def orFn : BinFn := fun l r => .ok (l ||| r)

/-- R218. -/
def xorFn : BinFn := fun l r => .ok (l ^^^ r)

/-- A shift whose amount must lie in 0..31 (R219 to R221). -/
def shiftFn (f : Word → Nat → Word) : BinFn := fun l r =>
  if 32 ≤ u32 r then .error .shiftOutOfRange else .ok (f l (u32 r))

/-- R219: bits shifted out are lost. -/
def shiftLeft (l : Word) (k : Nat) : Word := w32 (u32 l * 2 ^ k : Nat)

/-- R220: zeros shifted in. -/
def shiftRight (l : Word) (k : Nat) : Word := w32 (u32 l / 2 ^ k : Nat)

/-- R221: the arithmetic shift, with the source's bit-28 correction when bit 27 of the left operand is 1. -/
def shiftArith (l : Word) (k : Nat) : Word :=
  let a := w32 (Int.fdiv (s32 l) (2 ^ k))
  if l.getLsbD 27 then a ||| 0x10000000#32 else a

/-! ## The common forms -/

/-- `BinOp(f)` (R210): the right operand is popped first; a fault of `f` leaves both pops done. -/
def binOp (f : BinFn) (s : State) : Eff Unit :=
  (pop s).bind fun right s1 =>
  (pop s1).bind fun left s2 =>
  (Eff.lift s2 (f left right)).bind fun r s3 => push r s3

/-- Pop, apply, push (R222, R223). -/
def unOp (f : Word → Except FaultKind Word) (s : State) : Eff Unit :=
  (pop s).bind fun v s1 =>
  (Eff.lift s1 (f v)).bind fun r s2 => push r s2

/-! ## The instructions -/

/-- Add (R211). -/
def execAdd (s : State) : Outcome := (binOp (addFn overflowTraps) s).thenAdvance

/-- Sub (R212). -/
def execSub (s : State) : Outcome := (binOp (subFn overflowTraps) s).thenAdvance

/-- Mul (R213). -/
def execMul (s : State) : Outcome := (binOp (mulFn overflowTraps) s).thenAdvance

/-- Div (R214). -/
def execDiv (s : State) : Outcome := (binOp divFn s).thenAdvance

/-- Rem (R215). -/
def execRem (s : State) : Outcome := (binOp remFn s).thenAdvance

/-- And (R216). -/
def execAnd (s : State) : Outcome := (binOp andFn s).thenAdvance

/-- Or (R217). -/
def execOr (s : State) : Outcome := (binOp orFn s).thenAdvance

/-- Xor (R218). -/
def execXor (s : State) : Outcome := (binOp xorFn s).thenAdvance

/-- Lsl (R219). -/
def execLsl (s : State) : Outcome := (binOp (shiftFn shiftLeft) s).thenAdvance

/-- Lsr (R220). -/
def execLsr (s : State) : Outcome := (binOp (shiftFn shiftRight) s).thenAdvance

/-- Asr (R221). -/
def execAsr (s : State) : Outcome := (binOp (shiftFn shiftArith) s).thenAdvance

/-- Neg (R222). -/
def execNeg (s : State) : Outcome := (unOp (fun v => narrow overflowTraps (-s32 v)) s).thenAdvance

/-- Not (R223). -/
def execNot (s : State) : Outcome := (unOp (fun v => .ok (~~~v)) s).thenAdvance

end Sys2Proof.Machine
end

