-- ==== Sys2Proof/Machine/Flags.lean ====
section
/-! DEFINITION. The core has no flags and no condition codes (spec rule R45): a conditional branch evaluates its condition from
the words on the stack at the time of the branch. This file holds those conditions (R139, R140). -/

namespace Sys2Proof.Machine

/-- The named conditions of BinaryIf (R139). -/
inductive BinCond where
  | eq
  | ne
  | lt
  | gt
  | le
  | ge
deriving DecidableEq, Repr

/-- The conditions of UnaryIf (R140). -/
inductive UnCond where
  | ez
  | nz
  | mi
  | pl
deriving DecidableEq, Repr

/-- `taken3`: signed comparison of the word below the top with the top (R139). -/
def taken3 (c : BinCond) (left right : Int) : Bool :=
  match c with
  | .eq => decide (left = right)
  | .ne => decide (left ≠ right)
  | .lt => decide (left < right)
  | .gt => decide (left > right)
  | .le => decide (left ≤ right)
  | .ge => decide (left ≥ right)

/-- Conditions 6 and 7 are never taken (R139, R270). -/
def takenReserved (c : ReservedCond) (_left _right : Int) : Bool :=
  match c with
  | .rsv6 => false
  | .rsv7 => false

/-- `taken2`: signed test of the top word (R140). -/
def taken2 (c : UnCond) (val : Int) : Bool :=
  match c with
  | .ez => decide (val = 0)
  | .nz => decide (val ≠ 0)
  | .mi => decide (val < 0)
  | .pl => decide (val > 0)

end Sys2Proof.Machine
end

