-- ==== Sys2Proof/Machine/Control.lean ====
section
/-! DEFINITION. Control transfer: Call, Return, Goto, BinaryIf, UnaryIf (spec rules R260 to R275). -/

namespace Sys2Proof.Machine

/-- Call (R260): the return address is pushed before the target is checked. -/
def execCall (offset : Int) (s : State) : Outcome :=
  ((push (returnAddress s) s).bind fun _ s1 => jumpPc (pcRel s1 offset) s1).thenStay

/-- Return (R261). -/
def execReturn (offset : Int) (s : State) : Outcome :=
  ((pop (jumpSp (spRel s offset) s)).bind fun t s1 => jumpPc (s32 t) s1).thenStay

/-- Goto (R262). -/
def execGoto (offset : Int) (s : State) : Outcome := (jumpPc (pcRel s offset) s).thenStay

/-- Jump if taken, else advance (R263, R271). -/
def branch (taken : Bool) (offset : Int) (s : State) : Eff Unit :=
  if taken then jumpPc (pcRel s offset) s else .ok () (advancePc s)

/-- BinaryIf's common form (R263): right is the top word, left the one below; neither is popped. -/
def binaryIf (taken : Int → Int → Bool) (offset : Int) (s : State) : Outcome :=
  ((Eff.lift s (topWord s)).bind fun right s1 =>
   (Eff.lift s1 (secondWord s1)).bind fun left s2 =>
   branch (taken (s32 left) (s32 right)) offset s2).thenStay

/-- UnaryIf's common form (R271). -/
def unaryIf (taken : Int → Bool) (offset : Int) (s : State) : Outcome :=
  ((Eff.lift s (topWord s)).bind fun v s1 => branch (taken (s32 v)) offset s1).thenStay

/-- ifeq (R264). -/
def execIfeq (offset : Int) (s : State) : Outcome := binaryIf (taken3 .eq) offset s

/-- ifne (R265). -/
def execIfne (offset : Int) (s : State) : Outcome := binaryIf (taken3 .ne) offset s

/-- iflt (R266). -/
def execIflt (offset : Int) (s : State) : Outcome := binaryIf (taken3 .lt) offset s

/-- ifgt (R267). -/
def execIfgt (offset : Int) (s : State) : Outcome := binaryIf (taken3 .gt) offset s

/-- ifle (R268). -/
def execIfle (offset : Int) (s : State) : Outcome := binaryIf (taken3 .le) offset s

/-- ifge (R269). -/
def execIfge (offset : Int) (s : State) : Outcome := binaryIf (taken3 .ge) offset s

/-- ifrsv6 and ifrsv7 (R270): the reads are made, nothing is taken. -/
def execIfrsv (cond : ReservedCond) (offset : Int) (s : State) : Outcome := binaryIf (takenReserved cond) offset s

/-- ifez (R272). -/
def execIfez (offset : Int) (s : State) : Outcome := unaryIf (taken2 .ez) offset s

/-- ifnz (R273). -/
def execIfnz (offset : Int) (s : State) : Outcome := unaryIf (taken2 .nz) offset s

/-- ifmi (R274). -/
def execIfmi (offset : Int) (s : State) : Outcome := unaryIf (taken2 .mi) offset s

/-- ifpl (R275). -/
def execIfpl (offset : Int) (s : State) : Outcome := unaryIf (taken2 .pl) offset s

end Sys2Proof.Machine
end

