-- ==== Sys2Proof/Machine/Text.lean ====
section
/-! DEFINITION. The byte strings of Input and StInput: trim (spec rule R168), parseInput (R164) and the packing of R166. -/

namespace Sys2Proof.Machine

/-- Tab, line feed, vertical tab, form feed, carriage return, space (R168). -/
def isSpace (b : Byte) : Bool := (decide (9 ≤ b.toNat) && decide (b.toNat ≤ 13)) || b.toNat == 32

/-- `trim(line)` (R168). -/
def trim (line : List Byte) : List Byte :=
  ((line.dropWhile isSpace).reverse.dropWhile isSpace).reverse

/-- The value of a digit of the radix, hexadecimal digits in either case (R164). -/
def digitValue (radix : Nat) (b : Byte) : Option Nat :=
  let c := b.toNat
  let v :=
    if 48 ≤ c ∧ c ≤ 57 then c - 48
    else if 97 ≤ c ∧ c ≤ 102 then c - 87
    else if 65 ≤ c ∧ c ≤ 70 then c - 55
    else 16
  if v < radix then some v else none

/-- The number that one or more digits spell after `acc`; `none` if some byte is no digit. -/
def digitsFrom (radix acc : Nat) : List Byte → Option Nat
  | [] => some acc
  | b :: rest =>
    match digitValue radix b with
    | some v => digitsFrom radix (acc * radix + v) rest
    | none => none

/-- One or more digits and nothing else (R164). -/
def digits (radix : Nat) : List Byte → Option Nat
  | [] => none
  | b :: rest => digitsFrom radix 0 (b :: rest)

/-- An optional single sign, then digits (R164). -/
def signedDigits (radix : Nat) : List Byte → Option Int
  | [] => none
  | b :: rest =>
    if b.toNat = 43 then (digits radix rest).map fun n : Nat => (n : Int)
    else if b.toNat = 45 then (digits radix rest).map fun n : Nat => -(n : Int)
    else (digits radix (b :: rest)).map fun n : Nat => (n : Int)

/-- The integer of a trimmed line: the prefix chooses the radix (R164). -/
def parseInteger (t : List Byte) : Option Int :=
  match t with
  | b0 :: b1 :: rest =>
    if b0.toNat = 48 ∧ (b1.toNat = 120 ∨ b1.toNat = 88) then signedDigits 16 rest
    else if b0.toNat = 48 ∧ (b1.toNat = 98 ∨ b1.toNat = 66) then signedDigits 2 rest
    else signedDigits 10 t
  | _ => signedDigits 10 t

/-- `parseInput(t)`: 0 for what is not accepted or lies outside -2^31..2^31-1 (R164). -/
def parseInput (t : List Byte) : Word :=
  match parseInteger t with
  | some n => if n < -2147483648 ∨ 2147483647 < n then 0 else w32 n
  | none => 0

/-- One packed word: three characters in bytes 0, 1, 2 and the continuation flag in bits 31:24 (R166). -/
def packedWord (c0 c1 c2 flag : Byte) : Word := wordOfBytes c0 c1 c2 flag

/-- The words of a string from its head to its tail: the tail word has flag 0 and pads its unused slots with 1 (R166). -/
def packHead : List Byte → List Word
  | [] => []
  | [c0] => [packedWord c0 1 1 0]
  | [c0, c1] => [packedWord c0 c1 1 0]
  | c0 :: c1 :: c2 :: rest => packedWord c0 c1 c2 (if rest.isEmpty then 0 else 1) :: packHead rest

/-- The words in the order `StPack` pushes them, the tail word first (R166). -/
def stPack (s : List Byte) : List Word := (packHead s).reverse

end Sys2Proof.Machine
end

