-- ==== Sys2Proof/Machine/Misc.lean ====
section
/-! DEFINITION. The miscellaneous instructions, opcode 0x0 (spec rules R160 to R168). -/

namespace Sys2Proof.Machine

/-- Exit (R137, R160): the status and nothing else; PC is not advanced. -/
def execExit (code : Byte) (s : State) : Outcome := .next (s.setStatus (.exited code))

/-- The exchange of two bytes, reads before writes (R161). -/
def swapBytes (a b : Int) (s : State) : Eff Unit :=
  (Eff.lift s (peekByte s.mem a)).bind fun x s1 =>
  (Eff.lift s1 (peekByte s1.mem b)).bind fun y s2 =>
  (Eff.lift s2 (pokeByte s2.mem a y)).bind fun m1 s3 =>
  (Eff.lift s3 (pokeByte m1 b x)).bind fun m2 s4 => .ok () (s4.setMem m2)

/-- Swap (R161). -/
def execSwap (offA offB : Int) (s : State) : Outcome :=
  (swapBytes (spRel s offA) (spRel s offB) s).thenAdvance

/-- Nop (R162). -/
def execNop (s : State) : Outcome := (Eff.ok () s).thenAdvance

/-- Debug (R167): behaves as Nop. -/
def execDebug (s : State) : Outcome := (Eff.ok () s).thenAdvance

/-- Input (R163): the core waits while no line has arrived (R316). -/
def execInput (s : State) : Outcome :=
  match readLine eofAsEmpty s with
  | some (line, s1) => (push (parseInput (trim line)) s1).thenAdvance
  | none => .fault .waitingForInput

/-- What StInput pushes for a line, in order (R165). -/
def stInputWords (maxLength : Nat) (line : List Byte) : List Word :=
  let t := trim line
  if t.isEmpty then [0] else stPack (t.take maxLength)

/-- StInput (R165): the core waits while no line has arrived (R316). -/
def execStInput (maxLength : Nat) (s : State) : Outcome :=
  match readLine eofAsEmpty s with
  | some (line, s1) => (pushAll (stInputWords maxLength line) s1).thenAdvance
  | none => .fault .waitingForInput

end Sys2Proof.Machine
end

