-- ==== Sys2Proof/Machine/Output.lean ====
section
/-! DEFINITION. The output instructions StPrint, Print, Dump (spec rules R240 to R242). -/

namespace Sys2Proof.Machine

/-- The characters from address `a` on, at most `fuel` bytes: byte 0 ends them, byte 1 is skipped (R240). -/
def stringEvents (m : Memory) : Nat → Nat → List Event
  | 0, _ => []
  | fuel + 1, a =>
    let b := m.read a
    if b = 0 then []
    else if b = 1 then stringEvents m fuel (a + 1)
    else .char b :: stringEvents m fuel (a + 1)

/-- StPrint (R240): the scan stops above 4095; a negative start faults at the first read, before any output. -/
def execStPrint (offset : Int) (s : State) : Outcome :=
  let i := spRel s offset
  if i < 0 then (Eff.raise (.addressFault i) s).thenAdvance
  else (Eff.ok () (s.emitAll (stringEvents s.mem (Config.memSize - i.toNat) i.toNat))).thenAdvance

/-- Print (R241). -/
def execPrint (offset : Int) (fmt : PrintFormat) (s : State) : Outcome :=
  ((Eff.lift s (peek s.mem (spRel s offset))).bind fun v s1 => .ok () (s1.emitAll [.printValue fmt v])).thenAdvance

/-- One line per word from address `a` on, `count` of them; a word above 4092 reads as 0 (R63, R242). -/
def dumpEvents (m : Memory) : Nat → Nat → List Event
  | 0, _ => []
  | count + 1, a =>
    let v := if Config.wordReadLimit < (a : Int) then 0 else m.wordAt a
    .dumpLine a v :: dumpEvents m count (a + 4)

/-- Dump (R242): nothing on an empty stack; addresses SP, SP+4, ... up to 4095. A negative SP, which no run reaches, faults at
the first read. -/
def execDump (s : State) : Outcome :=
  let a := s32 s.sp
  if Config.spEmpty ≤ a then (Eff.ok () s).thenAdvance
  else if a < 0 then (Eff.raise (.addressFault a) s).thenAdvance
  else (Eff.ok () (s.emitAll (dumpEvents s.mem ((Config.memSize - a.toNat + 3) / 4) a.toNat))).thenAdvance

end Sys2Proof.Machine
end

