-- ==== Sys2Proof/Machine/Stack.lean ====
section
/-! DEFINITION. The stack instructions Pop, Dup, Push (spec rules R190 to R192). -/

namespace Sys2Proof.Machine

/-- Pop (R190): no effect on an empty stack; no memory is read. -/
def execPop (offset : Nat) (s : State) : Outcome :=
  (Eff.ok () (if s32 s.sp < Config.spEmpty then jumpSp (spRel s offset) s else s)).thenAdvance

/-- Dup (R191): the word is read with the SP before the push. -/
def execDup (offset : Int) (s : State) : Outcome :=
  ((Eff.lift s (peek s.mem (spRel s offset))).bind fun v s1 => push v s1).thenAdvance

/-- Push (R192). -/
def execPush (value : Word) (s : State) : Outcome := (push value s).thenAdvance

end Sys2Proof.Machine
end

