-- ==== Sys2Proof/Machine/Dispatch.lean ====
section
/-! DEFINITION. The dispatch of spec rules R130 and R135 to R138: one arm per constructor of Instr. -/

namespace Sys2Proof.Machine

def exec (i : Instr) (s : State) : Host.Outcome State Fault Refusal :=
  match i with
  | .exit code => Sys2Proof.Machine.execExit code s
  | .swap offA offB => Sys2Proof.Machine.execSwap offA offB s
  | .nop => Sys2Proof.Machine.execNop s
  | .input => Sys2Proof.Machine.execInput s
  | .stinput n => Sys2Proof.Machine.execStInput n s
  | .debug => Sys2Proof.Machine.execDebug s
  | .pop n => Sys2Proof.Machine.execPop n s
  | .add => Sys2Proof.Machine.execAdd s
  | .sub => Sys2Proof.Machine.execSub s
  | .mul => Sys2Proof.Machine.execMul s
  | .div => Sys2Proof.Machine.execDiv s
  | .rem => Sys2Proof.Machine.execRem s
  | .and => Sys2Proof.Machine.execAnd s
  | .or => Sys2Proof.Machine.execOr s
  | .xor => Sys2Proof.Machine.execXor s
  | .lsl => Sys2Proof.Machine.execLsl s
  | .lsr => Sys2Proof.Machine.execLsr s
  | .asr => Sys2Proof.Machine.execAsr s
  | .neg => Sys2Proof.Machine.execNeg s
  | .not => Sys2Proof.Machine.execNot s
  | .stprint o => Sys2Proof.Machine.execStPrint o s
  | .call o => Sys2Proof.Machine.execCall o s
  | .ret o => Sys2Proof.Machine.execReturn o s
  | .goto o => Sys2Proof.Machine.execGoto o s
  | .ifeq o => Sys2Proof.Machine.execIfeq o s
  | .ifne o => Sys2Proof.Machine.execIfne o s
  | .iflt o => Sys2Proof.Machine.execIflt o s
  | .ifgt o => Sys2Proof.Machine.execIfgt o s
  | .ifle o => Sys2Proof.Machine.execIfle o s
  | .ifge o => Sys2Proof.Machine.execIfge o s
  | .ifrsv c o => Sys2Proof.Machine.execIfrsv c o s
  | .ifez o => Sys2Proof.Machine.execIfez o s
  | .ifnz o => Sys2Proof.Machine.execIfnz o s
  | .ifmi o => Sys2Proof.Machine.execIfmi o s
  | .ifpl o => Sys2Proof.Machine.execIfpl o s
  | .dup o => Sys2Proof.Machine.execDup o s
  | .print o f => Sys2Proof.Machine.execPrint o f s
  | .dump => Sys2Proof.Machine.execDump s
  | .push v => Sys2Proof.Machine.execPush v s

end Sys2Proof.Machine
end

