-- ==== Sys2Proof/Machine/Engine.lean ====
section
/-! DEFINITION. The engine around the dispatch (spec rules R130 to R135, R333): the start of the run, the halt checks, the fetch,
the decoding, the skip of an unrecognized word. -/

namespace Sys2Proof.Machine

/-- At the start of a run, before the first step, the core computes the boundary, once (R333, R335; log 3). -/
def beginRun (s : State) : State := if s.started then s else s.start (computeBoundary s.mem)

/-- The halt checks, SP's first (R132). -/
def haltCheck (s : State) : Option Status :=
  if s32 s.sp ≤ s.boundary then some .stackOverrun
  else if (s.boundary : Int) ≤ s32 s.pc then some .codeOverrun
  else none

/-- The instruction word at PC (R70, R133). -/
def fetch (s : State) : Except FaultKind Word := peek s.mem (s32 s.pc)

/-- An unrecognized word is logged and skipped (R135, R306). -/
def skipWord (s : State) : State := advancePc s.logPc

/-- What one iteration of the loop comes to, short of executing the instruction. -/
inductive Plan where
  /-- There is no next step. -/
  | stuck (f : Fault)
  /-- The iteration ends in this state with no instruction executed. -/
  | done (s : State)
  /-- The instruction to execute and the state to execute it in. -/
  | run (i : Instr) (s : State)
deriving DecidableEq, Repr

/-- The iteration of a running core whose boundary is known (R130). The fetch cannot fault in a state that a run reaches (R133). -/
def planCycle (s : State) : Plan :=
  match haltCheck s with
  | some st => .done (s.setStatus st)
  | none =>
    match fetch s with
    | .error k => .done (takeFault k s)
    | .ok w =>
      match decode w with
      | .error _ => .done (skipWord s)
      | .ok i => .run i s

/-- A step is defined only when the status is Running (R39, R130). -/
def plan (s : State) : Plan :=
  match s.status with
  | .running => planCycle (beginRun s)
  | st => .stuck (.runEnded st)

end Sys2Proof.Machine
end

