-- ==== Sys2Proof/Machine/Step.lean ====
section
/-! DEFINITION. One step of the core (spec rule R130), and the placing of one instruction where the next step fetches it. -/

namespace Sys2Proof.Machine

/-- One step: an iteration of the engine's loop (R130). -/
def step (s : State) : Host.Outcome State Fault Refusal :=
  match plan s with
  | .stuck f => .fault f
  | .done t => .next t
  | .run i t => exec i t

/-- The state with the instruction whose table bits are `w` at PC, ready to be fetched by the next step: the run counts as
started and running, and the boundary lies above the instruction (log 22). -/
def State.withFetchWord (s : State) (nbits w : Nat) : State :=
  let a := s.pc.toNat
  { s with
    mem := s.mem.writeWord a (BitVec.ofNat 32 (w % 2 ^ nbits))
    boundary := if a < s.boundary then s.boundary else a + 4
    status := .running
    started := true }

end Sys2Proof.Machine
end

