-- ==== Sys2Proof/Machine/Boot.lean ====
section
/-! DEFINITION. The load interface, used by the host before a run (spec rules R331, R335), and the program file's magic bytes
for reference (R332). -/

namespace Sys2Proof.Machine

/-- Bytes copied to rising addresses (R331). -/
def Memory.copyFrom (m : Memory) (a : Nat) : List Byte → Memory
  | [] => m
  | b :: rest => (m.write a b).copyFrom (a + 1) rest

/-- `load(bytes)` (R331): a buffer longer than 4096 bytes is refused, and so is a load during a run (R317).
DESIGN CHOICE (log 19): a core that waits for a line in its FIRST instruction has begun its run, but no step has been completed and
`started` is still false, so a load is accepted there. -/
def load (bytes : List Byte) (s : State) : Outcome :=
  if s.started then .refused .loadDuringRun
  else if Config.memSize < bytes.length then .refused (.loadTooLong bytes.length)
  else .next { s with mem := s.mem.copyFrom 0 bytes, loadBoundary := bytes.length }

/-- The magic bytes that head a program file, in file order (R332). -/
def magicBytes : List Byte := [0xDE, 0xAD, 0xBE, 0xEF]

/-- The bytes to load from a program file; the check is the loader's, outside the core (R7, R318, R332). -/
def programOfFile (file : List Byte) : Option (List Byte) :=
  if file.take 4 = magicBytes then some (file.drop 4) else none

end Sys2Proof.Machine
end

