-- ==== Sys2Proof/Machine/Render.lean ====
section
/-! DEFINITION. The text the host renders for each output event (spec rule R243): host side, for reference; no step uses it. -/

namespace Sys2Proof.Machine

/-- The lowercase digit of a value below 16, as a byte. -/
def digitByte (v : Nat) : Byte := BitVec.ofNat 8 (if v < 10 then 48 + v else 87 + v)

/-- The digits of a number before those already made; `fuel` bounds their count. -/
def digitsOf (radix : Nat) : Nat → Nat → List Byte → List Byte
  | 0, _, acc => acc
  | fuel + 1, n, acc =>
    if n < radix then digitByte n :: acc else digitsOf radix fuel (n / radix) (digitByte (n % radix) :: acc)

/-- A 32-bit number without leading zeros. -/
def unsignedText (radix n : Nat) : List Byte := digitsOf radix 33 n []

/-- The signed decimal of a word (decision D21). -/
def signedText (v : Word) : List Byte :=
  if s32 v < 0 then 45 :: unsignedText 10 (-s32 v).toNat else unsignedText 10 (s32 v).toNat

/-- renderPrint, renderDump and renderChar (R9, R243): each line ends with a line feed; a character stands alone. -/
def renderEvent : Event → List Byte
  | .printValue .decimal v => signedText v ++ [10]
  | .printValue .hex v => [48, 120] ++ unsignedText 16 (u32 v) ++ [10]
  | .printValue .binary v => [48, 98] ++ unsignedText 2 (u32 v) ++ [10]
  | .printValue .octal v => [48, 111] ++ unsignedText 8 (u32 v) ++ [10]
  | .dumpLine a v => unsignedText 16 a.toNat ++ [58, 32] ++ unsignedText 16 (u32 v) ++ [10]
  | .char b => [b]

/-- The text of a run's output (R41, R243). -/
def renderOut (es : List Event) : List Byte := es.flatMap renderEvent

end Sys2Proof.Machine
end

