-- ==== Sys2Proof/Safety.lean ====
section
/-! DEFINITION. The terms the claims use: the invariant of spec rule R46, the words a stack instruction reads and stores, the
frames, and the faults an instruction may raise (R304). -/

namespace Sys2Proof.Machine

/-! ## Ranges and the invariant (R46) -/

/-- `0 <= SP <= 4096`, as R46 gives it at the start of every step while the core runs. -/
def State.SpInRange (s : State) : Prop := 0 ≤ s32 s.sp ∧ s32 s.sp ≤ 4096

/-- What R46 says of a state whose fetch is about to happen: `0 <= PC < boundary < SP <= 4096`. -/
def State.AtFetch (s : State) : Prop :=
  s.status = .running ∧ s.started = true ∧ 0 ≤ s32 s.pc ∧ s32 s.pc < s.boundary ∧ (s.boundary : Int) < s32 s.sp ∧ s32 s.sp ≤ 4096

/-- The invariant: canonical memory (R31), the ranges of the two boundaries (R38), and R46 while the core runs. -/
structure State.Inv (s : State) : Prop where
  memWf : s.mem.wf = true
  boundaryLe : s.boundary ≤ 4096
  boundaryAligned : s.boundary % 4 = 0
  loadBoundaryLe : s.loadBoundary ≤ 4096
  spRange : s.status = .running → 0 ≤ s32 s.sp ∧ s32 s.sp ≤ 4096
  pcNonneg : s.status = .running → 0 ≤ s32 s.pc

/-- A state in which the core goes on or has ended without a fault. -/
def State.NotFaulted (s : State) : Prop := ∀ k pc, s.status ≠ .faulted k pc

/-! ## Values -/

/-- What the guarded word read gives at an address that is not negative (R63). -/
def Memory.wordOrZero (m : Memory) (a : Int) : Word := if 4092 < a then 0 else m.wordAt a.toNat

/-- SP after one pop (R68). -/
def afterPop (sp : Int) : Int := min (sp + 4) 4096

/-- PC after the plain increment (R37). -/
def plusFour (pc : Int) : Int := min (pc + 4) 4096

/-- The word that Push stores for a value: bits 31:28 set when bit 27 is 1, else the value (R67, decision D25). -/
def storedForm (v : Word) : Word := if v.getLsbD 27 then v ||| 0xF0000000#32 else v

/-- The right operand of a binary instruction: the word on top (R210). -/
def State.rightOperand (s : State) : Word := s.mem.wordOrZero (s32 s.sp)

/-- The left operand of a binary instruction: the word the second pop reads (R210). -/
def State.leftOperand (s : State) : Word := s.mem.wordOrZero (afterPop (s32 s.sp))

/-- The address a binary instruction stores its result at: two pops, then a push (R210). -/
def State.binaryTop (s : State) : Int := afterPop (afterPop (s32 s.sp)) - 4

/-- The address a unary instruction stores its result at: one pop, then a push (R222, R223). -/
def State.unaryTop (s : State) : Int := afterPop (s32 s.sp) - 4

/-! ## Frames -/

/-- Every byte outside `a .. a+n-1` reads as before. -/
def Memory.SameOutside (m m' : Memory) (a n : Nat) : Prop := ∀ x, x < a ∨ a + n ≤ x → m'.read x = m.read x

/-- Nothing but memory, SP and PC differs. -/
def OnlyMemSpPc (s t : State) : Prop := t = { s with mem := t.mem, sp := t.sp, pc := t.pc }

/-- The state after an instruction that leaves `top` as SP and stores one word there, and advances PC: the word is `v` as Push
stores it, every other byte reads as before, and nothing else changes. -/
structure Pushed (s t : State) (top : Int) (v : Word) : Prop where
  sp : s32 t.sp = top
  word : t.mem.wordAt top.toNat = storedForm v
  otherBytes : s.mem.SameOutside t.mem top.toNat 4
  pc : s32 t.pc = plusFour (s32 s.pc)
  rest : OnlyMemSpPc s t

/-- The state after a raise that changed nothing before it (R141). -/
def faultedAt (s : State) (k : FaultKind) : State := { s with status := .faulted k s.pc }

/-- The state after nothing but a write of PC. -/
def movedTo (s : State) (pc : Int) : State := { s with pc := w32 pc }

/-! ## The text of an input line, as a relation (R164, R168; the spec's decisions D22, D23) -/

/-- The bytes that trim removes (R168). -/
def trimSet : List Byte := [0x09, 0x0A, 0x0B, 0x0C, 0x0D, 0x20]

/-- `body` is the line without every leading and every trailing byte of the set (R168). -/
def Trimmed (line body : List Byte) : Prop :=
  (∃ pre post, line = pre ++ body ++ post ∧ (∀ b ∈ pre ++ post, b ∈ trimSet)) ∧
  (∀ b, b ∈ body.head? ∨ b ∈ body.getLast? → b ∉ trimSet)

/-- The byte is a digit of the radix with this value: 0-9, then a-f or A-F (R164). -/
def IsDigit (radix : Nat) (b : Byte) (v : Nat) : Prop :=
  v < radix ∧ (v < 10 ∧ b.toNat = 48 + v ∨ 10 ≤ v ∧ (b.toNat = 97 + (v - 10) ∨ b.toNat = 65 + (v - 10)))

/-- One or more digits of the radix, the most significant first, spell the number (R164). -/
def SpellsNat (radix : Nat) (ds : List Byte) (n : Nat) : Prop :=
  ds ≠ [] ∧ ∃ vs, List.Forall₂ (IsDigit radix) ds vs ∧ n = vs.foldl (fun acc v => acc * radix + v) 0

/-- An optional single '+' or '-', then digits (R164). -/
def SpellsInt (radix : Nat) (ds : List Byte) (n : Int) : Prop :=
  ∃ m : Nat, (n = m ∧ (SpellsNat radix ds m ∨ ∃ rest, ds = 43 :: rest ∧ SpellsNat radix rest m)) ∨
    (n = -m ∧ ∃ rest, ds = 45 :: rest ∧ SpellsNat radix rest m)

/-- The text is accepted and spells the integer: 0x or 0X and hexadecimal, 0b or 0B and binary, or decimal (R164). -/
def SpellsInput (t : List Byte) (n : Int) : Prop :=
  (∃ ds, (t = 48 :: 120 :: ds ∨ t = 48 :: 88 :: ds) ∧ SpellsInt 16 ds n) ∨
  (∃ ds, (t = 48 :: 98 :: ds ∨ t = 48 :: 66 :: ds) ∧ SpellsInt 2 ds n) ∨ SpellsInt 10 t n

/-- The word of the integer the text spells; 0 for a text that is not accepted and for an integer outside -2^31..2^31-1 (R164). -/
def ReadsAs (t : List Byte) (v : Word) : Prop :=
  (∃ n, SpellsInput t n ∧ -2147483648 ≤ n ∧ n ≤ 2147483647 ∧ s32 v = n) ∨
  ((∀ n, SpellsInput t n → n < -2147483648 ∨ 2147483647 < n) ∧ v = 0)

/-! ## Table R304 -/

/-- A fault kind without its datum: the columns of R304's table. -/
inductive FaultClass where
  | divideByZero
  | divideOverflow
  | shiftOutOfRange
  | addressFault
  | pcOutOfRange
  | arithmeticOverflow
deriving DecidableEq, Repr

/-- The class of a fault kind. -/
def FaultKind.cls : FaultKind → FaultClass
  | .divideByZero => .divideByZero
  | .divideOverflow => .divideOverflow
  | .shiftOutOfRange => .shiftOutOfRange
  | .addressFault _ => .addressFault
  | .pcOutOfRange _ => .pcOutOfRange
  | .arithmeticOverflow => .arithmeticOverflow

/-- The faults an instruction can raise at execution (R304), OVERFLOW_TRAPS being false. -/
def mayRaise : Instr → List FaultClass
  | .exit _ => []
  | .swap _ _ => [.addressFault]
  | .nop => []
  | .input => []
  | .stinput _ => [.addressFault]
  | .debug => []
  | .pop _ => []
  | .add => []
  | .sub => []
  | .mul => []
  | .div => [.divideByZero, .divideOverflow]
  | .rem => [.divideByZero, .divideOverflow]
  | .and => []
  | .or => []
  | .xor => []
  | .lsl => [.shiftOutOfRange]
  | .lsr => [.shiftOutOfRange]
  | .asr => [.shiftOutOfRange]
  | .neg => []
  | .not => []
  | .stprint _ => [.addressFault]
  | .call _ => [.pcOutOfRange]
  | .ret _ => [.addressFault, .pcOutOfRange]
  | .goto _ => [.pcOutOfRange]
  | .ifeq _ => [.pcOutOfRange]
  | .ifne _ => [.pcOutOfRange]
  | .iflt _ => [.pcOutOfRange]
  | .ifgt _ => [.pcOutOfRange]
  | .ifle _ => [.pcOutOfRange]
  | .ifge _ => [.pcOutOfRange]
  | .ifrsv _ _ => []
  | .ifez _ => [.pcOutOfRange]
  | .ifnz _ => [.pcOutOfRange]
  | .ifmi _ => [.pcOutOfRange]
  | .ifpl _ => [.pcOutOfRange]
  | .dup _ => [.addressFault]
  | .print _ _ => [.addressFault]
  | .dump => []
  | .push _ => []

/-- The instructions after which the engine does not advance PC (R136, R137). -/
def setsPcItself : Instr → Bool
  | .exit _ => true
  | .swap _ _ => false
  | .nop => false
  | .input => false
  | .stinput _ => false
  | .debug => false
  | .pop _ => false
  | .add => false
  | .sub => false
  | .mul => false
  | .div => false
  | .rem => false
  | .and => false
  | .or => false
  | .xor => false
  | .lsl => false
  | .lsr => false
  | .asr => false
  | .neg => false
  | .not => false
  | .stprint _ => false
  | .call _ => true
  | .ret _ => true
  | .goto _ => true
  | .ifeq _ => true
  | .ifne _ => true
  | .iflt _ => true
  | .ifgt _ => true
  | .ifle _ => true
  | .ifge _ => true
  | .ifrsv _ _ => true
  | .ifez _ => true
  | .ifnz _ => true
  | .ifmi _ => true
  | .ifpl _ => true
  | .dup _ => false
  | .print _ _ => false
  | .dump => false
  | .push _ => false

/-- The instructions that can write memory: the word writers and the byte writer of R71. -/
def writesMemory : Instr → Bool
  | .exit _ => false
  | .swap _ _ => true
  | .nop => false
  | .input => true
  | .stinput _ => true
  | .debug => false
  | .pop _ => false
  | .add => true
  | .sub => true
  | .mul => true
  | .div => true
  | .rem => true
  | .and => true
  | .or => true
  | .xor => true
  | .lsl => true
  | .lsr => true
  | .asr => true
  | .neg => true
  | .not => true
  | .stprint _ => false
  | .call _ => true
  | .ret _ => false
  | .goto _ => false
  | .ifeq _ => false
  | .ifne _ => false
  | .iflt _ => false
  | .ifgt _ => false
  | .ifle _ => false
  | .ifge _ => false
  | .ifrsv _ _ => false
  | .ifez _ => false
  | .ifnz _ => false
  | .ifmi _ => false
  | .ifpl _ => false
  | .dup _ => true
  | .print _ _ => false
  | .dump => false
  | .push _ => true

end Sys2Proof.Machine
end

