-- ==== Sys2Proof/Certificates/Slice0/Obligations.lean ====
section
/-! DEFINITION. The statements for the provers. "Dn" is a decision of 92_eei_decisions.md: a choice the spec marks as its own. A
statement that rests on one is derived, and its docstring names it. -/

open Sys2Proof Sys2Proof.Machine

/-! ## Encoding -/

/-- A few words of the spec's own decode table (95_test_vectors.md section 2) decode as it says. -/
def Obligations.WorkedWordsDecode : Prop :=
  decode 0x0000FF07#32 = .ok (.exit 7) ∧ decode 0x01FFF000#32 = .ok (.swap (-4) 0) ∧ decode 0x02000000#32 = .ok .nop ∧
  decode 0x05FFFFFF#32 = .ok (.stinput 16777215) ∧ decode 0x1FFFFFFF#32 = .ok (.pop 268435455) ∧
  decode 0x20FFFFFF#32 = .ok .add ∧ decode 0x2B000000#32 = .ok .asr ∧ decode 0x31000000#32 = .ok .not ∧
  decode 0x5000000F#32 = .ok (.call 12) ∧ decode 0x78000000#32 = .ok (.goto (-134217728)) ∧
  decode 0x82FFFFF4#32 = .ok (.ifne (-12)) ∧ decode 0x8E000008#32 = .ok (.ifrsv .rsv7 8) ∧
  decode 0x98000000#32 = .ok (.ifez 0) ∧ decode 0xCFFFFFFC#32 = .ok (.dup (-4)) ∧
  decode 0xD0000007#32 = .ok (.print 4 .octal) ∧ decode 0xEFFFFFFF#32 = .ok .dump ∧
  decode 0xF8000000#32 = .ok (.push 0xF8000000#32) ∧ (decode 0x2C000000#32).toBool = false

/-- Decoding the encoding of any well-formed instruction gives the instruction back (R102, R105; D33). -/
def Obligations.DecodeOfEncode : Prop := ∀ i : Instr, i.wellFormed = true → decode (encode i) = .ok i

/-- Whatever a word decodes to has operands in the ranges of R94 to R98. -/
def Obligations.DecodedOperandsInRange : Prop := ∀ (w : Word) (i : Instr), decode w = .ok i → i.wellFormed = true

/-- The unrecognized words are exactly those of R103 (its sub-opcode values are D2, D3, D4). -/
def Obligations.UnrecognizedSpace : Prop :=
  ∀ w : Word, (∃ r, decode w = .error r) ↔
    (w.toNat / 2 ^ 28 ∈ [0xA, 0xB]) ∨
    (w.toNat / 2 ^ 28 = 0x0 ∧ w.toNat / 2 ^ 24 % 16 ∈ [0x3, 0x6, 0x7, 0x8, 0x9, 0xA, 0xB, 0xC, 0xD, 0xE]) ∨
    (w.toNat / 2 ^ 28 = 0x2 ∧ w.toNat / 2 ^ 24 % 16 ∈ [0xA, 0xC, 0xD, 0xE, 0xF]) ∨
    (w.toNat / 2 ^ 28 = 0x3 ∧ 0x2 ≤ w.toNat / 2 ^ 24 % 16)

/-- The rows of the opcode table select exactly the decoded words, and no word has two rows (R106; D2 to D5). -/
def Obligations.OpcodeTableDisjointAndExact : Prop :=
  (∀ (w : Word) (i : Instr), decode w = .ok i → i.row.selects w = true) ∧
  (∀ (w : Word) (r : DecodeReject), decode w = .error r → ∀ i : Instr, i.row.selects w = false) ∧
  (∀ (w : Word) (i j : Instr), i.row.selects w = true → j.row.selects w = true → i.row = j.row)

/-- The ignored bits of R93 do not matter: two words that agree on the named fields decode alike (R101; D11, fields D2 to D9). -/
def Obligations.IgnoredBitsDoNotMatter : Prop :=
  (∀ w v : Word, w.toNat / 2 ^ 24 = v.toNat / 2 ^ 24 →
    w.toNat / 2 ^ 24 ∈ [0x02, 0x04, 0x0F] ∨ w.toNat / 2 ^ 28 ∈ [0x2, 0x3] → decode w = decode v) ∧
  (∀ w v : Word, w.toNat / 2 ^ 24 = 0 → v.toNat / 2 ^ 24 = 0 → w.toNat % 2 ^ 8 = v.toNat % 2 ^ 8 → decode w = decode v) ∧
  (∀ w v : Word, w.toNat / 2 ^ 28 ∈ [0x4, 0x5, 0x6, 0x7, 0xC] → w.toNat / 4 = v.toNat / 4 → decode w = decode v) ∧
  (∀ w v : Word, w.toNat / 2 ^ 28 = 0x8 → w.toNat / 2 ^ 25 = v.toNat / 2 ^ 25 →
    w.toNat / 4 % 2 ^ 22 = v.toNat / 4 % 2 ^ 22 → decode w = decode v) ∧
  (∀ w v : Word, w.toNat / 2 ^ 28 = 0x9 → v.toNat / 2 ^ 28 = 0x9 → w.toNat / 2 ^ 25 % 4 = v.toNat / 2 ^ 25 % 4 →
    w.toNat / 4 % 2 ^ 22 = v.toNat / 4 % 2 ^ 22 → decode w = decode v) ∧
  (∀ w v : Word, w.toNat / 2 ^ 28 = 0xE → v.toNat / 2 ^ 28 = 0xE → decode w = decode v)

/-! ## Memory and stack primitives -/

/-- R61: every word read, word write and fetch is little-endian, the lowest address holding bits 7:0. -/
def Obligations.WordsAreLittleEndian : Prop :=
  (∀ (m : Memory) (a : Nat), a ≤ 4092 → ∃ v, peek m a = .ok v ∧ v.extractLsb' 0 8 = m.read a ∧ v.extractLsb' 8 8 = m.read (a + 1) ∧
    v.extractLsb' 16 8 = m.read (a + 2) ∧ v.extractLsb' 24 8 = m.read (a + 3)) ∧
  (∀ (m : Memory) (a : Nat) (v : Word), a ≤ 4092 → ∃ m', poke m a v = .ok m' ∧ m'.read a = v.extractLsb' 0 8 ∧
    m'.read (a + 1) = v.extractLsb' 8 8 ∧ m'.read (a + 2) = v.extractLsb' 16 8 ∧ m'.read (a + 3) = v.extractLsb' 24 8) ∧
  (∀ (s : State) (a : Nat), a ≤ 4092 → s32 s.pc = a → ∃ v, fetch s = .ok v ∧ v.extractLsb' 0 8 = s.mem.read a ∧
    v.extractLsb' 8 8 = s.mem.read (a + 1) ∧ v.extractLsb' 16 8 = s.mem.read (a + 2) ∧ v.extractLsb' 24 8 = s.mem.read (a + 3))

/-- The guards of the four accesses, and that a write changes its own bytes alone (R63 to R66; the faults are D16). -/
def Obligations.AccessGuards : Prop :=
  (∀ (m : Memory) (a : Int), a < 0 → peek m a = .error (.addressFault a)) ∧
  (∀ (m : Memory) (a : Int), 4092 < a → peek m a = .ok 0) ∧
  (∀ (m : Memory) (a : Int) (v : Word), a < 0 ∨ 4092 < a → poke m a v = .error (.addressFault a)) ∧
  (∀ (m : Memory) (a : Nat) (v : Word), a ≤ 4092 → ∃ m', poke m a v = .ok m' ∧ peek m' a = .ok v ∧ m.SameOutside m' a 4) ∧
  (∀ (m : Memory) (a : Int), a < 0 ∨ 4095 < a → peekByte m a = .error (.addressFault a)) ∧
  (∀ (m : Memory) (a : Int) (b : Byte), a < 0 ∨ 4095 < a → pokeByte m a b = .error (.addressFault a)) ∧
  (∀ (m : Memory) (a : Nat) (b : Byte), a ≤ 4095 → ∃ m', pokeByte m a b = .ok m' ∧ peekByte m' a = .ok b ∧ m.SameOutside m' a 1)

/-- Push: bit 27 set in the value sets bits 31:28 of the stored word and else the value is stored as it is, below the old top; with
no room the write faults and SP stays lowered (R67; OrOnly is D25, the fault D16). -/
def Obligations.PushStoresAndExtends : Prop :=
  ∀ (v : Word) (s : State), 0 ≤ s32 s.sp → s32 s.sp ≤ 4096 →
    (4 ≤ s32 s.sp → ∃ t, push v s = .ok () t ∧ s32 t.sp = s32 s.sp - 4 ∧ s.mem.SameOutside t.mem (s32 s.sp - 4).toNat 4 ∧
      (t.mem.wordAt (s32 s.sp - 4).toNat).extractLsb' 0 28 = v.extractLsb' 0 28 ∧
      (t.mem.wordAt (s32 s.sp - 4).toNat).extractLsb' 28 4 = (if v.getLsbD 27 then 15#4 else v.extractLsb' 28 4) ∧
      t = { s with mem := t.mem, sp := t.sp }) ∧
    (s32 s.sp < 4 → push v s = .raise (.addressFault (s32 s.sp - 4)) { s with sp := w32 (s32 s.sp - 4) })

/-- Pop: the word at SP, 0 above 4092, and SP higher by 4 but at most 4096; below 0 it faults (R68; D16, D26). -/
def Obligations.PopReadsAndClamps : Prop :=
  ∀ s : State,
    (0 ≤ s32 s.sp → s32 s.sp ≤ 4092 → pop s = .ok (s.mem.wordAt (s32 s.sp).toNat) { s with sp := w32 (s32 s.sp + 4) }) ∧
    (4092 < s32 s.sp → pop s = .ok 0 { s with sp := 4096 }) ∧
    (s32 s.sp < 0 → pop s = .raise (.addressFault (s32 s.sp)) s)

/-- Pops one after another. -/
def popMany : Nat → State → Eff (List Word)
  | 0, s => .ok [] s
  | n + 1, s => (pop s).bind fun v s1 => (popMany n s1).bind fun vs s2 => .ok (v :: vs) s2

/-- Words that Push stores unchanged come back in reverse order, and SP is what it was (95_test_vectors.md X-8). -/
def Obligations.PushedWordsPopInReverse : Prop :=
  ∀ (vs : List Word) (s : State), (∀ v ∈ vs, storedForm v = v) → 4 * (vs.length : Int) ≤ s32 s.sp → s32 s.sp ≤ 4096 →
    ∃ t u, pushAll vs s = .ok () t ∧ popMany vs.length t = .ok vs.reverse u ∧ u.sp = s.sp

/-! ## Reset, load, boundary -/

/-- The state after reset (R48, R330). `boundary`, `loadBoundary`, `status`, `unrecLog` and `out` rest on D35, D20, D36, D21; the
model's own fields (logs 1 and 3) are not spoken of. -/
def Obligations.ResetValues : Prop :=
  (∀ a, State.reset.mem.read a = 0) ∧ s32 State.reset.sp = 4096 ∧ s32 State.reset.pc = 0 ∧ State.reset.status = .running ∧
  State.reset.boundary = 0 ∧ State.reset.loadBoundary = 0 ∧ State.reset.unrecLog = [] ∧ State.reset.out = []

/-- A load before the run places the bytes from address 0 and sets loadBoundary, and a longer buffer is refused (R331; D29; before the run
is the model's mark `started`, log 3). -/
def Obligations.LoadPlacesBytes : Prop :=
  ∀ (bytes : List Byte) (s : State), s.started = false →
    (bytes.length ≤ 4096 → ∃ t, load bytes s = .next t ∧ (∀ a (h : a < bytes.length), t.mem.read a = bytes[a]) ∧
      (∀ a, bytes.length ≤ a → t.mem.read a = s.mem.read a) ∧ t.loadBoundary = bytes.length ∧
      t = { s with mem := t.mem, loadBoundary := bytes.length }) ∧
    (4096 < bytes.length → load bytes s = .refused (.loadTooLong bytes.length))

/-- The first step of a run first sets the boundary to the end of the word that holds the last nonzero byte, 0 when there is none
(R333, R335; D30, D31; in the model by the mark `started`, log 3). -/
def Obligations.RunStartSetsBoundaryPastLastNonzeroWord : Prop :=
  (∀ m : Memory, m.wf = true →
    ((∀ a, a < 4096 → m.read a = 0) → computeBoundary m = 0) ∧
    (∀ a, a < 4096 → m.read a ≠ 0 → (∀ x, a < x → x < 4096 → m.read x = 0) → computeBoundary m = (a / 4 + 1) * 4)) ∧
  (∀ s : State, s.started = false → step s = step { s with boundary := computeBoundary s.mem, started := true })

/-! ## The engine -/

/-- At a fetch, the step is exec of the decoded instruction, and nothing around it (R130). -/
def Obligations.StepRunsDecodedInstruction : Prop :=
  ∀ (s : State) (i : Instr), s.AtFetch → decode (s.mem.wordOrZero (s32 s.pc)) = .ok i → i.wellFormed = true → step s = exec i s

/-- An unrecognized word is no exception; it is logged and skipped, and execution continues (R306, R135). That the entry logged is the
PC is D36 (log 21), and the clamped advance of PC is D27 (log 12). -/
def Obligations.UnrecognizedWordIsSkipped : Prop :=
  ∀ (s : State) (r : DecodeReject), s.AtFetch → decode (s.mem.wordOrZero (s32 s.pc)) = .error r →
    ∃ t, step s = .next t ∧ t.unrecLog = s.unrecLog ++ [s.pc] ∧ s32 t.pc = plusFour (s32 s.pc) ∧ t.status = .running ∧
      t = { s with unrecLog := t.unrecLog, pc := t.pc }

/-- The halt checks before a fetch, StackOverrun first, change the status alone (R132; the order is D19); a status other than Running
is final (R39, R130; D20), in the model by the stop runEnded (log 4). -/
def Obligations.HaltChecksComeFirstAndEndsAreFinal : Prop :=
  ∀ s : State,
    (s.status = .running → s.started = true → s32 s.sp ≤ s.boundary → step s = .next { s with status := .stackOverrun }) ∧
    (s.status = .running → s.started = true → (s.boundary : Int) < s32 s.sp → (s.boundary : Int) ≤ s32 s.pc →
      step s = .next { s with status := .codeOverrun }) ∧
    (s.status ≠ .running → step s = .fault (.runEnded s.status))

/-- R301: what sets each of the three termination reasons that are no fault. Which of the two halts is reported when both conditions
hold is left to HaltChecksComeFirstAndEndsAreFinal. -/
def Obligations.TerminationReasons : Prop :=
  ∀ (s t : State) (b : Int), b = (beginRun s).boundary → step s = .next t →
    (∀ c, t.status = .exited c → decode (s.mem.wordOrZero (s32 s.pc)) = .ok (.exit c)) ∧
    (∀ c, s.AtFetch → decode (s.mem.wordOrZero (s32 s.pc)) = .ok (.exit c) → t.status = .exited c) ∧
    (t.status = .stackOverrun → s32 s.sp ≤ b) ∧ (t.status = .codeOverrun → b ≤ s32 s.pc) ∧
    (s32 s.sp ≤ b → s32 s.pc < b → t.status = .stackOverrun) ∧ (b < s32 s.sp → b ≤ s32 s.pc → t.status = .codeOverrun) ∧
    (s32 s.sp ≤ b → b ≤ s32 s.pc → t.status = .stackOverrun ∨ t.status = .codeOverrun)

/-- R138: after every instruction that neither sets PC itself nor ends the run, the engine advances PC by 4. -/
def Obligations.EngineAdvancesPc : Prop :=
  ∀ (i : Instr) (s t : State), setsPcItself i = false → s.status = .running → exec i s = .next t → t.status = .running →
    s32 t.pc = plusFour (s32 s.pc)

/-- R131: the PC that a step computes with is the address its instruction was fetched from. -/
def Obligations.TargetsAreRelativeToOwnAddress : Prop :=
  ∀ (s t : State) (i : Instr) (o : Int), s.AtFetch → s.Inv → decode (s.mem.wordOrZero (s32 s.pc)) = .ok i → step s = .next t →
    t.status = .running →
    (i = .goto o ∨ i = .call o → s32 t.pc = s32 s.pc + o) ∧
    (i ∈ [.ifeq o, .ifne o, .iflt o, .ifgt o, .ifle o, .ifge o, .ifrsv .rsv6 o, .ifrsv .rsv7 o, .ifez o, .ifnz o, .ifmi o, .ifpl o] →
      s32 t.pc = s32 s.pc + o ∨ s32 t.pc = s32 s.pc + 4) ∧
    (i = .call o → s32 (t.mem.wordAt (s32 t.sp).toNat) = s32 s.pc + 4)

/-- A fault ends the run with the instruction's own PC and leaves PC, the logs and the boundaries as they were (R141, R305; D20). -/
def Obligations.FaultsArePrecise : Prop :=
  ∀ (i : Instr) (s t : State) (k : FaultKind) (pc : Word), s.status = .running → exec i s = .next t → t.status = .faulted k pc →
    pc = s.pc ∧ t.pc = s.pc ∧ t.out = s.out ∧ t.unrecLog = s.unrecLog ∧ t.boundary = s.boundary ∧ t.loadBoundary = s.loadBoundary

/-- Each instruction raises only the faults of its row in R304's table, at the states where R46 puts an execution. -/
def Obligations.FaultsOfEachInstruction : Prop :=
  ∀ (i : Instr) (s t : State) (k : FaultKind) (pc : Word), s.status = .running → 5 ≤ s32 s.sp → s32 s.sp ≤ 4096 →
    0 ≤ s32 s.pc → s32 s.pc ≤ 4091 → exec i s = .next t → t.status = .faulted k pc → k.cls ∈ mayRaise i

/-- The invariant (canonical memory, R38's ranges, R46 while the core runs) is kept by every step. -/
def Obligations.StepKeepsInv : Prop := ∀ s t : State, s.Inv → step s = .next t → t.Inv

/-- The invariant holds after reset. -/
def Obligations.ResetHasInv : Prop := State.reset.Inv

/-- A step only appends to the output and to the unrecognized log, takes at most one line from the input (R41 to R43), and once the
run has started changes neither boundary (R38, R76, R333). That an entry of the log is the PC is D36 (log 21), and D21 and D22 are the
spec's choice of the ports; that the lines at hand are a list, and the fields `inputEnded` and `started`, are the model's own choice
(logs 1 and 3), and so are the clauses about them. -/
def Obligations.LogsGrowAndBoundariesStay : Prop :=
  ∀ s t : State, step s = .next t →
    (∃ es, t.out = s.out ++ es) ∧ (t.unrecLog = s.unrecLog ∨ t.unrecLog = s.unrecLog ++ [s.pc]) ∧
    (t.input = s.input ∨ ∃ line, s.input = line :: t.input) ∧ t.inputEnded = s.inputEnded ∧
    t.loadBoundary = s.loadBoundary ∧ t.started = true ∧ (s.started = true → t.boundary = s.boundary)

/-- Only the word and byte writers of R71 change memory. -/
def Obligations.OnlyWritersChangeMemory : Prop :=
  ∀ (i : Instr) (s t : State), writesMemory i = false → exec i s = .next t → t.mem = s.mem

/-! ## Miscellaneous instructions -/

/-- R137: Exit sets the status and nothing else, and PC is not advanced. -/
def Obligations.ExitSetsStatusOnly : Prop :=
  ∀ (c : Byte) (s : State), exec (.exit c) s = .next { s with status := .exited c }

/-- Nop and Debug change PC alone (R162, R167; their sub-opcodes are D2). -/
def Obligations.NopAndDebugOnlyAdvance : Prop :=
  ∀ s : State, ∃ t, exec .nop s = .next t ∧ exec .debug s = .next t ∧ s32 t.pc = plusFour (s32 s.pc) ∧ t = { s with pc := t.pc }

/-- Swap exchanges one byte at each address and changes no other byte and no register but PC (R161; field positions D6). -/
def Obligations.SwapExchangesTwoBytes : Prop :=
  ∀ (a b : Int) (s : State), 0 ≤ s32 s.sp + a → s32 s.sp + a ≤ 4095 → 0 ≤ s32 s.sp + b → s32 s.sp + b ≤ 4095 →
    ∃ t, exec (.swap a b) s = .next t ∧
      t.mem.read (s32 s.sp + a).toNat = s.mem.read (s32 s.sp + b).toNat ∧
      t.mem.read (s32 s.sp + b).toNat = s.mem.read (s32 s.sp + a).toNat ∧
      (∀ x, x ≠ (s32 s.sp + a).toNat → x ≠ (s32 s.sp + b).toNat → t.mem.read x = s.mem.read x) ∧
      s32 t.pc = plusFour (s32 s.pc) ∧ t = { s with mem := t.mem, pc := t.pc }

/-- Input with a line at hand pushes the line's number and takes that line; at the end of input it pushes 0 (R163, R42; D22, D23; the
lines at hand are the model's field, log 1). Trim removes, at both ends, exactly the bytes 09 to 0D and 20 (R168; D22). The number:
after 0x or 0X hexadecimal in either digit case, after 0b or 0B binary, else decimal, with one optional sign before the digits; a text
that is not accepted gives 0, and so does an integer outside -2^31..2^31-1 (R164; D23). -/
def Obligations.InputPushesParsedLine : Prop :=
  (∀ s : State, 4 ≤ s32 s.sp → s32 s.sp ≤ 4096 →
    (∀ line rest, s.input = line :: rest →
      ∃ t, exec .input s = .next t ∧ Pushed { s with input := rest } t (s32 s.sp - 4) (parseInput (trim line))) ∧
    (s.input = [] → s.inputEnded = true → ∃ t, exec .input s = .next t ∧ Pushed s t (s32 s.sp - 4) 0)) ∧
  (∀ line, Trimmed line (trim line)) ∧
  (∀ text, ReadsAs text (parseInput text))

/-- StInput with a line at hand: an empty trimmed line pushes one zero word, another pushes the packed words of its first maxLen
bytes, the head of the string on top; every other byte is unchanged. At the end of input it pushes one zero word (R42, R165; D7,
D22, D24; the lines at hand are the model's field, log 1). -/
def Obligations.StInputPushesPackedWords : Prop :=
  (∀ (n : Nat) (line : List Byte) (rest : List (List Byte)) (s : State) (ws : List Word), s.input = line :: rest →
    ws = (if trim line = [] then [0] else packHead ((trim line).take n)) →
    4 * (ws.length : Int) ≤ s32 s.sp → s32 s.sp ≤ 4096 →
    ∃ t, exec (.stinput n) s = .next t ∧ s32 t.sp = s32 s.sp - 4 * ws.length ∧
      (∀ k (h : k < ws.length), t.mem.wordAt ((s32 t.sp).toNat + 4 * k) = ws[k]) ∧
      s.mem.SameOutside t.mem (s32 t.sp).toNat (4 * ws.length) ∧ s32 t.pc = plusFour (s32 s.pc) ∧
      t = { s with mem := t.mem, sp := t.sp, pc := t.pc, input := rest }) ∧
  (∀ (n : Nat) (s : State), s.input = [] → s.inputEnded = true → 4 ≤ s32 s.sp → s32 s.sp ≤ 4096 →
    ∃ t, exec (.stinput n) s = .next t ∧ Pushed s t (s32 s.sp - 4) 0)

/-- A StInput with more words than room stores as many as fit and faults at the first address below 0 (R165; D16, D20,
D24; the lines at hand are the model's field, log 1). -/
def Obligations.StInputFaultsBelowZero : Prop :=
  ∀ (n : Nat) (line : List Byte) (rest : List (List Byte)) (s : State) (ws : List Word) (q : Nat), s.input = line :: rest →
    ws = stInputWords n line → 0 ≤ s32 s.sp → s32 s.sp ≤ 4096 → (q : Int) = s32 s.sp / 4 → q < ws.length →
    ∃ t, exec (.stinput n) s = .next t ∧ t.status = .faulted (.addressFault (s32 s.sp - 4 * q - 4)) s.pc ∧
      s32 t.sp = s32 s.sp - 4 * q - 4 ∧
      (∀ k (_ : k < q) (h : k < ws.length), t.mem.wordAt ((s32 s.sp).toNat - 4 * (k + 1)) = storedForm ws[k]) ∧
      s.mem.SameOutside t.mem ((s32 s.sp).toNat - 4 * q) (4 * q) ∧
      t = { s with mem := t.mem, sp := t.sp, input := rest, status := t.status }

/-- Input and StInput wait while the host has supplied nothing and has not closed the input: there is no step (R42, R316; in the
model the stop waitingForInput, log 2). -/
def Obligations.InputWaitsForLine : Prop :=
  ∀ (n : Nat) (s : State), s.input = [] → s.inputEnded = false →
    exec .input s = .fault .waitingForInput ∧ exec (.stinput n) s = .fault .waitingForInput

/-- The layout of the packed words from the head of the string: three characters a word, pads of 1, the flag 1 on every word but
the last (R166; D24). -/
def Obligations.PackingLayout : Prop :=
  ∀ (bs : List Byte), (packHead bs).length = (bs.length + 2) / 3 ∧
    ∀ j (h : j < (packHead bs).length),
      (packHead bs)[j].extractLsb' 0 8 = bs.getD (3 * j) 1 ∧ (packHead bs)[j].extractLsb' 8 8 = bs.getD (3 * j + 1) 1 ∧
      (packHead bs)[j].extractLsb' 16 8 = bs.getD (3 * j + 2) 1 ∧
      (packHead bs)[j].extractLsb' 24 8 = if j + 1 = (packHead bs).length then 0 else 1

/-- A line that StInput packs, StPrint prints back: exactly its characters, if none of them is 0 or 1 (R166, R240; D24). -/
def Obligations.StPrintPrintsWhatStInputPacked : Prop :=
  ∀ (n : Nat) (line : List Byte) (rest : List (List Byte)) (s : State) (bs : List Byte), s.input = line :: rest →
    bs = (trim line).take n → bs ≠ [] → (∀ b ∈ bs, b ≠ 0 ∧ b ≠ 1) → 4 * ((bs.length + 2) / 3 : Nat) ≤ s32 s.sp → s32 s.sp ≤ 4096 →
    ∃ t u, exec (.stinput n) s = .next t ∧ exec (.stprint 0) t = .next u ∧ u.out = s.out ++ bs.map .char

/-! ## Stack instructions -/

/-- Pop raises SP by its offset, at most to 4096, and touches no memory; an empty stack stays empty (R190; unmasked offset D8). -/
def Obligations.PopRaisesSp : Prop :=
  ∀ (n : Nat) (s : State), s.SpInRange →
    ∃ t, exec (.pop n) s = .next t ∧ s32 t.sp = min (s32 s.sp + n) 4096 ∧ s32 t.pc = plusFour (s32 s.pc) ∧
      t = { s with sp := t.sp, pc := t.pc }

/-- Push pushes its immediate, and an immediate in its range is stored unchanged; Dup pushes the word at SP + offset, read with the SP
before the push, 0 above 4092 (R191, R192; D9, D10, D39). -/
def Obligations.PushAndDupPushOneWord : Prop :=
  ∀ (v : Word) (o : Int) (s : State), 4 ≤ s32 s.sp → s32 s.sp ≤ 4096 →
    (∃ t, exec (.push v) s = .next t ∧ Pushed s t (s32 s.sp - 4) v ∧ ((Instr.push v).wellFormed = true → storedForm v = v)) ∧
    (0 ≤ s32 s.sp + o → ∃ t, exec (.dup o) s = .next t ∧ Pushed s t (s32 s.sp - 4) (s.mem.wordOrZero (s32 s.sp + o)))

/-- A push with no room faults with SP lowered; so do Dup, Call and Input (R67, R141; D16, D20; Input's lines are the model's field,
log 1). -/
def Obligations.PushWithoutRoomFaults : Prop :=
  ∀ (v : Word) (o : Int) (s : State), 0 ≤ s32 s.sp → s32 s.sp < 4 →
    exec (.push v) s =
      .next { s with sp := w32 (s32 s.sp - 4), status := .faulted (.addressFault (s32 s.sp - 4)) s.pc } ∧
    (0 ≤ s32 s.sp + o → exec (.dup o) s =
      .next { s with sp := w32 (s32 s.sp - 4), status := .faulted (.addressFault (s32 s.sp - 4)) s.pc }) ∧
    exec (.call o) s =
      .next { s with sp := w32 (s32 s.sp - 4), status := .faulted (.addressFault (s32 s.sp - 4)) s.pc } ∧
    (∀ line rest, s.input = line :: rest → exec .input s =
      .next { s with sp := w32 (s32 s.sp - 4), status := .faulted (.addressFault (s32 s.sp - 4)) s.pc, input := rest })

/-! ## Arithmetic instructions -/

/-- Add, Sub and Mul push the low 32 bits of the exact signed result (R210 to R213; wrapping is D13). -/
def Obligations.AddSubMulPushWrappedResult : Prop :=
  ∀ s : State, s.SpInRange →
    (∃ t, exec .add s = .next t ∧ Pushed s t s.binaryTop (w32 (s32 s.leftOperand + s32 s.rightOperand))) ∧
    (∃ t, exec .sub s = .next t ∧ Pushed s t s.binaryTop (w32 (s32 s.leftOperand - s32 s.rightOperand))) ∧
    (∃ t, exec .mul s = .next t ∧ Pushed s t s.binaryTop (w32 (s32 s.leftOperand * s32 s.rightOperand)))

/-- The parameter OVERFLOW_TRAPS at its other value: a result outside the 32-bit range faults, and any other is as before (D13). -/
def Obligations.OverflowTrapsParameter : Prop :=
  ∀ (l r : Word) (op : Bool → BinFn) (exact : Int),
    (op = addFn ∧ exact = s32 l + s32 r ∨ op = subFn ∧ exact = s32 l - s32 r ∨ op = mulFn ∧ exact = s32 l * s32 r) →
    (exact < -2147483648 ∨ 2147483647 < exact → op true l r = .error .arithmeticOverflow ∧ op false l r = .ok (w32 exact)) ∧
    (-2147483648 ≤ exact → exact ≤ 2147483647 → ∃ v, op true l r = .ok v ∧ op false l r = .ok v ∧ s32 v = exact)

/-- Div and Rem push the quotient rounded toward zero and the remainder with the dividend's sign: the pushed values are the exact
integers (R214, R215; D14). -/
def Obligations.DivRemPushTruncatedResult : Prop :=
  ∀ s : State, s.SpInRange → s32 s.rightOperand ≠ 0 → ¬ (s32 s.leftOperand = -2147483648 ∧ s32 s.rightOperand = -1) →
    (∃ t v, exec .div s = .next t ∧ Pushed s t s.binaryTop v ∧ s32 v = Int.tdiv (s32 s.leftOperand) (s32 s.rightOperand)) ∧
    (∃ t v, exec .rem s = .next t ∧ Pushed s t s.binaryTop v ∧ s32 v = Int.tmod (s32 s.leftOperand) (s32 s.rightOperand))

/-- And, Or and Xor push the bitwise result on 32 bits (R216 to R218; sub-opcodes D3). -/
def Obligations.BitwisePushResult : Prop :=
  ∀ s : State, s.SpInRange →
    (∃ t, exec .and s = .next t ∧ Pushed s t s.binaryTop (s.leftOperand &&& s.rightOperand)) ∧
    (∃ t, exec .or s = .next t ∧ Pushed s t s.binaryTop (s.leftOperand ||| s.rightOperand)) ∧
    (∃ t, exec .xor s = .next t ∧ Pushed s t s.binaryTop (s.leftOperand ^^^ s.rightOperand))

/-- Lsl, Lsr and Asr by 0..31: the bits of the pushed value, one by one, Asr with bit 28 set as well when bit 27 of the left operand
is 1 (R219 to R221; D12, D15). -/
def Obligations.ShiftsPushShiftedBits : Prop :=
  ∀ s : State, s.SpInRange → u32 s.rightOperand < 32 →
    (∃ t v, exec .lsl s = .next t ∧ Pushed s t s.binaryTop v ∧ v = s.leftOperand <<< u32 s.rightOperand) ∧
    (∃ t v, exec .lsr s = .next t ∧ Pushed s t s.binaryTop v ∧ v = s.leftOperand >>> u32 s.rightOperand) ∧
    (∃ t v, exec .asr s = .next t ∧ Pushed s t s.binaryTop v ∧
      v = s.leftOperand.sshiftRight (u32 s.rightOperand) ||| (if s.leftOperand.getLsbD 27 then 0x10000000#32 else 0#32))

/-- Div and Rem fault on a zero divisor and on -2^31 by -1, Lsl, Lsr and Asr on an amount of 32 or more, each with both pops done
and memory unchanged (R210, R214, R215, R219 to R221; D14, D15, D20). -/
def Obligations.ArithmeticFaultsLeavePopsDone : Prop :=
  ∀ (i : Instr) (s t : State) (k : FaultKind), s.SpInRange →
    t = { s with sp := w32 (afterPop (afterPop (s32 s.sp))), status := .faulted k s.pc } →
    (i = .div ∨ i = .rem → s32 s.rightOperand = 0 → k = .divideByZero → exec i s = .next t) ∧
    (i = .div ∨ i = .rem → s32 s.leftOperand = -2147483648 → s32 s.rightOperand = -1 → k = .divideOverflow → exec i s = .next t) ∧
    (i = .lsl ∨ i = .lsr ∨ i = .asr → 32 ≤ u32 s.rightOperand → k = .shiftOutOfRange → exec i s = .next t)

/-- For a word that Push stored, Asr's bit-28 correction changes nothing: the result is the plain arithmetic shift (R221, R67). -/
def Obligations.AsrOfStoredWordIsPlainShift : Prop :=
  ∀ (v : Word) (k : Nat), k < 32 → shiftArith (storedForm v) k = (storedForm v).sshiftRight k

/-- Neg and Not push the wrapped negation and the complement of the top word (R222, R223; D4, D13). -/
def Obligations.NegNotPushResult : Prop :=
  ∀ s : State, s.SpInRange →
    (∃ t, exec .neg s = .next t ∧ Pushed s t s.unaryTop (w32 (-s32 s.rightOperand))) ∧
    (∃ t, exec .not s = .next t ∧ Pushed s t s.unaryTop (~~~s.rightOperand))

/-! ## Output instructions -/

/-- StPrint emits, in order, the bytes from SP + offset up to the first zero byte or address 4095, leaving out bytes of value 1, and
changes nothing but the output and PC (R240; D9, D34). -/
def Obligations.StPrintEmitsString : Prop :=
  ∀ (o : Int) (s : State), 0 ≤ s32 s.sp + o →
    ∃ t, exec (.stprint o) s = .next t ∧ s32 t.pc = plusFour (s32 s.pc) ∧ t = { s with out := t.out, pc := t.pc } ∧
      ∀ bs : List Byte, (∀ k (h : k < bs.length), s32 s.sp + o + k ≤ 4095 ∧ bs[k] ≠ 0 ∧ s.mem.read ((s32 s.sp + o).toNat + k) = bs[k]) →
        (4095 < s32 s.sp + o + bs.length ∨ s.mem.read ((s32 s.sp + o).toNat + bs.length) = 0) →
        t.out = s.out ++ (bs.filter (fun b => b ≠ 1)).map .char

/-- Print emits one value event with the word at SP + offset, 0 above 4092, and changes nothing but the output and PC (R241; D9, D21). -/
def Obligations.PrintEmitsWord : Prop :=
  ∀ (o : Int) (f : PrintFormat) (s : State), 0 ≤ s32 s.sp + o →
    ∃ t, exec (.print o f) s = .next t ∧ t.out = s.out ++ [.printValue f (s.mem.wordOrZero (s32 s.sp + o))] ∧
      s32 t.pc = plusFour (s32 s.pc) ∧ t = { s with out := t.out, pc := t.pc }

/-- Dump emits one line for each of SP, SP+4, ... up to 4095, none on an empty stack, and changes nothing but the output and PC
(R242). -/
def Obligations.DumpListsStack : Prop :=
  ∀ s : State, s.SpInRange →
    ∃ t, exec .dump s = .next t ∧
      t.out = s.out ++ (List.range ((4099 - s32 s.sp) / 4).toNat).map
        (fun k => .dumpLine (s32 s.sp + 4 * k) (s.mem.wordOrZero (s32 s.sp + 4 * k))) ∧
      s32 t.pc = plusFour (s32 s.pc) ∧ t = { s with out := t.out, pc := t.pc }

/-- A negative address faults at the first access, with nothing changed before; Swap checks its first address first (R161, R191,
R240, R241, R307; D16, D37). -/
def Obligations.NegativeAddressFaults : Prop :=
  ∀ (o a b : Int) (f : PrintFormat) (s : State),
    (s32 s.sp + o < 0 → exec (.dup o) s = .next (faultedAt s (.addressFault (s32 s.sp + o))) ∧
      exec (.print o f) s = .next (faultedAt s (.addressFault (s32 s.sp + o))) ∧
      exec (.stprint o) s = .next (faultedAt s (.addressFault (s32 s.sp + o)))) ∧
    (s32 s.sp + a < 0 ∨ 4095 < s32 s.sp + a → exec (.swap a b) s = .next (faultedAt s (.addressFault (s32 s.sp + a)))) ∧
    (0 ≤ s32 s.sp + a → s32 s.sp + a ≤ 4095 → s32 s.sp + b < 0 ∨ 4095 < s32 s.sp + b →
      exec (.swap a b) s = .next (faultedAt s (.addressFault (s32 s.sp + b))))

/-- R100: Print's format is bits 1:0 of its word, 0 decimal, 1 hexadecimal with "0x", 2 binary with "0b", 3 octal with "0o". -/
def Obligations.PrintFormatIsLowTwoBits : Prop :=
  ∀ w : Word, w.toNat / 2 ^ 28 = 0xD → ∃ o f, decode w = .ok (.print o f) ∧
    (w.toNat % 4 = 0 → f = .decimal) ∧ (w.toNat % 4 = 1 → f = .hex ∧ ∀ v, [48, 120] <+: renderEvent (.printValue f v)) ∧
    (w.toNat % 4 = 2 → f = .binary ∧ ∀ v, [48, 98] <+: renderEvent (.printValue f v)) ∧
    (w.toNat % 4 = 3 → f = .octal ∧ ∀ v, [48, 111] <+: renderEvent (.printValue f v))

/-- The decimal text of a printed value reads back, through Input's trim and parser, as the value (R164, R168, R243; D21 to D23). -/
def Obligations.PrintedDecimalReadsBack : Prop :=
  ∀ v : Word, parseInput (trim (renderEvent (.printValue .decimal v))) = v

/-! ## Control transfer -/

/-- Call pushes the address after itself and jumps to PC + offset (R260; D9). -/
def Obligations.CallPushesAndJumps : Prop :=
  ∀ (o : Int) (s : State), 4 ≤ s32 s.sp → s32 s.sp ≤ 4096 → 0 ≤ s32 s.pc → s32 s.pc ≤ 4091 → 0 ≤ s32 s.pc + o →
    (Instr.call o).wellFormed = true →
    ∃ t, exec (.call o) s = .next t ∧ s32 t.sp = s32 s.sp - 4 ∧ s32 (t.mem.wordAt (s32 s.sp - 4).toNat) = s32 s.pc + 4 ∧
      s.mem.SameOutside t.mem (s32 s.sp - 4).toNat 4 ∧ s32 t.pc = s32 s.pc + o ∧ OnlyMemSpPc s t

/-- Return drops offset bytes, pops the target and jumps to it, unclamped; memory is unchanged (R261, R34, R36; D9, D28). -/
def Obligations.ReturnPopsTarget : Prop :=
  ∀ (o : Int) (s : State), s.SpInRange → (Instr.ret o).wellFormed = true → 0 ≤ s32 s.sp + o →
    0 ≤ s32 (s.mem.wordOrZero (min (s32 s.sp + o) 4096)) →
    ∃ t, exec (.ret o) s = .next t ∧ s32 t.sp = afterPop (min (s32 s.sp + o) 4096) ∧
      s32 t.pc = s32 (s.mem.wordOrZero (min (s32 s.sp + o) 4096)) ∧ t = { s with sp := t.sp, pc := t.pc }

/-- Return faults on a negative SP, with that SP stored, and on a negative target, with the pop done (R261, R36; D16, D17, D28). -/
def Obligations.ReturnFaults : Prop :=
  ∀ (o : Int) (s : State), s.SpInRange → (Instr.ret o).wellFormed = true →
    (s32 s.sp + o < 0 → ∃ t, exec (.ret o) s = .next t ∧ t.status = .faulted (.addressFault (s32 s.sp + o)) s.pc ∧
      s32 t.sp = s32 s.sp + o ∧ t = { s with sp := t.sp, status := t.status }) ∧
    (0 ≤ s32 s.sp + o → s32 (s.mem.wordOrZero (min (s32 s.sp + o) 4096)) < 0 → ∃ t, exec (.ret o) s = .next t ∧
      t.status = .faulted (.pcOutOfRange (s32 (s.mem.wordOrZero (min (s32 s.sp + o) 4096)))) s.pc ∧
      s32 t.sp = afterPop (min (s32 s.sp + o) 4096) ∧ t = { s with sp := t.sp, status := t.status })

/-- Goto sets PC to PC + offset, unclamped, and changes nothing else (R262, R34). -/
def Obligations.GotoJumps : Prop :=
  ∀ (o : Int) (s : State), 0 ≤ s32 s.pc → s32 s.pc ≤ 4091 → (Instr.goto o).wellFormed = true → 0 ≤ s32 s.pc + o →
    ∃ t, exec (.goto o) s = .next t ∧ s32 t.pc = s32 s.pc + o ∧ t = { s with pc := t.pc }

/-- Where a conditional branch goes. -/
def branchTo (s : State) (taken : Prop) [Decidable taken] (o : Int) : State :=
  movedTo s (if taken then s32 s.pc + o else plusFour (s32 s.pc))

/-- Each BinaryIf compares the word below the top with the top, signed, without popping: it jumps to PC + offset when its condition
holds and else advances; conditions 6 and 7 never jump (R139, R263 to R270; D5, D12). -/
def Obligations.BinaryIfsCompareTopWords : Prop :=
  ∀ (o : Int) (c : ReservedCond) (s : State) (l r : Int), s.SpInRange →
    l = s32 (s.mem.wordOrZero (s32 s.sp + 4)) → r = s32 (s.mem.wordOrZero (s32 s.sp)) → 0 ≤ s32 s.pc + o →
    exec (.ifeq o) s = .next (branchTo s (l = r) o) ∧ exec (.ifne o) s = .next (branchTo s (l ≠ r) o) ∧
    exec (.iflt o) s = .next (branchTo s (l < r) o) ∧ exec (.ifgt o) s = .next (branchTo s (r < l) o) ∧
    exec (.ifle o) s = .next (branchTo s (l ≤ r) o) ∧ exec (.ifge o) s = .next (branchTo s (r ≤ l) o) ∧
    exec (.ifrsv c o) s = .next (branchTo s False o)

/-- Each UnaryIf tests the top word, signed, without popping: it jumps to PC + offset when its condition holds and else advances
(R140, R271 to R275; D5, D12). -/
def Obligations.UnaryIfsTestTopWord : Prop :=
  ∀ (o : Int) (s : State) (v : Int), s.SpInRange → v = s32 (s.mem.wordOrZero (s32 s.sp)) → 0 ≤ s32 s.pc + o →
    exec (.ifez o) s = .next (branchTo s (v = 0) o) ∧ exec (.ifnz o) s = .next (branchTo s (v ≠ 0) o) ∧
    exec (.ifmi o) s = .next (branchTo s (v < 0) o) ∧ exec (.ifpl o) s = .next (branchTo s (0 < v) o)

/-- What a conditional branch with a negative target does. -/
def branchBelowZero (s : State) (taken : Prop) [Decidable taken] (o : Int) : State :=
  if taken then faultedAt s (.pcOutOfRange (s32 s.pc + o)) else movedTo s (plusFour (s32 s.pc))

/-- A jump to a negative target faults and does not write PC: a goto, a call (its push done), a taken branch; a branch not taken
advances (R35, R260, R262, R263, R271; D17). -/
def Obligations.NegativeTargetFaults : Prop :=
  ∀ (o : Int) (c : ReservedCond) (s : State) (l r : Int), s.SpInRange → s32 s.pc + o < 0 →
    l = s32 (s.mem.wordOrZero (s32 s.sp + 4)) → r = s32 (s.mem.wordOrZero (s32 s.sp)) →
    exec (.goto o) s = .next (faultedAt s (.pcOutOfRange (s32 s.pc + o))) ∧
    (4 ≤ s32 s.sp → ∃ t, exec (.call o) s = .next t ∧ t.status = .faulted (.pcOutOfRange (s32 s.pc + o)) s.pc ∧
      s32 t.sp = s32 s.sp - 4 ∧ t.mem.wordAt (s32 s.sp - 4).toNat = storedForm (w32 (s32 s.pc + 4)) ∧
      s.mem.SameOutside t.mem (s32 s.sp - 4).toNat 4 ∧ t = { s with mem := t.mem, sp := t.sp, status := t.status }) ∧
    exec (.ifeq o) s = .next (branchBelowZero s (l = r) o) ∧ exec (.ifne o) s = .next (branchBelowZero s (l ≠ r) o) ∧
    exec (.iflt o) s = .next (branchBelowZero s (l < r) o) ∧ exec (.ifgt o) s = .next (branchBelowZero s (r < l) o) ∧
    exec (.ifle o) s = .next (branchBelowZero s (l ≤ r) o) ∧ exec (.ifge o) s = .next (branchBelowZero s (r ≤ l) o) ∧
    exec (.ifrsv c o) s = .next (branchBelowZero s False o) ∧
    exec (.ifez o) s = .next (branchBelowZero s (r = 0) o) ∧ exec (.ifnz o) s = .next (branchBelowZero s (r ≠ 0) o) ∧
    exec (.ifmi o) s = .next (branchBelowZero s (r < 0) o) ∧ exec (.ifpl o) s = .next (branchBelowZero s (0 < r) o)

/-- The model's choice for states in which no run executes anything (R46): with a negative SP, which only an ended run holds, every
instruction that reads the top of the stack faults there and changes nothing else. For all but Dump it is what their pseudocode gives
there, the read at a negative address being D16; Dump's fault is log 20, while R242 names no exception. -/
def Obligations.NegativeSpFaults : Prop :=
  ∀ (o : Int) (c : ReservedCond) (s : State), s32 s.sp < 0 →
    ∀ i ∈ [Instr.add, .sub, .mul, .div, .rem, .and, .or, .xor, .lsl, .lsr, .asr, .neg, .not, .dump, .ret 0, .ifeq o, .ifne o, .iflt o,
        .ifgt o, .ifle o, .ifge o, .ifrsv c o, .ifez o, .ifnz o, .ifmi o, .ifpl o],
      exec i s = .next (faultedAt s (.addressFault (s32 s.sp)))
end

