-- ==== Sys2Proof/Laws/State.lean ====
section
/-! SUPPORT. One lemma per field per update, each true by rfl. -/

namespace Sys2Proof.Machine

/-! ## setMem -/

@[simp] theorem State.setMem_mem (s : State) (m : Memory) : (s.setMem m).mem = m := rfl
@[simp] theorem State.setMem_sp (s : State) (m : Memory) : (s.setMem m).sp = s.sp := rfl
@[simp] theorem State.setMem_pc (s : State) (m : Memory) : (s.setMem m).pc = s.pc := rfl
@[simp] theorem State.setMem_boundary (s : State) (m : Memory) : (s.setMem m).boundary = s.boundary := rfl
@[simp] theorem State.setMem_loadBoundary (s : State) (m : Memory) : (s.setMem m).loadBoundary = s.loadBoundary := rfl
@[simp] theorem State.setMem_status (s : State) (m : Memory) : (s.setMem m).status = s.status := rfl
@[simp] theorem State.setMem_unrecLog (s : State) (m : Memory) : (s.setMem m).unrecLog = s.unrecLog := rfl
@[simp] theorem State.setMem_out (s : State) (m : Memory) : (s.setMem m).out = s.out := rfl
@[simp] theorem State.setMem_started (s : State) (m : Memory) : (s.setMem m).started = s.started := rfl
@[simp] theorem State.setMem_input (s : State) (m : Memory) : (s.setMem m).input = s.input := rfl
@[simp] theorem State.setMem_inputEnded (s : State) (m : Memory) : (s.setMem m).inputEnded = s.inputEnded := rfl

/-! ## setSp -/

@[simp] theorem State.setSp_mem (s : State) (v : Int) : (s.setSp v).mem = s.mem := rfl
@[simp] theorem State.setSp_sp (s : State) (v : Int) : (s.setSp v).sp = w32 v := rfl
@[simp] theorem State.setSp_pc (s : State) (v : Int) : (s.setSp v).pc = s.pc := rfl
@[simp] theorem State.setSp_boundary (s : State) (v : Int) : (s.setSp v).boundary = s.boundary := rfl
@[simp] theorem State.setSp_loadBoundary (s : State) (v : Int) : (s.setSp v).loadBoundary = s.loadBoundary := rfl
@[simp] theorem State.setSp_status (s : State) (v : Int) : (s.setSp v).status = s.status := rfl
@[simp] theorem State.setSp_unrecLog (s : State) (v : Int) : (s.setSp v).unrecLog = s.unrecLog := rfl
@[simp] theorem State.setSp_out (s : State) (v : Int) : (s.setSp v).out = s.out := rfl
@[simp] theorem State.setSp_started (s : State) (v : Int) : (s.setSp v).started = s.started := rfl
@[simp] theorem State.setSp_input (s : State) (v : Int) : (s.setSp v).input = s.input := rfl
@[simp] theorem State.setSp_inputEnded (s : State) (v : Int) : (s.setSp v).inputEnded = s.inputEnded := rfl

/-! ## setPc -/

@[simp] theorem State.setPc_mem (s : State) (v : Int) : (s.setPc v).mem = s.mem := rfl
@[simp] theorem State.setPc_sp (s : State) (v : Int) : (s.setPc v).sp = s.sp := rfl
@[simp] theorem State.setPc_pc (s : State) (v : Int) : (s.setPc v).pc = w32 v := rfl
@[simp] theorem State.setPc_boundary (s : State) (v : Int) : (s.setPc v).boundary = s.boundary := rfl
@[simp] theorem State.setPc_loadBoundary (s : State) (v : Int) : (s.setPc v).loadBoundary = s.loadBoundary := rfl
@[simp] theorem State.setPc_status (s : State) (v : Int) : (s.setPc v).status = s.status := rfl
@[simp] theorem State.setPc_unrecLog (s : State) (v : Int) : (s.setPc v).unrecLog = s.unrecLog := rfl
@[simp] theorem State.setPc_out (s : State) (v : Int) : (s.setPc v).out = s.out := rfl
@[simp] theorem State.setPc_started (s : State) (v : Int) : (s.setPc v).started = s.started := rfl
@[simp] theorem State.setPc_input (s : State) (v : Int) : (s.setPc v).input = s.input := rfl
@[simp] theorem State.setPc_inputEnded (s : State) (v : Int) : (s.setPc v).inputEnded = s.inputEnded := rfl

/-! ## setStatus -/

@[simp] theorem State.setStatus_mem (s : State) (st : Status) : (s.setStatus st).mem = s.mem := rfl
@[simp] theorem State.setStatus_sp (s : State) (st : Status) : (s.setStatus st).sp = s.sp := rfl
@[simp] theorem State.setStatus_pc (s : State) (st : Status) : (s.setStatus st).pc = s.pc := rfl
@[simp] theorem State.setStatus_boundary (s : State) (st : Status) : (s.setStatus st).boundary = s.boundary := rfl
@[simp] theorem State.setStatus_loadBoundary (s : State) (st : Status) : (s.setStatus st).loadBoundary = s.loadBoundary := rfl
@[simp] theorem State.setStatus_status (s : State) (st : Status) : (s.setStatus st).status = st := rfl
@[simp] theorem State.setStatus_unrecLog (s : State) (st : Status) : (s.setStatus st).unrecLog = s.unrecLog := rfl
@[simp] theorem State.setStatus_out (s : State) (st : Status) : (s.setStatus st).out = s.out := rfl
@[simp] theorem State.setStatus_started (s : State) (st : Status) : (s.setStatus st).started = s.started := rfl
@[simp] theorem State.setStatus_input (s : State) (st : Status) : (s.setStatus st).input = s.input := rfl
@[simp] theorem State.setStatus_inputEnded (s : State) (st : Status) : (s.setStatus st).inputEnded = s.inputEnded := rfl

/-! ## emitAll -/

@[simp] theorem State.emitAll_mem (s : State) (es : List Event) : (s.emitAll es).mem = s.mem := rfl
@[simp] theorem State.emitAll_sp (s : State) (es : List Event) : (s.emitAll es).sp = s.sp := rfl
@[simp] theorem State.emitAll_pc (s : State) (es : List Event) : (s.emitAll es).pc = s.pc := rfl
@[simp] theorem State.emitAll_boundary (s : State) (es : List Event) : (s.emitAll es).boundary = s.boundary := rfl
@[simp] theorem State.emitAll_loadBoundary (s : State) (es : List Event) : (s.emitAll es).loadBoundary = s.loadBoundary := rfl
@[simp] theorem State.emitAll_status (s : State) (es : List Event) : (s.emitAll es).status = s.status := rfl
@[simp] theorem State.emitAll_unrecLog (s : State) (es : List Event) : (s.emitAll es).unrecLog = s.unrecLog := rfl
@[simp] theorem State.emitAll_out (s : State) (es : List Event) : (s.emitAll es).out = s.out ++ es := rfl
@[simp] theorem State.emitAll_started (s : State) (es : List Event) : (s.emitAll es).started = s.started := rfl
@[simp] theorem State.emitAll_input (s : State) (es : List Event) : (s.emitAll es).input = s.input := rfl
@[simp] theorem State.emitAll_inputEnded (s : State) (es : List Event) : (s.emitAll es).inputEnded = s.inputEnded := rfl

/-! ## logPc -/

@[simp] theorem State.logPc_mem (s : State) : s.logPc.mem = s.mem := rfl
@[simp] theorem State.logPc_sp (s : State) : s.logPc.sp = s.sp := rfl
@[simp] theorem State.logPc_pc (s : State) : s.logPc.pc = s.pc := rfl
@[simp] theorem State.logPc_boundary (s : State) : s.logPc.boundary = s.boundary := rfl
@[simp] theorem State.logPc_loadBoundary (s : State) : s.logPc.loadBoundary = s.loadBoundary := rfl
@[simp] theorem State.logPc_status (s : State) : s.logPc.status = s.status := rfl
@[simp] theorem State.logPc_unrecLog (s : State) : s.logPc.unrecLog = s.unrecLog ++ [s.pc] := rfl
@[simp] theorem State.logPc_out (s : State) : s.logPc.out = s.out := rfl
@[simp] theorem State.logPc_started (s : State) : s.logPc.started = s.started := rfl
@[simp] theorem State.logPc_input (s : State) : s.logPc.input = s.input := rfl
@[simp] theorem State.logPc_inputEnded (s : State) : s.logPc.inputEnded = s.inputEnded := rfl

/-! ## setInput -/

@[simp] theorem State.setInput_mem (s : State) (ls : List (List Byte)) : (s.setInput ls).mem = s.mem := rfl
@[simp] theorem State.setInput_sp (s : State) (ls : List (List Byte)) : (s.setInput ls).sp = s.sp := rfl
@[simp] theorem State.setInput_pc (s : State) (ls : List (List Byte)) : (s.setInput ls).pc = s.pc := rfl
@[simp] theorem State.setInput_boundary (s : State) (ls : List (List Byte)) : (s.setInput ls).boundary = s.boundary := rfl
@[simp] theorem State.setInput_loadBoundary (s : State) (ls : List (List Byte)) : (s.setInput ls).loadBoundary = s.loadBoundary := rfl
@[simp] theorem State.setInput_status (s : State) (ls : List (List Byte)) : (s.setInput ls).status = s.status := rfl
@[simp] theorem State.setInput_unrecLog (s : State) (ls : List (List Byte)) : (s.setInput ls).unrecLog = s.unrecLog := rfl
@[simp] theorem State.setInput_out (s : State) (ls : List (List Byte)) : (s.setInput ls).out = s.out := rfl
@[simp] theorem State.setInput_started (s : State) (ls : List (List Byte)) : (s.setInput ls).started = s.started := rfl
@[simp] theorem State.setInput_input (s : State) (ls : List (List Byte)) : (s.setInput ls).input = ls := rfl
@[simp] theorem State.setInput_inputEnded (s : State) (ls : List (List Byte)) : (s.setInput ls).inputEnded = s.inputEnded := rfl

/-! ## start -/

@[simp] theorem State.start_mem (s : State) (b : Nat) : (s.start b).mem = s.mem := rfl
@[simp] theorem State.start_sp (s : State) (b : Nat) : (s.start b).sp = s.sp := rfl
@[simp] theorem State.start_pc (s : State) (b : Nat) : (s.start b).pc = s.pc := rfl
@[simp] theorem State.start_boundary (s : State) (b : Nat) : (s.start b).boundary = b := rfl
@[simp] theorem State.start_loadBoundary (s : State) (b : Nat) : (s.start b).loadBoundary = s.loadBoundary := rfl
@[simp] theorem State.start_status (s : State) (b : Nat) : (s.start b).status = s.status := rfl
@[simp] theorem State.start_unrecLog (s : State) (b : Nat) : (s.start b).unrecLog = s.unrecLog := rfl
@[simp] theorem State.start_out (s : State) (b : Nat) : (s.start b).out = s.out := rfl
@[simp] theorem State.start_started (s : State) (b : Nat) : (s.start b).started = true := rfl
@[simp] theorem State.start_input (s : State) (b : Nat) : (s.start b).input = s.input := rfl
@[simp] theorem State.start_inputEnded (s : State) (b : Nat) : (s.start b).inputEnded = s.inputEnded := rfl

/-! ## takeFault -/

@[simp] theorem takeFault_mem (k : FaultKind) (s : State) : (takeFault k s).mem = s.mem := rfl
@[simp] theorem takeFault_sp (k : FaultKind) (s : State) : (takeFault k s).sp = s.sp := rfl
@[simp] theorem takeFault_pc (k : FaultKind) (s : State) : (takeFault k s).pc = s.pc := rfl
@[simp] theorem takeFault_boundary (k : FaultKind) (s : State) : (takeFault k s).boundary = s.boundary := rfl
@[simp] theorem takeFault_loadBoundary (k : FaultKind) (s : State) : (takeFault k s).loadBoundary = s.loadBoundary := rfl
@[simp] theorem takeFault_status (k : FaultKind) (s : State) : (takeFault k s).status = .faulted k s.pc := rfl
@[simp] theorem takeFault_unrecLog (k : FaultKind) (s : State) : (takeFault k s).unrecLog = s.unrecLog := rfl
@[simp] theorem takeFault_out (k : FaultKind) (s : State) : (takeFault k s).out = s.out := rfl
@[simp] theorem takeFault_started (k : FaultKind) (s : State) : (takeFault k s).started = s.started := rfl
@[simp] theorem takeFault_input (k : FaultKind) (s : State) : (takeFault k s).input = s.input := rfl
@[simp] theorem takeFault_inputEnded (k : FaultKind) (s : State) : (takeFault k s).inputEnded = s.inputEnded := rfl

/-! ## advancePc -/

@[simp] theorem advancePc_mem (s : State) : (advancePc s).mem = s.mem := rfl
@[simp] theorem advancePc_sp (s : State) : (advancePc s).sp = s.sp := rfl
@[simp] theorem advancePc_pc (s : State) : (advancePc s).pc = w32 (min (s32 s.pc + 4) 4096) := rfl
@[simp] theorem advancePc_boundary (s : State) : (advancePc s).boundary = s.boundary := rfl
@[simp] theorem advancePc_loadBoundary (s : State) : (advancePc s).loadBoundary = s.loadBoundary := rfl
@[simp] theorem advancePc_status (s : State) : (advancePc s).status = s.status := rfl
@[simp] theorem advancePc_unrecLog (s : State) : (advancePc s).unrecLog = s.unrecLog := rfl
@[simp] theorem advancePc_out (s : State) : (advancePc s).out = s.out := rfl
@[simp] theorem advancePc_started (s : State) : (advancePc s).started = s.started := rfl
@[simp] theorem advancePc_input (s : State) : (advancePc s).input = s.input := rfl
@[simp] theorem advancePc_inputEnded (s : State) : (advancePc s).inputEnded = s.inputEnded := rfl

/-! ## jumpSp -/

@[simp] theorem jumpSp_mem (v : Int) (s : State) : (jumpSp v s).mem = s.mem := rfl
@[simp] theorem jumpSp_sp (v : Int) (s : State) : (jumpSp v s).sp = w32 (min v 4096) := rfl
@[simp] theorem jumpSp_pc (v : Int) (s : State) : (jumpSp v s).pc = s.pc := rfl
@[simp] theorem jumpSp_boundary (v : Int) (s : State) : (jumpSp v s).boundary = s.boundary := rfl
@[simp] theorem jumpSp_loadBoundary (v : Int) (s : State) : (jumpSp v s).loadBoundary = s.loadBoundary := rfl
@[simp] theorem jumpSp_status (v : Int) (s : State) : (jumpSp v s).status = s.status := rfl
@[simp] theorem jumpSp_unrecLog (v : Int) (s : State) : (jumpSp v s).unrecLog = s.unrecLog := rfl
@[simp] theorem jumpSp_out (v : Int) (s : State) : (jumpSp v s).out = s.out := rfl
@[simp] theorem jumpSp_started (v : Int) (s : State) : (jumpSp v s).started = s.started := rfl
@[simp] theorem jumpSp_input (v : Int) (s : State) : (jumpSp v s).input = s.input := rfl
@[simp] theorem jumpSp_inputEnded (v : Int) (s : State) : (jumpSp v s).inputEnded = s.inputEnded := rfl

/-! ## skipWord -/

@[simp] theorem skipWord_mem (s : State) : (skipWord s).mem = s.mem := rfl
@[simp] theorem skipWord_sp (s : State) : (skipWord s).sp = s.sp := rfl
@[simp] theorem skipWord_pc (s : State) : (skipWord s).pc = w32 (min (s32 s.pc + 4) 4096) := rfl
@[simp] theorem skipWord_boundary (s : State) : (skipWord s).boundary = s.boundary := rfl
@[simp] theorem skipWord_loadBoundary (s : State) : (skipWord s).loadBoundary = s.loadBoundary := rfl
@[simp] theorem skipWord_status (s : State) : (skipWord s).status = s.status := rfl
@[simp] theorem skipWord_unrecLog (s : State) : (skipWord s).unrecLog = s.unrecLog ++ [s.pc] := rfl
@[simp] theorem skipWord_out (s : State) : (skipWord s).out = s.out := rfl
@[simp] theorem skipWord_started (s : State) : (skipWord s).started = s.started := rfl
@[simp] theorem skipWord_input (s : State) : (skipWord s).input = s.input := rfl
@[simp] theorem skipWord_inputEnded (s : State) : (skipWord s).inputEnded = s.inputEnded := rfl

end Sys2Proof.Machine
end

