-- ==== Sys2Proof/Laws/Memory.lean ====
section
/-! SUPPORT. The laws of memory: read after write, the canonical form, words, the guarded accesses, the boundary scan. -/

namespace Sys2Proof.Machine

/-! ## One byte -/

theorem Memory.read_erase (m : Memory) (a x : Nat) : (m.erase a).read x = if x = a then 0 else m.read x := by
  unfold Memory.erase
  induction m with
  | nil => simp [Memory.read]
  | cons c rest ih =>
    obtain ⟨y, b⟩ := c
    by_cases hy : y = a
    · subst hy
      simp only [List.filter_cons, bne_self_eq_false, Bool.false_eq_true, if_false, ih, Memory.read]
      by_cases hx : x = y
      · simp [hx]
      · simp [hx, Ne.symm hx]
    · simp only [List.filter_cons, bne_iff_ne, ne_eq, hy, not_false_eq_true, if_true, Memory.read, ih]
      by_cases hx : y = x
      · subst hx; simp [hy]
      · simp [hx]

theorem Memory.read_insert (m : Memory) (a : Nat) (b : Byte) (x : Nat) (h : ∀ c ∈ m, c.1 ≠ a) :
    (m.insert a b).read x = if x = a then b else m.read x := by
  induction m with
  | nil => simp [Memory.insert, Memory.read, eq_comm]
  | cons c rest ih =>
    obtain ⟨y, e⟩ := c
    have hy : y ≠ a := h (y, e) (by simp)
    have ih := ih fun c hc => h c (by simp [hc])
    by_cases hlt : a < y
    · simp only [Memory.insert, hlt, if_true, Memory.read]
      by_cases hx : x = a
      · simp [hx]
      · simp [hx, Ne.symm hx]
    · simp only [Memory.insert, hlt, if_false, Memory.read, ih]
      by_cases hx : y = x
      · subst hx; simp [hy]
      · simp [hx]

theorem Memory.ne_of_mem_erase {m : Memory} {a : Nat} {c : Host.Cell} (h : c ∈ m.erase a) : c.1 ≠ a := by
  simp only [Memory.erase, List.mem_filter, bne_iff_ne] at h
  exact h.2

/-- The byte written is the byte read there, and every other address reads as before. -/
@[simp] theorem Memory.read_write (m : Memory) (a : Nat) (b : Byte) (x : Nat) :
    (m.write a b).read x = if x = a then b else m.read x := by
  unfold Memory.write
  split
  · next h => rw [Memory.read_erase, h]
  · rw [Memory.read_insert _ _ _ _ fun c => Memory.ne_of_mem_erase, Memory.read_erase]
    split <;> rfl

/-! ## The canonical form -/

theorem Memory.wfFrom_mono {m : Memory} {lo lo' : Nat} (h : lo' ≤ lo) (hm : m.wfFrom lo = true) : m.wfFrom lo' = true := by
  cases m with
  | nil => rfl
  | cons c rest =>
    obtain ⟨a, b⟩ := c
    simp only [Memory.wfFrom, Bool.and_eq_true, decide_eq_true_eq] at hm ⊢
    exact ⟨⟨⟨by omega, hm.1.1.2⟩, hm.1.2⟩, hm.2⟩

theorem Memory.wfFrom_erase {m : Memory} {lo : Nat} (a : Nat) (hm : m.wfFrom lo = true) : (m.erase a).wfFrom lo = true := by
  induction m generalizing lo with
  | nil => rfl
  | cons c rest ih =>
    obtain ⟨x, b⟩ := c
    have hm' := hm
    simp only [Memory.wfFrom, Bool.and_eq_true, decide_eq_true_eq] at hm'
    by_cases hx : x = a
    · have : Memory.erase ((x, b) :: rest) a = Memory.erase rest a := by simp [Memory.erase, hx]
      rw [this]
      exact ih (Memory.wfFrom_mono (by omega) hm'.2)
    · have : Memory.erase ((x, b) :: rest) a = (x, b) :: Memory.erase rest a := by simp [Memory.erase, hx]
      rw [this]
      simp only [Memory.wfFrom, Bool.and_eq_true, decide_eq_true_eq]
      exact ⟨hm'.1, ih hm'.2⟩

theorem Memory.wfFrom_insert {m : Memory} {lo a : Nat} {b : Byte} (hb : b ≠ 0) (hlo : lo ≤ a) (ha : a < 4096)
    (hne : ∀ c ∈ m, c.1 ≠ a) (hm : m.wfFrom lo = true) : (m.insert a b).wfFrom lo = true := by
  induction m generalizing lo with
  | nil => simpa [Memory.insert, Memory.wfFrom, hlo, ha] using hb
  | cons c rest ih =>
    obtain ⟨x, e⟩ := c
    have hx : x ≠ a := hne (x, e) (by simp)
    simp only [Memory.wfFrom, Bool.and_eq_true, decide_eq_true_eq, bne_iff_ne] at hm
    by_cases hlt : a < x
    · simp only [Memory.insert, hlt, if_true, Memory.wfFrom, Bool.and_eq_true, decide_eq_true_eq, bne_iff_ne]
      exact ⟨⟨⟨hlo, ha⟩, hb⟩, ⟨⟨by omega, hm.1.1.2⟩, hm.1.2⟩, hm.2⟩
    · simp only [Memory.insert, hlt, if_false, Memory.wfFrom, Bool.and_eq_true, decide_eq_true_eq, bne_iff_ne]
      exact ⟨hm.1, ih (by omega) (fun c hc => hne c (by simp [hc])) hm.2⟩

/-- A write inside the memory keeps the canonical form. -/
theorem Memory.wf_write {m : Memory} {a : Nat} (b : Byte) (ha : a < 4096) (hm : m.wf = true) : (m.write a b).wf = true := by
  unfold Memory.write
  split
  · exact Memory.wfFrom_erase a hm
  · next hb => exact Memory.wfFrom_insert hb (Nat.zero_le a) ha (fun c => Memory.ne_of_mem_erase) (Memory.wfFrom_erase a hm)

/-- A word write inside the memory keeps the canonical form. -/
theorem Memory.wf_writeWord {m : Memory} {a : Nat} (v : Word) (ha : a ≤ 4092) (hm : m.wf = true) : (m.writeWord a v).wf = true :=
  Memory.wf_write _ (by omega) (Memory.wf_write _ (by omega) (Memory.wf_write _ (by omega) (Memory.wf_write _ (by omega) hm)))

/-- Loading bytes that fit keeps the canonical form. -/
theorem Memory.wf_copyFrom {m : Memory} {a : Nat} {bs : List Byte} (ha : a + bs.length ≤ 4096) (hm : m.wf = true) :
    (m.copyFrom a bs).wf = true := by
  induction bs generalizing m a with
  | nil => exact hm
  | cons b rest ih =>
    simp only [List.length_cons] at ha
    exact ih (by omega) (Memory.wf_write b (by omega) hm)

/-- The memory after reset has the canonical form. -/
theorem reset_mem_wf : State.reset.mem.wf = true := rfl

/-! ## Words -/

theorem Memory.read_writeWord (m : Memory) (a : Nat) (v : Word) (x : Nat) :
    (m.writeWord a v).read x =
      if x = a then byteOf v 0 else if x = a + 1 then byteOf v 1 else if x = a + 2 then byteOf v 2
      else if x = a + 3 then byteOf v 3 else m.read x := by
  simp only [Memory.writeWord, Memory.read_write]
  by_cases h3 : x = a + 3
  · simp [h3]
  · by_cases h2 : x = a + 2
    · simp [h2]
    · by_cases h1 : x = a + 1
      · simp [h1]
      · simp [h1, h2, h3]

theorem wordOfBytes_byteOf (v : Word) : wordOfBytes (byteOf v 0) (byteOf v 1) (byteOf v 2) (byteOf v 3) = v := by
  apply BitVec.eq_of_toNat_eq
  have := v.isLt
  simp only [wordOfBytes, byteOf, BitVec.toNat_ofNat]
  omega

/-- The word written is the word read there. -/
@[simp] theorem Memory.wordAt_writeWord (m : Memory) (a : Nat) (v : Word) : (m.writeWord a v).wordAt a = v := by
  have h (k l : Nat) (hk : k ≠ l) : ¬ a + k = a + l := by omega
  simp only [Memory.wordAt, Memory.read_writeWord]
  simpa using wordOfBytes_byteOf v

/-- Bytes outside the word written read as before. -/
theorem Memory.sameOutside_writeWord (m : Memory) (a : Nat) (v : Word) : m.SameOutside (m.writeWord a v) a 4 := by
  intro x hx
  rw [Memory.read_writeWord]
  repeat rw [if_neg (by omega)]

/-- A word read in bytes that did not change reads as before. -/
theorem Memory.wordAt_congr {m m' : Memory} {a : Nat} (h : ∀ x, a ≤ x → x < a + 4 → m'.read x = m.read x) :
    m'.wordAt a = m.wordAt a := by
  simp only [Memory.wordAt]
  rw [h a (by omega) (by omega), h (a + 1) (by omega) (by omega), h (a + 2) (by omega) (by omega),
    h (a + 3) (by omega) (by omega)]

/-! ## The guarded accesses: all that each can do -/

theorem peek_cases (m : Memory) (addr : Int) :
    (addr < 0 ∧ peek m addr = .error (.addressFault addr)) ∨ (0 ≤ addr ∧ peek m addr = .ok (m.wordOrZero addr)) := by
  unfold peek Memory.wordOrZero
  by_cases h : addr < 0
  · exact .inl ⟨h, by simp [h]⟩
  · refine .inr ⟨by omega, ?_⟩
    rw [if_neg h]
    split <;> rfl

theorem peek_of_neg {m : Memory} {addr : Int} (h : addr < 0) : peek m addr = .error (.addressFault addr) := by
  simp [peek, h]

theorem peek_of_nonneg {m : Memory} {addr : Int} (h : 0 ≤ addr) : peek m addr = .ok (m.wordOrZero addr) := by
  rcases peek_cases m addr with ⟨hn, _⟩ | ⟨_, he⟩
  · omega
  · exact he

theorem poke_cases (m : Memory) (addr : Int) (v : Word) :
    ((addr < 0 ∨ 4092 < addr) ∧ poke m addr v = .error (.addressFault addr)) ∨
    (0 ≤ addr ∧ addr ≤ 4092 ∧ poke m addr v = .ok (m.writeWord addr.toNat v)) := by
  by_cases h : addr < 0 ∨ 4092 < addr
  · exact .inl ⟨h, by rw [poke, if_pos h]⟩
  · exact .inr ⟨by omega, by omega, by rw [poke, if_neg h]⟩

theorem peekByte_cases (m : Memory) (addr : Int) :
    ((addr < 0 ∨ 4095 < addr) ∧ peekByte m addr = .error (.addressFault addr)) ∨
    (0 ≤ addr ∧ addr ≤ 4095 ∧ peekByte m addr = .ok (m.read addr.toNat)) := by
  by_cases h : addr < 0 ∨ 4095 < addr
  · exact .inl ⟨h, by rw [peekByte, if_pos h]⟩
  · exact .inr ⟨by omega, by omega, by rw [peekByte, if_neg h]⟩

theorem pokeByte_cases (m : Memory) (addr : Int) (b : Byte) :
    ((addr < 0 ∨ 4095 < addr) ∧ pokeByte m addr b = .error (.addressFault addr)) ∨
    (0 ≤ addr ∧ addr ≤ 4095 ∧ pokeByte m addr b = .ok (m.write addr.toNat b)) := by
  by_cases h : addr < 0 ∨ 4095 < addr
  · exact .inl ⟨h, by rw [pokeByte, if_pos h]⟩
  · exact .inr ⟨by omega, by omega, by rw [pokeByte, if_neg h]⟩

/-- The bytes a load places, and those it leaves. -/
theorem Memory.read_copyFrom (m : Memory) (a : Nat) (bs : List Byte) (x : Nat) :
    (m.copyFrom a bs).read x = if a ≤ x ∧ x < a + bs.length then bs.getD (x - a) 0 else m.read x := by
  induction bs generalizing m a with
  | nil => simp [Memory.copyFrom]
  | cons b rest ih =>
    simp only [Memory.copyFrom, ih, Memory.read_write, List.length_cons]
    by_cases h : a + 1 ≤ x ∧ x < a + 1 + rest.length
    · rw [if_pos h, if_pos (by omega)]
      obtain ⟨k, rfl⟩ : ∃ k, x = a + 1 + k := ⟨x - (a + 1), by omega⟩
      rw [show a + 1 + k - a = k + 1 by omega, show a + 1 + k - (a + 1) = k by omega]
      simp
    · rw [if_neg h]
      by_cases hx : x = a
      · subst hx; simp
      · rw [if_neg hx, if_neg (by omega)]

/-! ## The boundary scan -/

theorem Memory.read_of_lt_wfFrom {m : Memory} {lo x : Nat} (hm : m.wfFrom lo = true) (hx : x < lo) : m.read x = 0 := by
  induction m generalizing lo with
  | nil => rfl
  | cons c rest ih =>
    obtain ⟨a, b⟩ := c
    simp only [Memory.wfFrom, Bool.and_eq_true, decide_eq_true_eq] at hm
    simp only [Memory.read]
    rw [if_neg (by omega)]
    exact ih hm.2 (by omega)

theorem Memory.top_le_of_wfFrom {m : Memory} {lo : Nat} (hm : m.wfFrom lo = true) : m.top ≤ 4096 := by
  induction m generalizing lo with
  | nil => simp [Memory.top]
  | cons c rest ih =>
    obtain ⟨a, b⟩ := c
    simp only [Memory.wfFrom, Bool.and_eq_true, decide_eq_true_eq] at hm
    have := ih hm.2
    have ha : a < 4096 := hm.1.1.2
    simp only [Memory.top]
    split <;> omega

/-- The boundary of a canonical memory lies in 0..4096 and is a multiple of 4 (R38). -/
theorem computeBoundary_le {m : Memory} (hm : m.wf = true) : computeBoundary m ≤ 4096 := by
  have := Memory.top_le_of_wfFrom hm
  unfold computeBoundary
  omega

theorem computeBoundary_mod (m : Memory) : computeBoundary m % 4 = 0 := by unfold computeBoundary; omega

end Sys2Proof.Machine
end

