-- ==== Sys2Proof/Laws/Ops.lean ====
section
/-! SUPPORT. One lemma per shared operation: all that it can do. -/

namespace Sys2Proof.Machine

/-! ## Words as integers -/

theorem s32_w32 {n : Int} (h1 : -2147483648 ≤ n) (h2 : n ≤ 2147483647) : s32 (w32 n) = n := by
  simp only [s32, w32, BitVec.toInt_ofInt]
  rw [Int.bmod_eq_of_le] <;> omega

theorem s32_bounds (w : Word) : -2147483648 ≤ s32 w ∧ s32 w ≤ 2147483647 := by
  have h1 := BitVec.le_toInt w
  have h2 := BitVec.toInt_lt (w := 32) (x := w)
  constructor <;> simp only [s32] <;> norm_num at h1 h2 ⊢ <;> omega

/-- A word is the word of its signed integer. -/
@[simp] theorem w32_s32 (w : Word) : w32 (s32 w) = w := BitVec.ofInt_toInt

/-- The clamped increment of any PC is exact (R37). -/
@[simp] theorem s32_w32_plusFour (pc : Word) : s32 (w32 (min (s32 pc + 4) 4096)) = plusFour (s32 pc) := by
  have := s32_bounds pc
  exact s32_w32 (by omega) (by omega)

theorem advancePc_eq (s : State) : advancePc s = movedTo s (plusFour (s32 s.pc)) := rfl

theorem takeFault_eq (k : FaultKind) (s : State) : takeFault k s = faultedAt s k := rfl

theorem fillSign_eq_storedForm (v : Word) : fillSign pushSextMode v = storedForm v := rfl

/-! ## Effects -/

@[simp] theorem Eff.bind_ok {α β : Type} (a : α) (s : State) (f : α → State → Eff β) : (Eff.ok a s).bind f = f a s := rfl

@[simp] theorem Eff.bind_raise {α β : Type} (k : FaultKind) (s : State) (f : α → State → Eff β) :
    (Eff.raise k s).bind f = .raise k s := rfl

@[simp] theorem Eff.lift_ok {α : Type} (s : State) (a : α) : Eff.lift s (.ok a) = .ok a s := rfl

@[simp] theorem Eff.lift_error {α : Type} (s : State) (k : FaultKind) : Eff.lift s (.error k : Except FaultKind α) = .raise k s := rfl

@[simp] theorem Eff.thenAdvance_ok (u : Unit) (s : State) : (Eff.ok u s).thenAdvance = .next (advancePc s) := rfl

@[simp] theorem Eff.thenAdvance_raise (k : FaultKind) (s : State) : (Eff.raise k s).thenAdvance = .next (takeFault k s) := rfl

@[simp] theorem Eff.thenStay_ok (u : Unit) (s : State) : (Eff.ok u s).thenStay = .next s := rfl

@[simp] theorem Eff.thenStay_raise (k : FaultKind) (s : State) : (Eff.raise k s).thenStay = .next (takeFault k s) := rfl

/-- An effect followed by the engine's advance always answers a next state: the advanced one, or the fault taken. -/
theorem Eff.thenAdvance_cases {e : Eff Unit} {t : State} (h : e.thenAdvance = .next t) :
    (∃ s, e = .ok () s ∧ t = advancePc s) ∨ (∃ k s, e = .raise k s ∧ t = takeFault k s) := by
  cases e with
  | ok u s => exact .inl ⟨s, rfl, by simpa using h.symm⟩
  | raise k s => exact .inr ⟨k, s, rfl, by simpa using h.symm⟩

theorem Eff.thenStay_cases {e : Eff Unit} {t : State} (h : e.thenStay = .next t) :
    e = .ok () t ∨ (∃ k s, e = .raise k s ∧ t = takeFault k s) := by
  cases e with
  | ok u s => exact .inl (by simpa using h)
  | raise k s => exact .inr ⟨k, s, rfl, by simpa using h.symm⟩

/-! ## Registers and stack -/

theorem jumpPc_cases (target : Int) (s : State) :
    (target < 0 ∧ jumpPc target s = .raise (.pcOutOfRange target) s) ∨ (0 ≤ target ∧ jumpPc target s = .ok () (s.setPc target)) := by
  by_cases h : target < 0
  · exact .inl ⟨h, by simp [jumpPc, h]⟩
  · exact .inr ⟨by omega, by simp [jumpPc, h]⟩

/-- The state after a push that stores (R67). -/
def afterPush (v : Word) (s : State) : State :=
  (s.setSp (s32 s.sp - 4)).setMem (s.mem.writeWord (s32 s.sp - 4).toNat (storedForm v))

/-- Push: SP is 4 lower in either case; the word is stored unless the new SP is negative (R67). -/
theorem push_cases (v : Word) {s : State} (hlo : -2147483644 ≤ s32 s.sp) (hhi : s32 s.sp ≤ 4096) :
    (s32 s.sp < 4 ∧ push v s = .raise (.addressFault (s32 s.sp - 4)) (s.setSp (s32 s.sp - 4))) ∨
    (4 ≤ s32 s.sp ∧ push v s = .ok () (afterPush v s)) := by
  have hsp : s32 (w32 (s32 s.sp - 4)) = s32 s.sp - 4 := s32_w32 (by omega) (by omega)
  unfold push
  simp only [State.setSp_mem, State.setSp_sp, hsp, fillSign_eq_storedForm]
  rcases poke_cases s.mem (s32 s.sp - 4) (storedForm v) with ⟨h, he⟩ | ⟨h1, _, he⟩
  · exact .inl ⟨by omega, by rw [he]; rfl⟩
  · exact .inr ⟨by omega, by rw [he]; rfl⟩

theorem push_of_range (v : Word) {s : State} (h4 : 4 ≤ s32 s.sp) (hhi : s32 s.sp ≤ 4096) : push v s = .ok () (afterPush v s) := by
  rcases push_cases v (by omega) hhi with ⟨h, _⟩ | ⟨_, he⟩
  · omega
  · exact he

@[simp] theorem afterPush_boundary (v : Word) (s : State) : (afterPush v s).boundary = s.boundary := rfl
@[simp] theorem afterPush_loadBoundary (v : Word) (s : State) : (afterPush v s).loadBoundary = s.loadBoundary := rfl
@[simp] theorem afterPush_status (v : Word) (s : State) : (afterPush v s).status = s.status := rfl
@[simp] theorem afterPush_unrecLog (v : Word) (s : State) : (afterPush v s).unrecLog = s.unrecLog := rfl
@[simp] theorem afterPush_out (v : Word) (s : State) : (afterPush v s).out = s.out := rfl
@[simp] theorem afterPush_started (v : Word) (s : State) : (afterPush v s).started = s.started := rfl
@[simp] theorem afterPush_input (v : Word) (s : State) : (afterPush v s).input = s.input := rfl
@[simp] theorem afterPush_inputEnded (v : Word) (s : State) : (afterPush v s).inputEnded = s.inputEnded := rfl
@[simp] theorem afterPush_pc (v : Word) (s : State) : (afterPush v s).pc = s.pc := rfl

@[simp] theorem afterPush_mem (v : Word) (s : State) :
    (afterPush v s).mem = s.mem.writeWord (s32 s.sp - 4).toNat (storedForm v) := rfl

theorem afterPush_sp (v : Word) {s : State} (hlo : -2147483644 ≤ s32 s.sp) : s32 (afterPush v s).sp = s32 s.sp - 4 := by
  have := s32_bounds s.sp
  exact s32_w32 (by omega) (by omega)

/-- Pop: a fault below 0, else the guarded word and the clamped SP (R68). -/
theorem pop_cases (s : State) :
    (s32 s.sp < 0 ∧ pop s = .raise (.addressFault (s32 s.sp)) s) ∨
    (0 ≤ s32 s.sp ∧ pop s = .ok (s.mem.wordOrZero (s32 s.sp)) (s.setSp (afterPop (s32 s.sp)))) := by
  unfold pop
  rcases peek_cases s.mem (s32 s.sp) with ⟨h, he⟩ | ⟨h, he⟩
  · exact .inl ⟨h, by rw [he]; rfl⟩
  · exact .inr ⟨h, by rw [he]; rfl⟩

theorem pop_of_nonneg {s : State} (h : 0 ≤ s32 s.sp) :
    pop s = .ok (s.mem.wordOrZero (s32 s.sp)) (s.setSp (afterPop (s32 s.sp))) := by
  rcases pop_cases s with ⟨hn, _⟩ | ⟨_, he⟩
  · omega
  · exact he

/-- SP after a pop, as an integer. -/
theorem s32_afterPop {s : State} (h : 0 ≤ s32 s.sp) : s32 (w32 (afterPop (s32 s.sp))) = afterPop (s32 s.sp) :=
  s32_w32 (by unfold afterPop; omega) (by unfold afterPop; omega)

/-- The state that the two pops of a binary instruction leave (R210). -/
def afterTwoPops (s : State) : State := s.setSp (afterPop (afterPop (s32 s.sp)))

/-- BinOp with SP not negative: the two pops, then the function's fault or the push of its result (R210). -/
theorem binOp_of_nonneg (f : BinFn) {s : State} (h : 0 ≤ s32 s.sp) :
    binOp f s = (Eff.lift (afterTwoPops s) (f s.leftOperand s.rightOperand)).bind push := by
  have hsp := s32_afterPop h
  have h2 : 0 ≤ s32 (s.setSp (afterPop (s32 s.sp))).sp := by
    rw [State.setSp_sp, hsp]; unfold afterPop; omega
  unfold binOp
  rw [pop_of_nonneg h, Eff.bind_ok, pop_of_nonneg h2, Eff.bind_ok]
  simp only [State.setSp_sp, hsp, State.setSp_mem]
  rfl

theorem binOp_of_neg (f : BinFn) {s : State} (h : s32 s.sp < 0) : binOp f s = .raise (.addressFault (s32 s.sp)) s := by
  rcases pop_cases s with ⟨_, he⟩ | ⟨hn, _⟩
  · unfold binOp; rw [he]; rfl
  · omega

/-- SP after two pops, as an integer. -/
theorem s32_afterTwoPops {s : State} (h : 0 ≤ s32 s.sp) : s32 (afterTwoPops s).sp = afterPop (afterPop (s32 s.sp)) := by
  have := s32_bounds s.sp
  exact s32_w32 (by unfold afterPop; omega) (by unfold afterPop; omega)

/-- A binary instruction whose function gives a result stores it as `Pushed` says (R210). -/
theorem binOp_pushed {f : BinFn} {r : Word} {s : State} (h : s.SpInRange) (hf : f s.leftOperand s.rightOperand = .ok r) :
    ∃ t, (binOp f s).thenAdvance = .next t ∧ Pushed s t s.binaryTop r := by
  obtain ⟨h0, h1⟩ := h
  have hsp := s32_afterTwoPops h0
  have hb : 4 ≤ s32 (afterTwoPops s).sp ∧ s32 (afterTwoPops s).sp ≤ 4096 := by rw [hsp]; unfold afterPop; omega
  refine ⟨advancePc (afterPush r (afterTwoPops s)), ?_, ?_⟩
  · rw [binOp_of_nonneg f h0, hf, Eff.lift_ok, Eff.bind_ok, push_of_range r hb.1 hb.2]
    rfl
  · have htop : (s32 (afterTwoPops s).sp - 4).toNat = s.binaryTop.toNat := by rw [hsp]; rfl
    constructor
    · rw [advancePc_sp, afterPush_sp r (by omega), hsp]; rfl
    · rw [advancePc_mem, afterPush_mem, htop]; exact Memory.wordAt_writeWord _ _ _
    · rw [advancePc_mem, afterPush_mem, htop]; exact Memory.sameOutside_writeWord _ _ _
    · rw [advancePc_pc]; exact s32_w32_plusFour s.pc
    · rfl

/-- A binary instruction whose function raises a fault leaves both pops done (R210). -/
theorem binOp_faults {f : BinFn} {k : FaultKind} {s : State} (h : 0 ≤ s32 s.sp) (hf : f s.leftOperand s.rightOperand = .error k) :
    (binOp f s).thenAdvance = .next (takeFault k (afterTwoPops s)) := by
  rw [binOp_of_nonneg f h, hf]; rfl

/-- A unary instruction whose function gives a result stores it as `Pushed` says (R222, R223). -/
theorem unOp_pushed {f : Word → Except FaultKind Word} {r : Word} {s : State} (h : s.SpInRange) (hf : f s.rightOperand = .ok r) :
    ∃ t, (unOp f s).thenAdvance = .next t ∧ Pushed s t s.unaryTop r := by
  obtain ⟨h0, h1⟩ := h
  have hsp : s32 (s.setSp (afterPop (s32 s.sp))).sp = afterPop (s32 s.sp) := s32_afterPop h0
  have hb : 4 ≤ s32 (s.setSp (afterPop (s32 s.sp))).sp ∧ s32 (s.setSp (afterPop (s32 s.sp))).sp ≤ 4096 := by
    rw [hsp]; unfold afterPop; omega
  refine ⟨advancePc (afterPush r (s.setSp (afterPop (s32 s.sp)))), ?_, ?_⟩
  · unfold unOp
    rw [pop_of_nonneg h0, Eff.bind_ok, show f (s.mem.wordOrZero (s32 s.sp)) = .ok r from hf, Eff.lift_ok, Eff.bind_ok,
      push_of_range r hb.1 hb.2]
    rfl
  · have htop : (s32 (s.setSp (afterPop (s32 s.sp))).sp - 4).toNat = s.unaryTop.toNat := by rw [hsp]; rfl
    constructor
    · rw [advancePc_sp, afterPush_sp r (by omega), hsp]; rfl
    · rw [advancePc_mem, afterPush_mem, htop]; exact Memory.wordAt_writeWord _ _ _
    · rw [advancePc_mem, afterPush_mem, htop]; exact Memory.sameOutside_writeWord _ _ _
    · rw [advancePc_pc]; exact s32_w32_plusFour s.pc
    · rfl

/-- A push that stores, as `Pushed` says (R67, R138). -/
theorem push_pushed (v : Word) {s : State} (h4 : 4 ≤ s32 s.sp) (hhi : s32 s.sp ≤ 4096) :
    ∃ t, (push v s).thenAdvance = .next t ∧ Pushed s t (s32 s.sp - 4) v := by
  refine ⟨advancePc (afterPush v s), by rw [push_of_range v h4 hhi]; rfl, ?_⟩
  constructor
  · rw [advancePc_sp, afterPush_sp v (by omega)]
  · rw [advancePc_mem, afterPush_mem]; exact Memory.wordAt_writeWord _ _ _
  · rw [advancePc_mem, afterPush_mem]; exact Memory.sameOutside_writeWord _ _ _
  · rw [advancePc_pc]; exact s32_w32_plusFour s.pc
  · rfl

/-! ## Branches -/

/-- A branch jumps when taken, faults on a negative target, and else advances (R263, R271). -/
theorem branch_cases (taken : Bool) (o : Int) (s : State) :
    (taken = false ∧ branch taken o s = .ok () (advancePc s)) ∨
    (taken = true ∧ 0 ≤ pcRel s o ∧ branch taken o s = .ok () (s.setPc (pcRel s o))) ∨
    (taken = true ∧ pcRel s o < 0 ∧ branch taken o s = .raise (.pcOutOfRange (pcRel s o)) s) := by
  cases taken with
  | false => exact .inl ⟨rfl, rfl⟩
  | true =>
    rcases jumpPc_cases (pcRel s o) s with ⟨h, he⟩ | ⟨h, he⟩
    · exact .inr (.inr ⟨rfl, h, by simpa [branch] using he⟩)
    · exact .inr (.inl ⟨rfl, h, by simpa [branch] using he⟩)

/-- BinaryIf with SP not negative reads two words and branches (R263). -/
theorem binaryIf_of_nonneg (taken : Int → Int → Bool) (o : Int) {s : State} (h : 0 ≤ s32 s.sp) :
    binaryIf taken o s =
      (branch (taken (s32 (s.mem.wordOrZero (s32 s.sp + 4))) (s32 (s.mem.wordOrZero (s32 s.sp)))) o s).thenStay := by
  have h4 : 0 ≤ spRel s 4 := by unfold spRel; omega
  unfold binaryIf topWord secondWord
  rw [peek_of_nonneg h, Eff.lift_ok, Eff.bind_ok, peek_of_nonneg h4]
  rfl

/-- UnaryIf with SP not negative reads one word and branches (R271). -/
theorem unaryIf_of_nonneg (taken : Int → Bool) (o : Int) {s : State} (h : 0 ≤ s32 s.sp) :
    unaryIf taken o s = (branch (taken (s32 (s.mem.wordOrZero (s32 s.sp)))) o s).thenStay := by
  unfold unaryIf topWord
  rw [peek_of_nonneg h]
  rfl

/-! ## The input port -/

/-- readLine takes the oldest line, or reads the end of input as the empty line, or waits (R42). -/
theorem readLine_cases (s : State) :
    (∃ line rest, s.input = line :: rest ∧ readLine eofAsEmpty s = some (line, s.setInput rest)) ∨
    (s.input = [] ∧ s.inputEnded = true ∧ readLine eofAsEmpty s = some ([], s)) ∨
    (s.input = [] ∧ s.inputEnded = false ∧ readLine eofAsEmpty s = none) := by
  unfold readLine eofAsEmpty
  cases hi : s.input with
  | cons line rest => exact .inl ⟨line, rest, rfl, rfl⟩
  | nil =>
    cases he : s.inputEnded with
    | true => exact .inr (.inl ⟨rfl, rfl, by simp⟩)
    | false => exact .inr (.inr ⟨rfl, rfl, by simp⟩)

/-! ## Swap -/

/-- The exchange of two bytes inside the memory, or the fault of the first address outside it (R161). -/
theorem swapBytes_cases (a b : Int) (s : State) :
    ((a < 0 ∨ 4095 < a) ∧ swapBytes a b s = .raise (.addressFault a) s) ∨
    ((0 ≤ a ∧ a ≤ 4095) ∧ (b < 0 ∨ 4095 < b) ∧ swapBytes a b s = .raise (.addressFault b) s) ∨
    ((0 ≤ a ∧ a ≤ 4095) ∧ (0 ≤ b ∧ b ≤ 4095) ∧
      swapBytes a b s =
        .ok () (s.setMem ((s.mem.write a.toNat (s.mem.read b.toNat)).write b.toNat (s.mem.read a.toNat)))) := by
  unfold swapBytes
  rcases peekByte_cases s.mem a with ⟨ha, he⟩ | ⟨ha1, ha2, he⟩
  · exact .inl ⟨ha, by rw [he]; rfl⟩
  · rcases peekByte_cases s.mem b with ⟨hb, hf⟩ | ⟨hb1, hb2, hf⟩
    · exact .inr (.inl ⟨⟨ha1, ha2⟩, hb, by rw [he, Eff.lift_ok, Eff.bind_ok, hf]; rfl⟩)
    · refine .inr (.inr ⟨⟨ha1, ha2⟩, ⟨hb1, hb2⟩, ?_⟩)
      rw [he, Eff.lift_ok, Eff.bind_ok, hf, Eff.lift_ok, Eff.bind_ok]
      rcases pokeByte_cases s.mem a (s.mem.read b.toNat) with ⟨hn, _⟩ | ⟨_, _, hg⟩
      · omega
      · rw [hg, Eff.lift_ok, Eff.bind_ok]
        rcases pokeByte_cases (s.mem.write a.toNat (s.mem.read b.toNat)) b (s.mem.read a.toNat) with ⟨hn, _⟩ | ⟨_, _, hh⟩
        · omega
        · rw [hh]; rfl

end Sys2Proof.Machine
end

