-- ==== Sys2Proof/Laws/Engine.lean ====
section
/-! SUPPORT. All that several pushes, the halt checks, the fetch and a step can do. -/

namespace Sys2Proof.Machine

/-! ## Several pushes (R165) -/

/-- The state after several pushes that all store. -/
def afterPushes : List Word → State → State
  | [], s => s
  | v :: vs, s => afterPushes vs (afterPush v s)

/-- The pushes that find room, or the first that does not: that one faults, with the earlier ones done (R165, R305). -/
theorem pushAll_cases (ws : List Word) {s : State} (h0 : 0 ≤ s32 s.sp) (hhi : s32 s.sp ≤ 4096) :
    (4 * (ws.length : Int) ≤ s32 s.sp ∧ pushAll ws s = .ok () (afterPushes ws s)) ∨
    (∃ done w rest, ws = done ++ w :: rest ∧ s32 (afterPushes done s).sp = s32 s.sp - 4 * done.length ∧
      0 ≤ s32 (afterPushes done s).sp ∧ s32 (afterPushes done s).sp < 4 ∧
      pushAll ws s = .raise (.addressFault (s32 (afterPushes done s).sp - 4))
        ((afterPushes done s).setSp (s32 (afterPushes done s).sp - 4))) := by
  induction ws generalizing s with
  | nil => exact .inl ⟨by simpa using h0, rfl⟩
  | cons v vs ih =>
    rcases push_cases v (by omega) hhi with ⟨hlt, he⟩ | ⟨hge, he⟩
    · refine .inr ⟨[], v, vs, rfl, by simp [afterPushes], h0, hlt, ?_⟩
      rw [pushAll, he]; rfl
    · have hsp := afterPush_sp v (s := s) (by omega)
      rcases ih (s := afterPush v s) (by omega) (by omega) with ⟨hl, hp⟩ | ⟨done, w, rest, hw, hd, h1, h2, hp⟩
      · refine .inl ⟨by rw [List.length_cons]; push_cast; omega, ?_⟩
        rw [pushAll, he, Eff.bind_ok, hp]; rfl
      · refine .inr ⟨v :: done, w, rest, by rw [hw]; rfl, ?_, h1, h2, ?_⟩
        · rw [afterPushes, hd, hsp, List.length_cons]; push_cast; omega
        · rw [pushAll, he, Eff.bind_ok, hp]; rfl

/-- SP after several pushes that find room. -/
theorem afterPushes_sp (ws : List Word) {s : State} (h : 4 * (ws.length : Int) ≤ s32 s.sp) :
    s32 (afterPushes ws s).sp = s32 s.sp - 4 * ws.length := by
  induction ws generalizing s with
  | nil => simp [afterPushes]
  | cons v vs ih =>
    rw [List.length_cons] at h
    push_cast at h
    have hsp := afterPush_sp v (s := s) (by omega)
    rw [afterPushes, ih (by omega), hsp, List.length_cons]
    push_cast
    omega

/-- Several pushes change nothing but memory and SP. -/
theorem afterPushes_rest (ws : List Word) (s : State) :
    afterPushes ws s = { s with mem := (afterPushes ws s).mem, sp := (afterPushes ws s).sp } := by
  induction ws generalizing s with
  | nil => rfl
  | cons v vs ih => rw [afterPushes, ih (afterPush v s)]; rfl

/-! ## The engine -/

theorem haltCheck_none {s : State} : haltCheck s = none ↔ (s.boundary : Int) < s32 s.sp ∧ s32 s.pc < s.boundary := by
  unfold haltCheck
  split
  · simp; omega
  · split
    · simp; omega
    · simp; omega

/-- The halt checks: StackOverrun first, then CodeOverrun (R132). -/
theorem haltCheck_cases (s : State) :
    (s32 s.sp ≤ s.boundary ∧ haltCheck s = some .stackOverrun) ∨
    ((s.boundary : Int) < s32 s.sp ∧ (s.boundary : Int) ≤ s32 s.pc ∧ haltCheck s = some .codeOverrun) ∨
    ((s.boundary : Int) < s32 s.sp ∧ s32 s.pc < s.boundary ∧ haltCheck s = none) := by
  unfold haltCheck
  by_cases h1 : s32 s.sp ≤ s.boundary
  · exact .inl ⟨h1, by rw [if_pos h1]⟩
  · by_cases h2 : (s.boundary : Int) ≤ s32 s.pc
    · exact .inr (.inl ⟨by omega, h2, by rw [if_neg h1, if_pos h2]⟩)
    · exact .inr (.inr ⟨by omega, by omega, by rw [if_neg h1, if_neg h2]⟩)

/-- The beginning of a run changes the boundary and the start mark alone (R333). -/
theorem beginRun_cases (s : State) :
    (s.started = true ∧ beginRun s = s) ∨ (s.started = false ∧ beginRun s = s.start (computeBoundary s.mem)) := by
  unfold beginRun
  cases h : s.started with
  | true => exact .inl ⟨rfl, by simp⟩
  | false => exact .inr ⟨rfl, by simp⟩

@[simp] theorem beginRun_status (s : State) : (beginRun s).status = s.status := by unfold beginRun; split <;> rfl
@[simp] theorem beginRun_sp (s : State) : (beginRun s).sp = s.sp := by unfold beginRun; split <;> rfl
@[simp] theorem beginRun_pc (s : State) : (beginRun s).pc = s.pc := by unfold beginRun; split <;> rfl
@[simp] theorem beginRun_mem (s : State) : (beginRun s).mem = s.mem := by unfold beginRun; split <;> rfl
@[simp] theorem beginRun_out (s : State) : (beginRun s).out = s.out := by unfold beginRun; split <;> rfl
@[simp] theorem beginRun_unrecLog (s : State) : (beginRun s).unrecLog = s.unrecLog := by unfold beginRun; split <;> rfl
@[simp] theorem beginRun_input (s : State) : (beginRun s).input = s.input := by unfold beginRun; split <;> rfl
@[simp] theorem beginRun_inputEnded (s : State) : (beginRun s).inputEnded = s.inputEnded := by unfold beginRun; split <;> rfl
@[simp] theorem beginRun_loadBoundary (s : State) : (beginRun s).loadBoundary = s.loadBoundary := by unfold beginRun; split <;> rfl

@[simp] theorem beginRun_started (s : State) : (beginRun s).started = true := by
  rcases beginRun_cases s with ⟨h, e⟩ | ⟨_, e⟩
  · rw [e, h]
  · rw [e]; rfl

/-- All that a step which answers a next state can do: halt, take the fault of a fetch, skip a word, or execute one
instruction (R130). -/
theorem step_cases {s t : State} (h : step s = .next t) :
    s.status = .running ∧
    ((∃ st, haltCheck (beginRun s) = some st ∧ t = (beginRun s).setStatus st) ∨
     (haltCheck (beginRun s) = none ∧
      ((∃ k, fetch (beginRun s) = .error k ∧ t = takeFault k (beginRun s)) ∨
       (∃ w r, fetch (beginRun s) = .ok w ∧ decode w = .error r ∧ t = skipWord (beginRun s)) ∨
       (∃ w i, fetch (beginRun s) = .ok w ∧ decode w = .ok i ∧ exec i (beginRun s) = .next t)))) := by
  unfold step plan at h
  cases hs : s.status with
  | running =>
    refine ⟨rfl, ?_⟩
    rw [hs] at h
    simp only [planCycle] at h
    cases hh : haltCheck (beginRun s) with
    | some st =>
      rw [hh] at h
      exact .inl ⟨st, rfl, by simpa using h.symm⟩
    | none =>
      rw [hh] at h
      refine .inr ⟨rfl, ?_⟩
      cases hf : fetch (beginRun s) with
      | error k =>
        rw [hf] at h
        exact .inl ⟨k, rfl, by simpa using h.symm⟩
      | ok w =>
        rw [hf] at h
        simp only at h
        cases hd : decode w with
        | error r =>
          rw [hd] at h
          exact .inr (.inl ⟨w, r, rfl, hd, by simpa using h.symm⟩)
        | ok i =>
          rw [hd] at h
          exact .inr (.inr ⟨w, i, rfl, hd, by simpa using h⟩)
  | _ => rw [hs] at h; simp at h

/-- The fetch of a running core whose halt checks passed reads the word at PC (R133). -/
theorem fetch_of_nonneg {s : State} (h : 0 ≤ s32 s.pc) : fetch s = .ok (s.mem.wordOrZero (s32 s.pc)) := peek_of_nonneg h

/-- All that a load can do (R331). -/
theorem load_cases (bytes : List Byte) (s : State) :
    (s.started = true ∧ load bytes s = .refused .loadDuringRun) ∨
    (s.started = false ∧ 4096 < bytes.length ∧ load bytes s = .refused (.loadTooLong bytes.length)) ∨
    (s.started = false ∧ bytes.length ≤ 4096 ∧
      load bytes s = .next { s with mem := s.mem.copyFrom 0 bytes, loadBoundary := bytes.length }) := by
  unfold load
  cases h : s.started with
  | true => exact .inl ⟨rfl, by simp⟩
  | false =>
    by_cases hl : 4096 < bytes.length
    · exact .inr (.inl ⟨rfl, hl, by simp [hl]⟩)
    · exact .inr (.inr ⟨rfl, by omega, by simp [hl]⟩)

end Sys2Proof.Machine
end

