-- ==== Sys2Proof/Laws/Frames.lean ====
section
/-! SUPPORT. What an effect leaves unchanged, whether it goes on or raises: the stack operations touch memory and SP alone. -/

namespace Sys2Proof.Machine

/-- The state an effect leaves, whether it goes on or raises. -/
def Eff.after {α : Type} (e : Eff α) : State :=
  match e with
  | .ok _ s => s
  | .raise _ s => s

@[simp] theorem Eff.after_ok {α : Type} (a : α) (s : State) : (Eff.ok a s).after = s := rfl
@[simp] theorem Eff.after_raise {α : Type} (k : FaultKind) (s : State) : (Eff.raise k s : Eff α).after = s := rfl

@[simp] theorem Eff.after_lift {α : Type} (s : State) (e : Except FaultKind α) : (Eff.lift s e).after = s := by
  cases e <;> rfl

/-- The states differ in memory and SP at most. -/
def SameButMemSp (s t : State) : Prop := t = { s with mem := t.mem, sp := t.sp }

theorem SameButMemSp.refl (s : State) : SameButMemSp s s := rfl

theorem SameButMemSp.trans {s t u : State} (h1 : SameButMemSp s t) (h2 : SameButMemSp t u) : SameButMemSp s u := by
  unfold SameButMemSp at *
  rw [h2, h1]

theorem SameButMemSp.pc {s t : State} (h : SameButMemSp s t) : t.pc = s.pc := by rw [h]
theorem SameButMemSp.status {s t : State} (h : SameButMemSp s t) : t.status = s.status := by rw [h]
theorem SameButMemSp.out {s t : State} (h : SameButMemSp s t) : t.out = s.out := by rw [h]
theorem SameButMemSp.unrecLog {s t : State} (h : SameButMemSp s t) : t.unrecLog = s.unrecLog := by rw [h]
theorem SameButMemSp.boundary {s t : State} (h : SameButMemSp s t) : t.boundary = s.boundary := by rw [h]
theorem SameButMemSp.loadBoundary {s t : State} (h : SameButMemSp s t) : t.loadBoundary = s.loadBoundary := by rw [h]
theorem SameButMemSp.started {s t : State} (h : SameButMemSp s t) : t.started = s.started := by rw [h]
theorem SameButMemSp.input {s t : State} (h : SameButMemSp s t) : t.input = s.input := by rw [h]
theorem SameButMemSp.inputEnded {s t : State} (h : SameButMemSp s t) : t.inputEnded = s.inputEnded := by rw [h]

/-- An effect followed by another touches memory and SP alone if both do. -/
theorem sameButMemSp_bind {α β : Type} {s : State} {e : Eff α} {f : α → State → Eff β} (he : SameButMemSp s e.after)
    (hf : ∀ a t, SameButMemSp t (f a t).after) : SameButMemSp s (e.bind f).after := by
  cases e with
  | ok a t => exact he.trans (hf a t)
  | raise k t => exact he

theorem push_sameButMemSp (v : Word) (s : State) : SameButMemSp s (push v s).after :=
  sameButMemSp_bind (by rw [Eff.after_lift]; rfl) fun _ _ => rfl

theorem pop_sameButMemSp (s : State) : SameButMemSp s (pop s).after :=
  sameButMemSp_bind (by rw [Eff.after_lift]; rfl) fun _ _ => rfl

theorem pushAll_sameButMemSp (ws : List Word) (s : State) : SameButMemSp s (pushAll ws s).after := by
  induction ws generalizing s with
  | nil => rfl
  | cons v vs ih => exact sameButMemSp_bind (push_sameButMemSp v s) fun _ t => ih t

theorem binOp_sameButMemSp (f : BinFn) (s : State) : SameButMemSp s (binOp f s).after :=
  sameButMemSp_bind (pop_sameButMemSp s) fun _ t =>
    sameButMemSp_bind (pop_sameButMemSp t) fun _ u =>
      sameButMemSp_bind (by rw [Eff.after_lift]; rfl) fun r w => push_sameButMemSp r w

theorem unOp_sameButMemSp (f : Word → Except FaultKind Word) (s : State) : SameButMemSp s (unOp f s).after :=
  sameButMemSp_bind (pop_sameButMemSp s) fun _ t =>
    sameButMemSp_bind (by rw [Eff.after_lift]; rfl) fun r u => push_sameButMemSp r u

theorem swapBytes_sameButMemSp (a b : Int) (s : State) : SameButMemSp s (swapBytes a b s).after := by
  rcases swapBytes_cases a b s with ⟨_, h⟩ | ⟨_, _, h⟩ | ⟨_, _, h⟩ <;> rw [h] <;> rfl

/-- Every step of the stack instructions' effects answers a next state that is the effect's, advanced or with its fault taken. -/
theorem thenAdvance_of_after {e : Eff Unit} {t : State} (h : e.thenAdvance = .next t) :
    t = advancePc e.after ∨ ∃ k, t = takeFault k e.after := by
  cases e with
  | ok u s => exact .inl (by simpa using h.symm)
  | raise k s => exact .inr ⟨k, by simpa using h.symm⟩

end Sys2Proof.Machine
end

