-- ==== Sys2Proof/Laws/PerInstr.lean ====
section
/-! SUPPORT. The per-instruction family EncodedRow: the row of spec/opcode_table.json selects the word of every well-formed
instruction of its constructor (R106), and the family's lemma for each constructor. -/

namespace Sys2Proof.Laws

/-- A mask that keeps no bit below `k` sees only the part above. -/
theorem and_high_mask (q r mask k : Nat) (h : r < 2 ^ k) : (2 ^ k * q + r) &&& (2 ^ k * mask + 0) = 2 ^ k * (q &&& mask) + 0 := by
  apply Nat.eq_of_testBit_eq
  intro j
  have h0 : 0 < 2 ^ k := Nat.two_pow_pos k
  rw [Nat.testBit_and, Nat.testBit_two_pow_mul_add q h, Nat.testBit_two_pow_mul_add mask h0,
    Nat.testBit_two_pow_mul_add (q &&& mask) h0]
  split
  · simp
  · rw [Nat.testBit_and]

/-- A word whose bits from `k` up are `q` is selected by a row whose mask lies there and whose pattern is `q` masked. -/
theorem selects_of_high {w : Word} {mn : String} {pattern mask : Nat} (k q m : Nat) (hw : w.toNat / 2 ^ k = q)
    (hm : mask = 2 ^ k * m) (hp : pattern = 2 ^ k * (q &&& m)) : OpcodeRow.selects ⟨mn, pattern, mask⟩ w = true := by
  have h := and_high_mask q (w.toNat % 2 ^ k) m k (Nat.mod_lt _ (Nat.two_pow_pos k))
  rw [← hw, Nat.div_add_mod] at h
  simp only [OpcodeRow.selects, beq_iff_eq, hm, hp]
  rw [← hw]
  simpa using h

theorem subWord_high {op sub : Nat} (rest : Nat) (h : op < 16) (hs : sub < 16) :
    (subWord op sub rest).toNat / 2 ^ 24 = op * 16 + sub := by
  simp only [subWord, instrWord, BitVec.toNat_ofNat]
  omega

theorem instrWord_high {op : Nat} (rest : Nat) (h : op < 16) : (instrWord op rest).toNat / 2 ^ 28 = op := by
  simp only [instrWord, BitVec.toNat_ofNat]
  omega

theorem encRel24_lt (o : Int) : encRel24 o < 2 ^ 24 := by
  unfold encRel24 lowBits
  have := Int.emod_lt_of_pos (o / 4) (show (0 : Int) < 2 ^ 22 by decide)
  omega

theorem binaryIfWord_high {c : Nat} (o : Int) (h : c < 8) : (binaryIfWord c o).toNat / 2 ^ 25 = 64 + c := by
  have := encRel24_lt o
  simp only [binaryIfWord, instrWord, BitVec.toNat_ofNat]
  omega

theorem unaryIfWord_high {c : Nat} (o : Int) (h : c < 4) : (unaryIfWord c o).toNat / 2 ^ 25 = 72 + c := by
  have := encRel24_lt o
  simp only [unaryIfWord, instrWord, BitVec.toNat_ofNat]
  omega

end Sys2Proof.Laws

/-- The row of the instruction selects its encoded word. -/
def Sys2Proof.Laws.EncodedRow.Statement (i : Sys2Proof.Instr) : Prop :=
  i.wellFormed = true → i.row.selects (Sys2Proof.encode i) = true

namespace Sys2Proof.Laws.EncodedRow

theorem exit (c : Byte) : Statement (.exit c) := fun _ =>
  selects_of_high 24 0x00 0xFF (subWord_high _ (by decide) (by decide)) rfl rfl
theorem swap (a b : Int) : Statement (.swap a b) := fun _ =>
  selects_of_high 24 0x01 0xFF (subWord_high _ (by decide) (by decide)) rfl rfl
theorem nop : Statement .nop := fun _ =>
  selects_of_high 24 0x02 0xFF (subWord_high _ (by decide) (by decide)) rfl rfl
theorem input : Statement .input := fun _ =>
  selects_of_high 24 0x04 0xFF (subWord_high _ (by decide) (by decide)) rfl rfl
theorem stinput (n : Nat) : Statement (.stinput n) := fun _ =>
  selects_of_high 24 0x05 0xFF (subWord_high _ (by decide) (by decide)) rfl rfl
theorem debug : Statement .debug := fun _ =>
  selects_of_high 24 0x0F 0xFF (subWord_high _ (by decide) (by decide)) rfl rfl
theorem pop (n : Nat) : Statement (.pop n) := fun _ =>
  selects_of_high 28 0x1 0xF (instrWord_high _ (by decide)) rfl rfl
theorem add : Statement .add := fun _ =>
  selects_of_high 24 0x20 0xFF (subWord_high _ (by decide) (by decide)) rfl rfl
theorem sub : Statement .sub := fun _ =>
  selects_of_high 24 0x21 0xFF (subWord_high _ (by decide) (by decide)) rfl rfl
theorem mul : Statement .mul := fun _ =>
  selects_of_high 24 0x22 0xFF (subWord_high _ (by decide) (by decide)) rfl rfl
theorem div : Statement .div := fun _ =>
  selects_of_high 24 0x23 0xFF (subWord_high _ (by decide) (by decide)) rfl rfl
theorem rem : Statement .rem := fun _ =>
  selects_of_high 24 0x24 0xFF (subWord_high _ (by decide) (by decide)) rfl rfl
theorem and : Statement .and := fun _ =>
  selects_of_high 24 0x25 0xFF (subWord_high _ (by decide) (by decide)) rfl rfl
theorem or : Statement .or := fun _ =>
  selects_of_high 24 0x26 0xFF (subWord_high _ (by decide) (by decide)) rfl rfl
theorem xor : Statement .xor := fun _ =>
  selects_of_high 24 0x27 0xFF (subWord_high _ (by decide) (by decide)) rfl rfl
theorem lsl : Statement .lsl := fun _ =>
  selects_of_high 24 0x28 0xFF (subWord_high _ (by decide) (by decide)) rfl rfl
theorem lsr : Statement .lsr := fun _ =>
  selects_of_high 24 0x29 0xFF (subWord_high _ (by decide) (by decide)) rfl rfl
theorem asr : Statement .asr := fun _ =>
  selects_of_high 24 0x2B 0xFF (subWord_high _ (by decide) (by decide)) rfl rfl
theorem neg : Statement .neg := fun _ =>
  selects_of_high 24 0x30 0xFF (subWord_high _ (by decide) (by decide)) rfl rfl
theorem not : Statement .not := fun _ =>
  selects_of_high 24 0x31 0xFF (subWord_high _ (by decide) (by decide)) rfl rfl
theorem stprint (o : Int) : Statement (.stprint o) := fun _ =>
  selects_of_high 28 0x4 0xF (instrWord_high _ (by decide)) rfl rfl
theorem call (o : Int) : Statement (.call o) := fun _ =>
  selects_of_high 28 0x5 0xF (instrWord_high _ (by decide)) rfl rfl
theorem ret (o : Int) : Statement (.ret o) := fun _ =>
  selects_of_high 28 0x6 0xF (instrWord_high _ (by decide)) rfl rfl
theorem goto (o : Int) : Statement (.goto o) := fun _ =>
  selects_of_high 28 0x7 0xF (instrWord_high _ (by decide)) rfl rfl
theorem ifeq (o : Int) : Statement (.ifeq o) := fun _ =>
  selects_of_high 25 64 0x7F (binaryIfWord_high o (by decide)) rfl rfl
theorem ifne (o : Int) : Statement (.ifne o) := fun _ =>
  selects_of_high 25 65 0x7F (binaryIfWord_high o (by decide)) rfl rfl
theorem iflt (o : Int) : Statement (.iflt o) := fun _ =>
  selects_of_high 25 66 0x7F (binaryIfWord_high o (by decide)) rfl rfl
theorem ifgt (o : Int) : Statement (.ifgt o) := fun _ =>
  selects_of_high 25 67 0x7F (binaryIfWord_high o (by decide)) rfl rfl
theorem ifle (o : Int) : Statement (.ifle o) := fun _ =>
  selects_of_high 25 68 0x7F (binaryIfWord_high o (by decide)) rfl rfl
theorem ifge (o : Int) : Statement (.ifge o) := fun _ =>
  selects_of_high 25 69 0x7F (binaryIfWord_high o (by decide)) rfl rfl
theorem ifrsv (c : ReservedCond) (o : Int) : Statement (.ifrsv c o) := fun _ => by
  cases c
  · exact selects_of_high 25 70 0x7E (binaryIfWord_high o (by decide)) rfl rfl
  · exact selects_of_high 25 71 0x7E (binaryIfWord_high o (by decide)) rfl rfl
theorem ifez (o : Int) : Statement (.ifez o) := fun _ =>
  selects_of_high 25 72 0x7B (unaryIfWord_high o (by decide)) rfl rfl
theorem ifnz (o : Int) : Statement (.ifnz o) := fun _ =>
  selects_of_high 25 73 0x7B (unaryIfWord_high o (by decide)) rfl rfl
theorem ifmi (o : Int) : Statement (.ifmi o) := fun _ =>
  selects_of_high 25 74 0x7B (unaryIfWord_high o (by decide)) rfl rfl
theorem ifpl (o : Int) : Statement (.ifpl o) := fun _ =>
  selects_of_high 25 75 0x7B (unaryIfWord_high o (by decide)) rfl rfl
theorem dup (o : Int) : Statement (.dup o) := fun _ =>
  selects_of_high 28 0xC 0xF (instrWord_high _ (by decide)) rfl rfl
theorem print (o : Int) (f : PrintFormat) : Statement (.print o f) := fun _ =>
  selects_of_high 28 0xD 0xF (instrWord_high _ (by decide)) rfl rfl
theorem dump : Statement .dump := fun _ =>
  selects_of_high 28 0xE 0xF (instrWord_high _ (by decide)) rfl rfl
theorem push (v : Word) : Statement (.push v) := fun _ =>
  selects_of_high 28 0xF 0xF (instrWord_high _ (by decide)) rfl rfl

end Sys2Proof.Laws.EncodedRow
end

