-- ==== Sys2Proof/Laws/Text.lean ====
section
/-! SUPPORT. What the byte tests of trim and of the input parser accept. -/

namespace Sys2Proof.Machine

/-- The bytes trim removes are those of R168's set. -/
theorem isSpace_iff (b : Byte) : isSpace b = true ↔ b ∈ trimSet := by
  have all : ∀ n : Fin 256, isSpace (BitVec.ofNat 8 n) = true ↔ BitVec.ofNat 8 n ∈ trimSet := by decide +kernel
  simpa using all ⟨b.toNat, b.isLt⟩

/-- A byte has a value in a radix up to 16 exactly if it is a digit of R164 with that value. -/
theorem digitValue_eq_some {radix : Nat} (hr : radix ≤ 16) (b : Byte) (v : Nat) :
    digitValue radix b = some v ↔ IsDigit radix b v := by
  unfold digitValue IsDigit
  simp only
  constructor
  · generalize hw : (if 48 ≤ b.toNat ∧ b.toNat ≤ 57 then b.toNat - 48
      else if 97 ≤ b.toNat ∧ b.toNat ≤ 102 then b.toNat - 87
      else if 65 ≤ b.toNat ∧ b.toNat ≤ 70 then b.toNat - 55 else 16) = w
    intro h
    split at h
    · rename_i hlt
      simp only [Option.some.injEq] at h
      subst h
      refine ⟨hlt, ?_⟩
      repeat' split at hw
      all_goals omega
    · simp at h
  · rintro ⟨h1, h2⟩
    have e : (if 48 ≤ b.toNat ∧ b.toNat ≤ 57 then b.toNat - 48
        else if 97 ≤ b.toNat ∧ b.toNat ≤ 102 then b.toNat - 87
        else if 65 ≤ b.toNat ∧ b.toNat ≤ 70 then b.toNat - 55 else 16) = v := by
      repeat' split
      all_goals omega
    rw [e, if_pos h1]

end Sys2Proof.Machine
end

