-- ==== Sys2Proof/Tests/Slice0.lean ====
section
/-! SUPPORT. Tests. Every expected value is the spec's own: the vectors of 95_test_vectors.md (named V-... or by section), or, where
a test names a rule instead, worked out by hand from that rule. The last section gives, for every statement with hypotheses, a
concrete state and operands that meet them. -/

open Sys2Proof Sys2Proof.Machine

namespace Sys2Proof.Tests

/-! ## Helpers -/

/-- The next state of an outcome, if there is one. -/
def after : Outcome → Option State
  | .next s => some s
  | _ => none

/-- A stack of words, the top first, ending at 4095, over a memory. -/
def withStack (m : Memory) : List Word → Memory × Nat
  | [] => (m, 4096)
  | v :: vs =>
    let (m1, a) := withStack m vs
    (m1.writeWord (a - 4) v, a - 4)

/-- The convention of 95_test_vectors.md: the word under test at 0, nop at 4, this stack; PC 0, boundary 8. -/
def vector (w : Word) (stack : List Word) : State :=
  let (m, a) := withStack [] stack
  { State.reset with mem := (m.writeWord 0 w).writeWord 4 0x02000000#32, sp := BitVec.ofNat 32 a, boundary := 8, started := true }

/-- The same with the word at 4 and PC = 4. -/
def vectorAt4 (w : Word) (stack : List Word) : State :=
  let (m, a) := withStack [] stack
  { State.reset with mem := (m.writeWord 0 0x02000000#32).writeWord 4 w, sp := BitVec.ofNat 32 a, pc := 4, boundary := 8, started := true }

/-- What a vector's line says of the state after the step: status, SP, PC, the first words of the stack. -/
structure Seen where
  status : Status
  sp : Int
  pc : Int
  stack : List Word
deriving DecidableEq, Repr

/-- That of a state, `n` words of the stack. -/
def seen (n : Nat) (s : State) : Seen :=
  ⟨s.status, s32 s.sp, s32 s.pc, (List.range n).map fun k => s.mem.wordAt (s.sp.toNat + 4 * k)⟩

/-- One step of a vector, seen. -/
def run1 (n : Nat) (s : State) : Option Seen := (after (step s)).map (seen n)

/-- The vector's instruction on a stack leaves these words, Running, PC 4. -/
def leaves (w : Word) (stack result : List Word) : Bool :=
  run1 result.length (vector w stack) == some ⟨.running, 4096 - 4 * result.length, 4, result⟩

/-- The vector's instruction faults, with this SP and PC 0. -/
def faults (w : Word) (stack : List Word) (k : FaultKind) (sp : Int) : Bool :=
  run1 0 (vector w stack) == some ⟨.faulted k 0, sp, 0, []⟩

/-- The vector's instruction, PC alone: Running, SP and stack as before. -/
def goesTo (w : Word) (stack : List Word) (pc : Int) : Bool :=
  run1 stack.length (vector w stack) == some ⟨.running, 4096 - 4 * stack.length, pc, stack⟩

/-- The vector's instruction, the output events, everything else as before. -/
def emits (w : Word) (stack : List Word) (es : List Event) : Bool :=
  goesTo w stack 4 && (after (step (vector w stack))).map (·.out) == some es

/-- The bytes of an ASCII text. -/
def text (t : String) : List Byte := t.toList.map fun c => BitVec.ofNat 8 c.toNat

/-- The vector's instruction with one input line. -/
def reads (w : Word) (line : String) (result : List Word) : Bool :=
  run1 result.length { vector w [] with input := [text line] } == some ⟨.running, 4096 - 4 * result.length, 4, result⟩

/-- A state with these registers, running, its boundary scanned. -/
def regs (sp pc : Int) (boundary : Nat) : State :=
  { State.reset with sp := w32 sp, pc := w32 pc, boundary := boundary, started := true }

/-! ## Well-formedness: each check refuses an ill-formed term -/

theorem test_wf_rel28_unaligned : (Instr.goto 2).wellFormed = false := by decide
theorem test_wf_rel28_low : (Instr.call (-134217732)).wellFormed = false := by decide
theorem test_wf_rel28_high : (Instr.print 134217728 .hex).wellFormed = false := by decide
theorem test_wf_rel24_unaligned : (Instr.ifpl 1).wellFormed = false := by decide
theorem test_wf_rel24_low : (Instr.ifeq (-8388612)).wellFormed = false := by decide
theorem test_wf_rel24_high : (Instr.ifrsv .rsv6 8388608).wellFormed = false := by decide
theorem test_wf_swap_unaligned : (Instr.swap 0 2).wellFormed = false := by decide
theorem test_wf_swap_low : (Instr.swap (-8196) 0).wellFormed = false := by decide
theorem test_wf_swap_high : (Instr.swap 0 8192).wellFormed = false := by decide
theorem test_wf_stinput : (Instr.stinput 16777216).wellFormed = false := by decide
theorem test_wf_pop : (Instr.pop 268435456).wellFormed = false := by decide
theorem test_wf_push_high : (Instr.push 0x08000000#32).wellFormed = false := by decide
theorem test_wf_push_low : (Instr.push 0xF7FFFFFF#32).wellFormed = false := by decide

/-! ## Decoding and encoding: words from section 2 of 95_test_vectors.md and from the forms of R105 -/

theorem test_decode_misc :
    decode 0x00000000#32 = .ok (.exit 0) ∧ decode 0x0000FF07#32 = .ok (.exit 7) ∧ decode 0x01000002#32 = .ok (.swap 0 8) ∧
    decode 0x01800000#32 = .ok (.swap (-8192) 0) ∧ decode 0x01C03000#32 = .ok (.swap (-4084) 0) ∧ decode 0x02000000#32 = .ok .nop ∧
    decode 0x04000000#32 = .ok .input ∧ decode 0x05000010#32 = .ok (.stinput 16) ∧ decode 0x0F000000#32 = .ok .debug := by decide

theorem test_decode_binary :
    decode 0x20FFFFFF#32 = .ok .add ∧ decode 0x21000000#32 = .ok .sub ∧ decode 0x22000000#32 = .ok .mul ∧
    decode 0x23000000#32 = .ok .div ∧ decode 0x24000000#32 = .ok .rem ∧ decode 0x25000000#32 = .ok .and ∧
    decode 0x26000000#32 = .ok .or ∧ decode 0x27000000#32 = .ok .xor ∧ decode 0x28000000#32 = .ok .lsl ∧
    decode 0x29000000#32 = .ok .lsr ∧ decode 0x2B000000#32 = .ok .asr := by decide

theorem test_decode_unary : decode 0x30000000#32 = .ok .neg ∧ decode 0x31000000#32 = .ok .not := by decide

theorem test_decode_stack :
    decode 0x10000004#32 = .ok (.pop 4) ∧ decode 0x1FFFFFFF#32 = .ok (.pop 268435455) ∧ decode 0xC0000007#32 = .ok (.dup 4) ∧
    decode 0xCFFFFFFC#32 = .ok (.dup (-4)) ∧ decode 0xF0000005#32 = .ok (.push 5) ∧
    decode 0xF7FFFFFF#32 = .ok (.push 0x07FFFFFF#32) ∧ decode 0xF8000000#32 = .ok (.push 0xF8000000#32) := by decide

theorem test_decode_output :
    decode 0x40000004#32 = .ok (.stprint 4) ∧ decode 0xD0000001#32 = .ok (.print 0 .hex) ∧
    decode 0xD0000007#32 = .ok (.print 4 .octal) ∧ decode 0xD0000002#32 = .ok (.print 0 .binary) ∧
    decode 0xD8000000#32 = .ok (.print (-134217728) .decimal) ∧ decode 0xEFFFFFFF#32 = .ok .dump := by decide

theorem test_decode_jumps :
    decode 0x5000000F#32 = .ok (.call 12) ∧ decode 0x5FFFFFF8#32 = .ok (.call (-8)) ∧ decode 0x60000004#32 = .ok (.ret 4) ∧
    decode 0x77FFFFFC#32 = .ok (.goto 134217724) ∧ decode 0x78000000#32 = .ok (.goto (-134217728)) := by decide

theorem test_decode_binary_if :
    decode 0x81000008#32 = .ok (.ifeq 8) ∧ decode 0x82FFFFF4#32 = .ok (.ifne (-12)) ∧ decode 0x84000008#32 = .ok (.iflt 8) ∧
    decode 0x86000008#32 = .ok (.ifgt 8) ∧ decode 0x88000008#32 = .ok (.ifle 8) ∧ decode 0x8A000008#32 = .ok (.ifge 8) ∧
    decode 0x8C000008#32 = .ok (.ifrsv .rsv6 8) ∧ decode 0x8E000008#32 = .ok (.ifrsv .rsv7 8) ∧
    decode 0x80800000#32 = .ok (.ifeq (-8388608)) := by decide

theorem test_decode_unary_if :
    decode 0x98000000#32 = .ok (.ifez 0) ∧ decode 0x92FFFFF4#32 = .ok (.ifnz (-12)) ∧ decode 0x94000008#32 = .ok (.ifmi 8) ∧
    decode 0x96000008#32 = .ok (.ifpl 8) := by decide

theorem test_decode_unrecognized :
    decode 0x03000000#32 = .error (.unmappedMisc 3) ∧ decode 0x0E000000#32 = .error (.unmappedMisc 14) ∧
    decode 0x2A000000#32 = .error (.unmappedBinary 10) ∧ decode 0x2F000000#32 = .error (.unmappedBinary 15) ∧
    decode 0x3F000000#32 = .error (.unmappedUnary 15) ∧ decode 0xAFFFFFFF#32 = .error (.unmappedOpcode 10) ∧
    decode 0xB1234567#32 = .error (.unmappedOpcode 11) := by decide

/-- The bytes of P1's first instruction (05 00 00 F0), with more after it; and a list too short for an instruction (R90). -/
theorem test_decode_bytes :
    decodeBytes [0x05, 0x00, 0x00, 0xF0, 0x07] = .ok (.push 5, [0x07]) ∧ decodeBytes [0x05, 0x00, 0x00] = .error (.truncated 3) := by
  decide

theorem test_decode_table_word :
    decodeTableWord 32 0x82FFFFF4 = some (.ifne (-12)) ∧ decodeTableWord 8 0x07 = some (.exit 7) ∧
    decodeTableWord 32 0x2C000000 = none := by decide

/-- Words of the programs of section 11 and of R105. -/
theorem test_encode :
    encode (.exit 7) = 0x00000007#32 ∧ encode (.swap (-4084) 0) = 0x01C03000#32 ∧ encode (.stinput 16777215) = 0x05FFFFFF#32 ∧
    encode (.pop 4) = 0x10000004#32 ∧ encode .asr = 0x2B000000#32 ∧ encode (.goto (-4)) = 0x7FFFFFFC#32 ∧
    encode (.ifnz (-12)) = 0x92FFFFF4#32 ∧ encode (.ifrsv .rsv7 8) = 0x8E000008#32 ∧ encode (.print 4 .octal) = 0xD0000007#32 ∧
    encode (.push 0xFFFFFFFF#32) = 0xFFFFFFFF#32 ∧ encode (.dup (-4)) = 0xCFFFFFFC#32 := by decide

/-! ## Memory primitives -/

/-- V-MEM-4, V-MEM-12 and the guard of V-MEM-3. -/
theorem test_access_guards :
    peek [(4095, 7)] (-1) = .error (.addressFault (-1)) ∧ peek [(4095, 7)] 4093 = .ok 0 ∧ peekByte [(4095, 7)] 4095 = .ok 7 ∧
    peekByte [] 4096 = .error (.addressFault 4096) ∧ pokeByte [] (-1) 0 = .error (.addressFault (-1)) := by decide

/-- V-MEM-10: SP stays lowered. -/
theorem test_push_below_zero : push 1 (regs 2 0 8) = .raise (.addressFault (-2)) { regs 2 0 8 with sp := w32 (-2) } := by decide

/-- Writing 0 keeps the canonical form (R48: an unlisted byte reads 0). -/
theorem test_write_canonical :
    (Memory.write [(1, 5)] 3 9 = [(1, 5), (3, 9)]) ∧ Memory.write [(1, 5), (3, 9)] 1 0 = [(3, 9)] ∧
    Memory.wf [(3, 9), (1, 5)] = false ∧ Memory.wf [(3, 0)] = false ∧ Memory.wf [(4096, 1)] = false := by decide

/-! ## Engine, boundary, loading -/

/-- V-ENG-1 and V-ENG-2. -/
theorem test_all_zero_halts : run1 0 State.reset = some ⟨.codeOverrun, 4096, 0, []⟩ := by decide
theorem test_full_memory_halts : run1 0 { State.reset with mem := [(4092, 1)] } = some ⟨.stackOverrun, 4096, 0, []⟩ := by decide

/-- V-ENG-6 to V-ENG-9. -/
theorem test_boundary :
    computeBoundary [(0, 1), (11, 5)] = 12 ∧ computeBoundary [(8, 7)] = 12 ∧ computeBoundary [(6, 7)] = 8 ∧
    computeBoundary [(3, 1)] = 4 ∧ computeBoundary [] = 0 := by decide

/-- V-ENG-7: loadBoundary 9. -/
theorem test_load :
    (after (load [0, 0, 0, 0, 0, 0, 0, 0, 7] State.reset)).map (fun s => (s.mem, s.loadBoundary)) = some ([(8, 7)], 9) := by decide

/-- V-FLT-6: both halts hold, StackOverrun is reported. -/
theorem test_halt_order : run1 0 (regs 8 4004 8) = some ⟨.stackOverrun, 8, 4004, []⟩ := by decide

/-- X-6 and V-ARI-46. -/
theorem test_unrecognized :
    leaves 0x2C000000#32 [1, 2] [1, 2] = true ∧
    (after (step (vector 0x2C000000#32 [1, 2]))).map (·.unrecLog) = some [0#32] := by decide

/-- R332: the magic bytes, and a file without them. -/
theorem test_magic :
    programOfFile [0xDE, 0xAD, 0xBE, 0xEF, 5, 0, 0, 0xF0] = some [5, 0, 0, 0xF0] ∧ programOfFile [0xEF, 0xBE, 0xAD, 0xDE] = none := by
  decide

/-- The step after withFetchWord on the reset state runs the word. -/
theorem test_with_fetch_word :
    (after (step (State.reset.withFetchWord 32 0xF0000005))).map (seen 1) = some ⟨.running, 4092, 4, [5]⟩ := by decide

/-! ## Miscellaneous -/

theorem test_exit_keeps_pc : run1 1 (vector 0x00000007#32 [1]) = some ⟨.exited 7, 4092, 0, [1]⟩ := by decide  -- V-MISC-1
theorem test_swap_low_bytes :
    leaves 0x01000001#32 [0x11223344#32, 0x55667788#32] [0x11223388#32, 0x55667744#32] = true := by decide  -- V-MISC-4
theorem test_swap_negative_address : faults 0x01800000#32 [1] (.addressFault (-4100)) 4092 = true := by decide  -- V-MISC-7
theorem test_nop : leaves 0x02000000#32 [3] [3] = true := by decide  -- V-MISC-8
theorem test_debug : leaves 0x0F000000#32 [3] [3] = true := by decide  -- V-MISC-9
theorem test_input_negative : reads 0x04000000#32 "-7\n" [0xFFFFFFF9#32] = true := by decide  -- V-MISC-11
theorem test_input_sign_fill : reads 0x04000000#32 "0x8000000\n" [0xF8000000#32] = true := by decide  -- V-MISC-19
theorem test_stinput_abcd : reads 0x05FFFFFF#32 "abcd\n" [0x01636261#32, 0x00010164#32] = true := by decide  -- V-MISC-24
theorem test_stinput_zero_length : reads 0x05000000#32 "hello\n" [] = true := by decide  -- V-MISC-26

/-- V-MISC-12 to V-MISC-18, before the push. -/
theorem test_parse :
    parseInput (trim (text "0b101\n")) = 5 ∧ parseInput (trim (text "0XfF\n")) = 0xFF ∧ parseInput (trim (text "0x\n")) = 0 ∧
    parseInput (trim (text "4294967296\n")) = 0 ∧ parseInput (trim (text "  12 \r\n")) = 12 ∧ parseInput (trim (text "+5\n")) = 5 ∧
    parseInput (trim (text "2147483647\n")) = 0x7FFFFFFF#32 ∧ parseInput (trim (text "-2147483648\n")) = 0x80000000#32 := by decide

/-! ## Stack -/

theorem test_pop_unaligned : run1 1 (vector 0x10000002#32 [1, 2]) = some ⟨.running, 4090, 4, [0x00020000#32]⟩ := by decide  -- V-STK-5
theorem test_pop_clamps : leaves 0x1FFFFFFF#32 [1, 2] [] = true := by decide  -- V-STK-4
theorem test_dup_below_top : leaves 0xC0000004#32 [7, 9] [9, 7, 9] = true := by decide  -- V-STK-7
theorem test_dup_sign_fill : leaves 0xC0000000#32 [0x08000000#32] [0xF8000000#32, 0x08000000#32] = true := by decide  -- V-STK-9
theorem test_push_negative : leaves 0xF8000000#32 [] [0xF8000000#32] = true := by decide  -- V-STK-14
theorem test_push_largest : leaves 0xF7FFFFFF#32 [] [0x07FFFFFF#32] = true := by decide  -- V-STK-15

/-! ## Arithmetic: the stack is right, left -/

theorem test_add_wraps : leaves 0x20000000#32 [1, 0x7FFFFFFF#32] [0x80000000#32] = true := by decide  -- V-ARI-2
theorem test_add_empty : leaves 0x20000000#32 [] [0] = true := by decide  -- V-ARI-4
theorem test_sub_order : leaves 0x21000000#32 [5, 3] [0xFFFFFFFE#32] = true := by decide  -- V-ARI-7
theorem test_sub_sign_fill : leaves 0x21000000#32 [1, 0x80000000#32] [0xFFFFFFFF#32] = true := by decide  -- V-ARI-8
theorem test_mul_signed : leaves 0x22000000#32 [4, 0xFFFFFFFD#32] [0xFFFFFFF4#32] = true := by decide  -- V-ARI-11
theorem test_div_toward_zero : leaves 0x23000000#32 [2, 0xFFFFFFF9#32] [0xFFFFFFFD#32] = true := by decide  -- V-ARI-14
theorem test_div_by_zero : faults 0x23000000#32 [0, 5] .divideByZero 4096 = true := by decide  -- V-ARI-17
theorem test_rem_dividend_sign : leaves 0x24000000#32 [0xFFFFFFFE#32, 7] [1] = true := by decide  -- V-ARI-22
theorem test_rem_overflow : faults 0x24000000#32 [0xFFFFFFFF#32, 0x80000000#32] .divideOverflow 4096 = true := by decide  -- V-ARI-25
theorem test_and : leaves 0x25000000#32 [10, 12] [8] = true := by decide  -- V-ARI-26
theorem test_or : leaves 0x26000000#32 [10, 12] [14] = true := by decide  -- V-ARI-28
theorem test_xor : leaves 0x27000000#32 [10, 12] [6] = true := by decide  -- V-ARI-29
theorem test_lsl_31 : leaves 0x28000000#32 [31, 1] [0x80000000#32] = true := by decide  -- V-ARI-32
theorem test_lsl_out_of_range : faults 0x28000000#32 [0xFFFFFFFF#32, 1] .shiftOutOfRange 4096 = true := by decide  -- V-ARI-35
theorem test_lsr_zeros : leaves 0x29000000#32 [5, 0xFFFFFFFF#32] [0x07FFFFFF#32] = true := by decide  -- V-ARI-38
theorem test_lsr_out_of_range : faults 0x29000000#32 [32, 5] .shiftOutOfRange 4096 = true := by decide  -- V-ARI-39
theorem test_asr_bit28 : leaves 0x2B000000#32 [4, 0x0F000000#32] [0x10F00000#32] = true := by decide  -- V-ARI-43
theorem test_asr_negative : leaves 0x2B000000#32 [4, 0x80000000#32] [0xF8000000#32] = true := by decide  -- V-ARI-44
theorem test_neg : leaves 0x30000000#32 [15] [0xFFFFFFF1#32] = true := by decide  -- V-ARI-47
theorem test_neg_smallest : leaves 0x30000000#32 [0x80000000#32] [0x80000000#32] = true := by decide  -- V-ARI-49
theorem test_not : leaves 0x31000000#32 [5] [0xFFFFFFFA#32] = true := by decide  -- V-ARI-52
theorem test_not_empty : leaves 0x31000000#32 [] [0xFFFFFFFF#32] = true := by decide  -- V-ARI-55

/-- V-FLT-8: the other value of OVERFLOW_TRAPS. -/
theorem test_overflow_traps :
    ((binOp (addFn true) (vector 0x20000000#32 [1, 0x7FFFFFFF#32])).thenAdvance |> after).map (·.status) =
      some (.faulted .arithmeticOverflow 0) := by decide

/-! ## Output -/

theorem test_print_decimal : emits 0xD0000000#32 [0xFFFFFFF1#32] [.printValue .decimal 0xFFFFFFF1#32] = true := by decide  -- V-OUT-3
theorem test_print_negative_address : faults 0xD8000000#32 [5] (.addressFault (-134213636)) 4092 = true := by decide  -- V-OUT-9
theorem test_dump : emits 0xE0000000#32 [3, 5] [.dumpLine 4088 3, .dumpLine 4092 5] = true := by decide  -- V-OUT-10
theorem test_dump_last_bytes :
    (after (step { vector 0xE0000000#32 [5] with sp := 4094 })).map (·.out) = some [.dumpLine 4094 0] := by decide  -- V-OUT-12
theorem test_stprint_hello :
    emits 0x40000000#32 [0x016C6568#32, 0x00016F6C#32] ((text "hello").map .char) = true := by decide  -- V-OUT-13
theorem test_stprint_end_of_memory : emits 0x40000000#32 [0x01434241#32] ((text "ABC").map .char) = true := by decide  -- V-OUT-15

/-- The rendered texts of V-OUT-2 to V-OUT-5 and V-OUT-10. -/
theorem test_render :
    renderEvent (.printValue .hex 0xFFFFFFF1#32) = text "0xfffffff1\n" ∧ renderEvent (.printValue .decimal 0xFFFFFFF1#32) = text "-15\n" ∧
    renderEvent (.printValue .binary 5) = text "0b101\n" ∧ renderEvent (.printValue .octal 8) = text "0o10\n" ∧
    renderOut [.dumpLine 4088 3, .char 65] = text "ff8: 3\nA" := by decide

/-! ## Control transfer -/

theorem test_call : run1 1 (vectorAt4 0x5000000C#32 []) = some ⟨.running, 4092, 16, [8]⟩ := by decide  -- V-CTL-1
theorem test_call_below_zero :
    run1 1 (vectorAt4 0x5FFFFFF8#32 []) = some ⟨.faulted (.pcOutOfRange (-4)) 4, 4092, 4, [8]⟩ := by decide  -- V-CTL-2
theorem test_return_drops : run1 0 (vector 0x60000004#32 [0x99, 8]) = some ⟨.running, 4096, 8, []⟩ := by decide  -- V-CTL-4
theorem test_return_negative_sp : faults 0x68000000#32 [] (.addressFault (-134213632)) (-134213632) = true := by decide  -- V-CTL-10
theorem test_goto_back : run1 0 (vectorAt4 0x7FFFFFFC#32 []) = some ⟨.running, 4096, 0, []⟩ := by decide  -- V-CTL-11
theorem test_goto_below_zero :
    run1 0 (vectorAt4 0x7FFFFFF8#32 []) = some ⟨.faulted (.pcOutOfRange (-4)) 4, 4096, 4, []⟩ := by decide  -- V-CTL-12

/-! The tables of BinaryIf (columns l, r = 3, 4 and 4, 3; the stack is r, l) and UnaryIf outcomes. -/

theorem test_ifeq : goesTo 0x80000008#32 [7, 7] 8 = true ∧ goesTo 0x80000008#32 [4, 3] 4 = true := by decide
theorem test_ifne : goesTo 0x82000008#32 [7, 7] 4 = true ∧ goesTo 0x82000008#32 [4, 3] 8 = true := by decide
theorem test_iflt : goesTo 0x84000008#32 [4, 3] 8 = true ∧ goesTo 0x84000008#32 [1, 0xFFFFFFFF#32] 8 = true := by decide
theorem test_ifgt : goesTo 0x86000008#32 [3, 4] 8 = true ∧ goesTo 0x86000008#32 [1, 0xFFFFFFFF#32] 4 = true := by decide
theorem test_ifle : goesTo 0x88000008#32 [7, 7] 8 = true ∧ goesTo 0x88000008#32 [3, 4] 4 = true := by decide
theorem test_ifge : goesTo 0x8A000008#32 [7, 7] 8 = true ∧ goesTo 0x8A000008#32 [4, 3] 4 = true := by decide
theorem test_ifrsv : goesTo 0x8C000008#32 [7, 7] 4 = true ∧ goesTo 0x8E000008#32 [3, 4] 4 = true := by decide
theorem test_ifez : goesTo 0x90000008#32 [0] 8 = true ∧ goesTo 0x90000008#32 [2] 4 = true := by decide
theorem test_ifnz : goesTo 0x92000008#32 [0] 4 = true ∧ goesTo 0x92000008#32 [0xFFFFFFFF#32] 8 = true := by decide
theorem test_ifmi : goesTo 0x94000008#32 [0xFFFFFFFF#32] 8 = true ∧ goesTo 0x94000008#32 [1] 4 = true := by decide
theorem test_ifpl : goesTo 0x96000008#32 [1] 8 = true ∧ goesTo 0x96000008#32 [0] 4 = true := by decide
theorem test_branch_below_zero :
    run1 2 (vectorAt4 0x80FFFFF0#32 [7, 7]) = some ⟨.faulted (.pcOutOfRange (-12)) 4, 4088, 4, [7, 7]⟩ := by decide  -- V-CTL-14

/-! ## Witnesses: for each statement with hypotheses, a state and operands that meet them, at the ends of their ranges -/

/-- A core about to execute its word at the last address below the boundary, with the least SP that R46 allows: boundary 4, PC 0,
SP 5 (R46). -/
def atFetch (w : Word) : State := { regs 5 0 4 with mem := Memory.writeWord [] 0 w }

theorem test_witness_atFetch : (atFetch 0x02000000#32).AtFetch ∧ (regs 4096 4091 4092).AtFetch := by
  unfold State.AtFetch; decide

theorem test_witness_inv : (atFetch 0x70000000#32).Inv := ⟨by decide, by decide, by decide, by decide, by decide, by decide⟩

theorem test_witness_DecodeOfEncode :
    (Instr.goto (-134217728)).wellFormed = true ∧ (Instr.swap (-8192) 8188).wellFormed = true ∧
    (Instr.push 0xF8000000#32).wellFormed = true ∧ (Instr.ifrsv .rsv7 8388604).wellFormed = true := by decide

theorem test_witness_DecodedOperandsInRange : decode 0x80800000#32 = .ok (.ifeq (-8388608)) := by decide

theorem test_witness_OpcodeTable :
    decode 0x99FFFFFF#32 = .ok (.ifez (-4)) ∧ decode 0x2C000000#32 = .error (.unmappedBinary 12) ∧
    (Instr.ifez 0).row.selects 0x99FFFFFF#32 = true ∧ (Instr.ifez (-4)).row.selects 0x99FFFFFF#32 = true := by decide

/-- Different words for each clause, in order. -/
theorem test_witness_IgnoredBits :
    (0x0F000000#32).toNat / 2 ^ 24 = (0x0FFFFFFF#32).toNat / 2 ^ 24 ∧ (0x0F000000#32).toNat / 2 ^ 24 ∈ [0x02, 0x04, 0x0F] ∧
    (0x2BFFFFFF#32).toNat / 2 ^ 24 = (0x2B000000#32).toNat / 2 ^ 24 ∧ (0x2BFFFFFF#32).toNat / 2 ^ 28 ∈ [0x2, 0x3] ∧
    (0x00FFFF07#32).toNat / 2 ^ 24 = 0 ∧ (0x00FFFF07#32).toNat % 2 ^ 8 = (0x00000007#32).toNat % 2 ^ 8 ∧
    (0xC0000007#32).toNat / 2 ^ 28 ∈ [0x4, 0x5, 0x6, 0x7, 0xC] ∧ (0xC0000007#32).toNat / 4 = (0xC0000004#32).toNat / 4 ∧
    (0x8100000B#32).toNat / 2 ^ 28 = 0x8 ∧ (0x8100000B#32).toNat / 2 ^ 25 = (0x80000008#32).toNat / 2 ^ 25 ∧
    (0x8100000B#32).toNat / 4 % 2 ^ 22 = (0x80000008#32).toNat / 4 % 2 ^ 22 ∧
    (0x9900000B#32).toNat / 2 ^ 28 = 0x9 ∧ (0x9900000B#32).toNat / 2 ^ 25 % 4 = (0x90000008#32).toNat / 2 ^ 25 % 4 ∧
    (0x9900000B#32).toNat / 4 % 2 ^ 22 = (0x90000008#32).toNat / 4 % 2 ^ 22 ∧
    (0xEFFFFFFF#32).toNat / 2 ^ 28 = 0xE ∧ (0xE0000000#32).toNat / 2 ^ 28 = 0xE := by decide

theorem test_witness_LittleEndian : (4092 : Nat) ≤ 4092 ∧ s32 (regs 4096 4092 4092).pc = 4092 := by decide

theorem test_witness_AccessGuards :
    (-1 : Int) < 0 ∧ (4092 : Int) < 4093 ∧ (4092 : Nat) ≤ 4092 ∧ (4095 : Int) < 4096 ∧ (4095 : Nat) ≤ 4095 := by decide

theorem test_witness_PushStores :
    0 ≤ s32 (regs 4 0 4).sp ∧ s32 (regs 4 0 4).sp ≤ 4096 ∧ 4 ≤ s32 (regs 4 0 4).sp ∧
    0 ≤ s32 (regs 3 0 4).sp ∧ s32 (regs 3 0 4).sp ≤ 4096 ∧ s32 (regs 3 0 4).sp < 4 := by decide

theorem test_witness_PopReads :
    0 ≤ s32 (regs 4092 0 4).sp ∧ s32 (regs 4092 0 4).sp ≤ 4092 ∧ 4092 < s32 (regs 4093 0 4).sp ∧ s32 (regs (-1) 0 4).sp < 0 := by decide

/-- X-8 with the least room: three words at SP = 12. -/
theorem test_witness_PushedWords :
    (∀ v ∈ ([1, 2, 0xF8000000#32] : List Word), storedForm v = v) ∧
    4 * ((([1, 2, 0xF8000000#32] : List Word).length : Nat) : Int) ≤ s32 (regs 12 0 4).sp ∧ s32 (regs 12 0 4).sp ≤ 4096 :=
  ⟨by simp [storedForm], by decide, by decide⟩

theorem test_witness_Load :
    State.reset.started = false ∧ (∃ bs : List Byte, bs.length = 4096) ∧ ∃ bs : List Byte, bs.length = 4097 :=
  ⟨rfl, ⟨.replicate 4096 1, List.length_replicate⟩, ⟨.replicate 4097 1, List.length_replicate⟩⟩

theorem test_witness_RunStart :
    Memory.wf [(8, 7)] = true ∧ (∀ a, a < 4096 → Memory.read [] a = 0) ∧ Memory.read [(8, 7)] 8 ≠ 0 ∧
    (∀ x, 8 < x → x < 4096 → Memory.read [(8, 7)] x = 0) ∧ State.reset.started = false :=
  ⟨by decide, fun _ _ => rfl, by decide, fun x h _ => by simp [Memory.read]; omega, rfl⟩

theorem test_witness_StepRuns :
    (atFetch 0x2B000000#32).AtFetch ∧
    decode ((atFetch 0x2B000000#32).mem.wordOrZero (s32 (atFetch 0x2B000000#32).pc)) = .ok .asr ∧ Instr.asr.wellFormed = true := by
  unfold State.AtFetch; decide

theorem test_witness_Unrecognized :
    (atFetch 0x2C000000#32).AtFetch ∧
    decode ((atFetch 0x2C000000#32).mem.wordOrZero (s32 (atFetch 0x2C000000#32).pc)) = .error (.unmappedBinary 12) := by
  unfold State.AtFetch; decide

theorem test_witness_HaltChecks :
    (regs 8 0 8).status = .running ∧ (regs 8 0 8).started = true ∧ s32 (regs 8 0 8).sp ≤ (regs 8 0 8).boundary ∧
    ((regs 9 8 8).boundary : Int) < s32 (regs 9 8 8).sp ∧ ((regs 9 8 8).boundary : Int) ≤ s32 (regs 9 8 8).pc ∧
    { regs 9 8 8 with status := .codeOverrun }.status ≠ .running := by decide

/-- A step to each of the three ends. -/
theorem test_witness_Termination :
    step (atFetch 0x00000007#32) = .next { atFetch 0x00000007#32 with status := .exited 7 } ∧
    decode ((atFetch 0x00000007#32).mem.wordOrZero (s32 (atFetch 0x00000007#32).pc)) = .ok (.exit 7) ∧
    step (regs 8 8 8) = .next { regs 8 8 8 with status := .stackOverrun } ∧
    step (regs 9 8 8) = .next { regs 9 8 8 with status := .codeOverrun } := ⟨rfl, by decide, rfl, rfl⟩

theorem test_witness_EngineAdvances :
    setsPcItself .nop = false ∧ (regs 4096 4091 4092).status = .running ∧
    exec .nop (regs 4096 4091 4092) = .next (advancePc (regs 4096 4091 4092)) ∧ (advancePc (regs 4096 4091 4092)).status = .running :=
  ⟨rfl, rfl, rfl, rfl⟩

/-- A goto, a call and a branch that is taken, each from a state at a fetch that has the invariant. -/
theorem test_witness_Targets :
    (atFetch 0x70000000#32).AtFetch ∧ (atFetch 0x70000000#32).Inv ∧
    decode ((atFetch 0x70000000#32).mem.wordOrZero (s32 (atFetch 0x70000000#32).pc)) = .ok (.goto 0) ∧
    (after (step (atFetch 0x70000000#32))).map (·.status) = some .running ∧
    decode ((atFetch 0x50000FA0#32).mem.wordOrZero (s32 (atFetch 0x50000FA0#32).pc)) = .ok (.call 4000) ∧
    (after (step (atFetch 0x50000FA0#32))).map (·.status) = some .running ∧
    decode ((atFetch 0x8C000008#32).mem.wordOrZero (s32 (atFetch 0x8C000008#32).pc)) = .ok (.ifrsv .rsv6 8) ∧
    (after (step (atFetch 0x8C000008#32))).map (·.status) = some .running :=
  ⟨by unfold State.AtFetch; decide, test_witness_inv, by decide, by decide, by decide, by decide, by decide, by decide⟩

/-- Div on an all-zero memory, at SP = 5 and PC = 4091. -/
theorem test_witness_Faults :
    (regs 5 4091 4).status = .running ∧ 5 ≤ s32 (regs 5 4091 4).sp ∧ s32 (regs 5 4091 4).sp ≤ 4096 ∧ 0 ≤ s32 (regs 5 4091 4).pc ∧
    s32 (regs 5 4091 4).pc ≤ 4091 ∧
    (after (exec .div (regs 5 4091 4))).map (·.status) = some (.faulted .divideByZero (w32 4091)) := by decide

theorem test_witness_StepKeepsInv :
    (atFetch 0x70000000#32).Inv ∧ (after (step (atFetch 0x70000000#32))).isSome = true := ⟨test_witness_inv, by decide⟩

theorem test_witness_LogsGrow :
    (after (step (atFetch 0x2C000000#32))).isSome = true ∧ (after (step State.reset)).isSome = true := by decide

theorem test_witness_OnlyWriters :
    writesMemory .dump = false ∧ (after (exec .dump (regs 0 0 4))).isSome = true ∧ writesMemory (.ret 0) = false := by decide

theorem test_witness_Swap :
    0 ≤ s32 (regs 8 0 4).sp + (-8) ∧ s32 (regs 8 0 4).sp + (-8) ≤ 4095 ∧
    0 ≤ s32 (regs 8 0 4).sp + 4087 ∧ s32 (regs 8 0 4).sp + 4087 ≤ 4095 := by decide

theorem test_witness_Input :
    4 ≤ s32 (regs 4 0 4).sp ∧ s32 (regs 4 0 4).sp ≤ 4096 ∧ { regs 4 0 4 with input := [[53], [54]] }.input = [53] :: [[54]] ∧
    (regs 4 0 4).input = [] ∧ (regs 4 0 4).inputEnded = true := by decide

/-- A text in range and one out of it: "0X-fF" spells -255 and "0b2" nothing; " 0" and a line feed trims to "0". -/
theorem test_witness_SpellsInput :
    SpellsInput [48, 88, 45, 102, 70] (-255) ∧ (∀ n, ¬ SpellsNat 2 [50] n) ∧ Trimmed [32, 48, 10] [48] := by
  refine ⟨.inl ⟨_, .inr rfl, 255, .inr ⟨rfl, _, rfl, by simp, [15, 15], ?_, rfl⟩⟩, ?_, ⟨[32], [10], rfl, by decide⟩, by decide⟩
  · exact .cons (by unfold IsDigit; decide) (.cons (by unfold IsDigit; decide) .nil)
  · rintro n ⟨_, vs, h, _⟩
    cases h with
    | cons hd _ => obtain ⟨h1, h2⟩ := hd; simp at h2; omega

/-- V-MISC-24's line with the least room for its two words, SP = 8; and the end of input with SP = 4. -/
theorem test_witness_StInputPushes :
    { regs 8 0 4 with input := [text "abcd\n"] }.input = text "abcd\n" :: [] ∧
    [0x01636261#32, 0x00010164#32] = (if trim (text "abcd\n") = [] then [0] else packHead ((trim (text "abcd\n")).take 16777215)) ∧
    4 * (([0x01636261#32, 0x00010164#32].length : Nat) : Int) ≤ s32 (regs 8 0 4).sp ∧ s32 (regs 8 0 4).sp ≤ 4096 ∧
    (regs 4 0 4).input = [] ∧ (regs 4 0 4).inputEnded = true ∧ 4 ≤ s32 (regs 4 0 4).sp := by decide

/-- The same line with room for one of its two words. -/
theorem test_witness_StInputFaults :
    { regs 7 0 4 with input := [text "abcd\n"] }.input = text "abcd\n" :: [] ∧ 0 ≤ s32 (regs 7 0 4).sp ∧ s32 (regs 7 0 4).sp ≤ 4096 ∧
    ((1 : Nat) : Int) = s32 (regs 7 0 4).sp / 4 ∧ 1 < (stInputWords 16777215 (text "abcd\n")).length := by decide

theorem test_witness_InputWaits :
    { regs 4 0 4 with inputEnded := false }.input = [] ∧ { regs 4 0 4 with inputEnded := false }.inputEnded = false := by decide

theorem test_witness_Packing : 1 < (packHead (text "abcd")).length := by decide

theorem test_witness_StPrintPrints :
    { regs 8 0 4 with input := [text "abcd\n"] }.input = text "abcd\n" :: [] ∧ text "abcd" = (trim (text "abcd\n")).take 5 ∧
    text "abcd" ≠ [] ∧ (∀ b ∈ text "abcd", b ≠ 0 ∧ b ≠ 1) ∧ 4 * ((((text "abcd").length + 2) / 3 : Nat) : Int) ≤ s32 (regs 8 0 4).sp ∧
    s32 (regs 8 0 4).sp ≤ 4096 := by decide

/-- The least and the greatest SP of the range: for PopRaisesSp and every statement whose only hypothesis is SpInRange. -/
theorem test_witness_SpInRange : (regs 0 0 4).SpInRange ∧ (regs 4096 0 4).SpInRange := by unfold State.SpInRange; decide

theorem test_witness_PushAndDup :
    4 ≤ s32 (regs 4 0 4).sp ∧ s32 (regs 4 0 4).sp ≤ 4096 ∧ (Instr.push 0xF8000000#32).wellFormed = true ∧
    0 ≤ s32 (regs 4 0 4).sp + (-4) := by decide

theorem test_witness_PushWithoutRoom :
    0 ≤ s32 (regs 0 0 4).sp ∧ s32 (regs 3 0 4).sp < 4 ∧ 0 ≤ s32 (regs 3 0 4).sp ∧ 0 ≤ s32 (regs 3 0 4).sp + (-3) ∧
    { regs 3 0 4 with input := [[53]] }.input = [53] :: [] := by decide

/-- One past the largest result, one past the smallest, and the two ends themselves. -/
theorem test_witness_OverflowTraps :
    2147483647 < s32 0x7FFFFFFF#32 + s32 1#32 ∧ s32 0x80000000#32 - s32 1#32 < -2147483648 ∧
    s32 0x7FFFFFFF#32 + s32 0#32 ≤ 2147483647 ∧ -2147483648 ≤ s32 0xC0000000#32 * s32 2#32 := by decide

/-- -2^31 by 1, from the two words on top of a stack. -/
theorem test_witness_DivRem :
    (vector 0 [1, 0x80000000#32]).SpInRange ∧ s32 (vector 0 [1, 0x80000000#32]).rightOperand ≠ 0 ∧
    ¬ (s32 (vector 0 [1, 0x80000000#32]).leftOperand = -2147483648 ∧ s32 (vector 0 [1, 0x80000000#32]).rightOperand = -1) := by
  unfold State.SpInRange; decide

theorem test_witness_Shifts :
    (vector 0 [31, 1]).SpInRange ∧ u32 (vector 0 [31, 1]).rightOperand < 32 := by unfold State.SpInRange; decide

theorem test_witness_ArithmeticFaults :
    (regs 4096 0 4).SpInRange ∧ s32 (regs 4096 0 4).rightOperand = 0 ∧
    (vector 0 [0xFFFFFFFF#32, 0x80000000#32]).SpInRange ∧ s32 (vector 0 [0xFFFFFFFF#32, 0x80000000#32]).leftOperand = -2147483648 ∧
    s32 (vector 0 [0xFFFFFFFF#32, 0x80000000#32]).rightOperand = -1 ∧
    (vector 0 [32, 1]).SpInRange ∧ 32 ≤ u32 (vector 0 [32, 1]).rightOperand := by unfold State.SpInRange; decide

theorem test_witness_AsrOfStoredWord : (31 : Nat) < 32 := by decide

/-- For StPrint: an address in range with a string that ends at a zero byte, and one that ends at address 4095. -/
theorem test_witness_StPrint :
    0 ≤ s32 (vector 0 [0x00014241#32]).sp + 0 ∧
    (∀ k (h : k < [65, 66, (1 : Byte)].length), s32 (vector 0 [0x00014241#32]).sp + 0 + k ≤ 4095 ∧ [65, 66, (1 : Byte)][k] ≠ 0 ∧
      (vector 0 [0x00014241#32]).mem.read ((s32 (vector 0 [0x00014241#32]).sp + 0).toNat + k) = [65, 66, (1 : Byte)][k]) ∧
    (vector 0 [0x00014241#32]).mem.read ((s32 (vector 0 [0x00014241#32]).sp + 0).toNat + [65, 66, (1 : Byte)].length) = 0 ∧
    4095 < s32 (vector 0 [0x42414241#32]).sp + 0 + ([65, 66, 65, (66 : Byte)].length : Nat) := by decide

theorem test_witness_PrintEmits : 0 ≤ s32 (regs 4 0 4).sp + (-4) := by decide

/-- Below 0 by one; above 4095 by one; a first address at either end with a second outside. -/
theorem test_witness_NegativeAddress :
    s32 (regs 3 0 4).sp + (-4) < 0 ∧ 4095 < s32 (regs 4092 0 4).sp + 4 ∧ 0 ≤ s32 (regs 4 0 4).sp + (-4) ∧
    s32 (regs 4 0 4).sp + (-4) ≤ 4095 ∧ s32 (regs 4 0 4).sp + (-8) < 0 := by decide

/-- One word of each format. -/
theorem test_witness_PrintFormat :
    ([0xD0000000#32, 0xD0000005#32, 0xDFFFFFFE#32, 0xD8000003#32].map fun w : Word => (w.toNat / 2 ^ 28, w.toNat % 4)) =
      [(0xD, 0), (0xD, 1), (0xD, 2), (0xD, 3)] := by decide

theorem test_witness_Call :
    4 ≤ s32 (regs 4 4091 4).sp ∧ s32 (regs 4 4091 4).sp ≤ 4096 ∧ 0 ≤ s32 (regs 4 4091 4).pc ∧ s32 (regs 4 4091 4).pc ≤ 4091 ∧
    0 ≤ s32 (regs 4 4091 4).pc + (-4088) ∧ (Instr.call (-4088)).wellFormed = true := by decide

theorem test_witness_Return :
    (regs 4 0 4).SpInRange ∧ (Instr.ret (-4)).wellFormed = true ∧ 0 ≤ s32 (regs 4 0 4).sp + (-4) ∧
    0 ≤ s32 ((regs 4 0 4).mem.wordOrZero (min (s32 (regs 4 0 4).sp + (-4)) 4096)) := by unfold State.SpInRange; decide

theorem test_witness_ReturnFaults :
    (regs 3 0 4).SpInRange ∧ (Instr.ret (-4)).wellFormed = true ∧ s32 (regs 3 0 4).sp + (-4) < 0 ∧
    (vector 0 [0xFFFFFFFF#32]).SpInRange ∧ (Instr.ret 0).wellFormed = true ∧ 0 ≤ s32 (vector 0 [0xFFFFFFFF#32]).sp + 0 ∧
    s32 ((vector 0 [0xFFFFFFFF#32]).mem.wordOrZero (min (s32 (vector 0 [0xFFFFFFFF#32]).sp + 0) 4096)) < 0 := by
  unfold State.SpInRange; decide

theorem test_witness_Goto :
    0 ≤ s32 (regs 4 4 4).pc ∧ s32 (regs 4 4 4).pc ≤ 4091 ∧ (Instr.goto (-4)).wellFormed = true ∧ 0 ≤ s32 (regs 4 4 4).pc + (-4) := by
  decide

/-- For BinaryIfsCompareTopWords and UnaryIfsTestTopWord: a target of 0 from a PC of 4, with -1 below 1. -/
theorem test_witness_Ifs :
    (vectorAt4 0 [1, 0xFFFFFFFF#32]).SpInRange ∧
    (-1 : Int) = s32 ((vectorAt4 0 [1, 0xFFFFFFFF#32]).mem.wordOrZero (s32 (vectorAt4 0 [1, 0xFFFFFFFF#32]).sp + 4)) ∧
    (1 : Int) = s32 ((vectorAt4 0 [1, 0xFFFFFFFF#32]).mem.wordOrZero (s32 (vectorAt4 0 [1, 0xFFFFFFFF#32]).sp)) ∧
    0 ≤ s32 (vectorAt4 0 [1, 0xFFFFFFFF#32]).pc + (-4) := by unfold State.SpInRange; decide

theorem test_witness_NegativeTarget :
    (vectorAt4 0 [1, 0xFFFFFFFF#32]).SpInRange ∧ s32 (vectorAt4 0 [1, 0xFFFFFFFF#32]).pc + (-8) < 0 ∧
    (-1 : Int) = s32 ((vectorAt4 0 [1, 0xFFFFFFFF#32]).mem.wordOrZero (s32 (vectorAt4 0 [1, 0xFFFFFFFF#32]).sp + 4)) ∧
    (1 : Int) = s32 ((vectorAt4 0 [1, 0xFFFFFFFF#32]).mem.wordOrZero (s32 (vectorAt4 0 [1, 0xFFFFFFFF#32]).sp)) ∧
    (regs 4 0 4).SpInRange ∧ 4 ≤ s32 (regs 4 0 4).sp ∧ s32 (regs 4 0 4).pc + (-4) < 0 := by unfold State.SpInRange; decide

theorem test_witness_NegativeSp :
    s32 (regs (-1) 0 4).sp < 0 ∧ Instr.ifpl 8 ∈ [Instr.add, .ret 0, .ifpl 8] := by decide

end Sys2Proof.Tests
end

section
/-! PROOFS. Memory (20_memory.md): the byte order of words, from the bytes of one word up to the guarded accesses. -/

namespace Sys2Proof.Machine

/-! ## The bytes of a word as bit fields -/

theorem extractLsb'_eq_byteOf (v : Word) (k : Nat) : v.extractLsb' (8 * k) 8 = byteOf v k := by
  apply BitVec.eq_of_toNat_eq
  simp only [BitVec.extractLsb'_toNat, byteOf, BitVec.toNat_ofNat, Nat.shiftRight_eq_div_pow]

theorem byteOf_wordOfBytes (b0 b1 b2 b3 : Byte) :
    byteOf (wordOfBytes b0 b1 b2 b3) 0 = b0 ∧ byteOf (wordOfBytes b0 b1 b2 b3) 1 = b1 ∧
    byteOf (wordOfBytes b0 b1 b2 b3) 2 = b2 ∧ byteOf (wordOfBytes b0 b1 b2 b3) 3 = b3 := by
  have h0 := b0.isLt
  have h1 := b1.isLt
  have h2 := b2.isLt
  have h3 := b3.isLt
  refine ⟨?_, ?_, ?_, ?_⟩ <;> apply BitVec.eq_of_toNat_eq <;>
    simp only [wordOfBytes, byteOf, BitVec.toNat_ofNat] <;> omega

/-! ## Words in memory -/

/-- Byte `k` of the word at `a` is the byte at `a + k`, byte 0 being bits 7:0 (R61, R62). -/
theorem Memory.extractLsb'_wordAt (m : Memory) (a : Nat) {k : Nat} (hk : k < 4) :
    (m.wordAt a).extractLsb' (8 * k) 8 = m.read (a + k) := by
  obtain ⟨h0, h1, h2, h3⟩ := byteOf_wordOfBytes (m.read a) (m.read (a + 1)) (m.read (a + 2)) (m.read (a + 3))
  rw [extractLsb'_eq_byteOf, Memory.wordAt]
  match k, hk with
  | 0, _ => exact h0
  | 1, _ => exact h1
  | 2, _ => exact h2
  | 3, _ => exact h3

/-- The word just written is the word at `a`, so its bytes lie where a word read takes them from (R61, R64). -/
theorem Memory.read_writeWord_byte (m : Memory) (a : Nat) (v : Word) {k : Nat} (hk : k < 4) :
    (m.writeWord a v).read (a + k) = v.extractLsb' (8 * k) 8 := by
  rw [← Memory.extractLsb'_wordAt _ a hk, Memory.wordAt_writeWord]

/-! ## The guarded accesses in range -/

theorem peek_of_le {m : Memory} {a : Nat} (ha : a ≤ 4092) : peek m a = .ok (m.wordAt a) := by
  rw [peek_of_nonneg (Int.natCast_nonneg a), Memory.wordOrZero, if_neg (by omega), Int.toNat_natCast]

theorem poke_of_le {m : Memory} {a : Nat} {v : Word} (ha : a ≤ 4092) : poke m a v = .ok (m.writeWord a v) := by
  rcases poke_cases m a v with ⟨hout, _⟩ | ⟨_, _, hok⟩
  · omega
  · exact hok

/-- The word that a read in range gives, byte by byte. -/
theorem peek_littleEndian (m : Memory) {a : Nat} (ha : a ≤ 4092) :
    ∃ v, peek m a = .ok v ∧ v.extractLsb' 0 8 = m.read a ∧ v.extractLsb' 8 8 = m.read (a + 1) ∧
      v.extractLsb' 16 8 = m.read (a + 2) ∧ v.extractLsb' 24 8 = m.read (a + 3) :=
  have hbyte (k : Nat) (hk : k < 4) := m.extractLsb'_wordAt a hk
  ⟨m.wordAt a, peek_of_le ha, hbyte 0 (by decide), hbyte 1 (by decide), hbyte 2 (by decide), hbyte 3 (by decide)⟩

/-- The memory that a write in range leaves, byte by byte. -/
theorem poke_littleEndian (m : Memory) {a : Nat} (v : Word) (ha : a ≤ 4092) :
    ∃ m', poke m a v = .ok m' ∧ m'.read a = v.extractLsb' 0 8 ∧ m'.read (a + 1) = v.extractLsb' 8 8 ∧
      m'.read (a + 2) = v.extractLsb' 16 8 ∧ m'.read (a + 3) = v.extractLsb' 24 8 :=
  have hbyte (k : Nat) (hk : k < 4) := m.read_writeWord_byte a v hk
  ⟨m.writeWord a v, poke_of_le ha, hbyte 0 (by decide), hbyte 1 (by decide), hbyte 2 (by decide), hbyte 3 (by decide)⟩

/-- Settles O7: a word read takes its bytes in rising order, a write puts them back so, and a fetch is the word read at PC. -/
theorem wordsAreLittleEndian : Obligations.WordsAreLittleEndian := by
  refine ⟨fun m a => peek_littleEndian m, fun m a v => poke_littleEndian m v, fun s a ha hpc => ?_⟩
  rw [fetch, hpc]
  exact peek_littleEndian s.mem ha

end Sys2Proof.Machine
end

section
/-! PROOFS. Encoding (30_encoding.md): Print's word, its format field, and how its output text begins. -/

namespace Sys2Proof.Machine

/-! ## The decoder on Print's opcode -/

theorem decode_of_print_opcode {w : Word} (h : w.toNat / 2 ^ 28 = 0xD) :
    decode w = .ok (.print (rel28 w.toNat) (printFormat w.toNat)) := by
  have hop : field 31 28 w.toNat = 0xD := by
    simp only [field]
    omega
  simp only [decode, decodeNat, hop]

/-- The decoder's format is the one whose two bits (`PrintFormat.bits`, the encoder's side) are the word's (R100). -/
theorem printFormat_of_mod_four {w : Nat} (f : PrintFormat) (h : w % 4 = f.bits) : printFormat w = f := by
  have hfield : field 1 0 w = f.bits := by simpa [field] using h
  cases f <;> simp only [printFormat, hfield, PrintFormat.bits]

/-! ## The head of the printed text -/

/-- What the text of a printed value begins with, as R100 gives it: nothing, "0x", "0b" or "0o". -/
def radixPrefix : PrintFormat → List Byte
  | .decimal => []
  | .hex => [48, 120]
  | .binary => [48, 98]
  | .octal => [48, 111]

theorem radixPrefix_prefix_renderEvent (f : PrintFormat) (v : Word) : radixPrefix f <+: renderEvent (.printValue f v) := by
  cases f with
  | decimal => exact List.nil_prefix
  | hex | binary | octal =>
    rw [renderEvent, List.append_assoc]
    exact List.prefix_append _ _

/-- The low two bits of a word fix its format, and with it how every value printed in it begins. -/
theorem printFormat_and_prefix {w : Nat} (f : PrintFormat) (h : w % 4 = f.bits) :
    printFormat w = f ∧ ∀ v, radixPrefix f <+: renderEvent (.printValue (printFormat w) v) := by
  rw [printFormat_of_mod_four f h]
  exact ⟨rfl, radixPrefix_prefix_renderEvent f⟩

/-- Settles O51: a word of opcode 0xD decodes to Print, its format by the case of bits 1:0 and the head of its text by the format. -/
theorem printFormatIsLowTwoBits : Obligations.PrintFormatIsLowTwoBits := fun _ hop =>
  ⟨_, _, decode_of_print_opcode hop, printFormat_of_mod_four .decimal, printFormat_and_prefix .hex,
    printFormat_and_prefix .binary, printFormat_and_prefix .octal⟩

end Sys2Proof.Machine
end

section
/-! PROOFS. The engine (40_engine.md): the advance of PC after an instruction, the PC that a step computes with, and Exit. -/

namespace Sys2Proof.Machine

/-! ## How an effect ends in a core that goes on -/

/-- A core that goes on after the engine's advance had no fault: the effect's PC is advanced (R138). -/
theorem Eff.thenAdvance_running {e : Eff Unit} {t : State} (h : e.thenAdvance = .next t) (hr : t.status = .running) :
    t = advancePc e.after := by
  rcases thenAdvance_of_after h with ht | ⟨k, rfl⟩
  · exact ht
  · simp at hr

/-- A core that goes on after an instruction that sets PC itself had no fault: its state is the effect's (R136). -/
theorem Eff.thenStay_running {e : Eff Unit} {t : State} (h : e.thenStay = .next t) (hr : t.status = .running) : e = .ok () t := by
  rcases Eff.thenStay_cases h with he | ⟨k, u, _, rfl⟩
  · exact he
  · simp at hr

theorem jumpPc_eq_ok {target : Int} {s t : State} (h : jumpPc target s = .ok () t) : t = s.setPc target := by
  rcases jumpPc_cases target s with ⟨_, he⟩ | ⟨_, he⟩ <;> rw [he] at h <;> cases h
  rfl

theorem branch_eq_ok {taken : Bool} {o : Int} {s t : State} (h : branch taken o s = .ok () t) :
    t = s.setPc (pcRel s o) ∨ t = advancePc s := by
  cases taken with
  | true => exact .inl (jumpPc_eq_ok h)
  | false => cases h; exact .inr rfl

/-! ## PC during an effect that the engine's advance follows (R138) -/

theorem readLine_pc {s u : State} {line : List Byte} (h : readLine eofAsEmpty s = some (line, u)) : u.pc = s.pc := by
  rcases readLine_cases s with ⟨l, rest, _, he⟩ | ⟨_, _, he⟩ | ⟨_, _, he⟩ <;> rw [he] at h <;> cases h <;> rfl

/-- Input answers a next state only with a line at hand, and then pushes the word it spells (R163). -/
theorem execInput_next {s t : State} (h : execInput s = .next t) :
    ∃ line u, readLine eofAsEmpty s = some (line, u) ∧ (push (parseInput (trim line)) u).thenAdvance = .next t := by
  unfold execInput at h
  split at h
  next line u hl => exact ⟨line, u, hl, h⟩
  next => cases h

/-- StInput answers a next state only with a line at hand, and then pushes its packed words (R165). -/
theorem execStInput_next {n : Nat} {s t : State} (h : execStInput n s = .next t) :
    ∃ line u, readLine eofAsEmpty s = some (line, u) ∧ (pushAll (stInputWords n line) u).thenAdvance = .next t := by
  unfold execStInput at h
  split at h
  next line u hl => exact ⟨line, u, hl, h⟩
  next => cases h

/-- An instruction that leaves PC to the engine is an effect that keeps PC, followed by the engine's advance (R138). -/
theorem exec_next_of_not_setsPcItself {i : Instr} {s t : State} (hi : setsPcItself i = false) (h : exec i s = .next t) :
    ∃ e : Eff Unit, e.thenAdvance = .next t ∧ e.after.pc = s.pc := by
  cases i with
  | exit | call | ret | goto | ifeq | ifne | iflt | ifgt | ifle | ifge | ifrsv | ifez | ifnz | ifmi | ifpl => cases hi
  | nop | debug => exact ⟨.ok () s, h, rfl⟩
  | add | sub | mul | div | rem | and | or | xor | lsl | lsr | asr => exact ⟨_, h, (binOp_sameButMemSp _ s).pc⟩
  | neg | not => exact ⟨_, h, (unOp_sameButMemSp _ s).pc⟩
  | swap a b => exact ⟨_, h, (swapBytes_sameButMemSp _ _ s).pc⟩
  | push v => exact ⟨_, h, (push_sameButMemSp v s).pc⟩
  | dup o =>
    exact ⟨_, h, (sameButMemSp_bind (by rw [Eff.after_lift]; rfl) fun v u => push_sameButMemSp v u).pc⟩
  | input =>
    obtain ⟨line, u, hl, hu⟩ := execInput_next h
    exact ⟨_, hu, (push_sameButMemSp _ u).pc.trans (readLine_pc hl)⟩
  | stinput n =>
    obtain ⟨line, u, hl, hu⟩ := execStInput_next h
    exact ⟨_, hu, (pushAll_sameButMemSp _ u).pc.trans (readLine_pc hl)⟩
  | pop n =>
    simp only [exec, execPop] at h
    split at h <;> exact ⟨_, h, rfl⟩
  | print o f =>
    refine ⟨_, h, ?_⟩
    cases peek s.mem (spRel s o) <;> rfl
  | stprint o =>
    simp only [exec, execStPrint] at h
    split at h <;> exact ⟨_, h, rfl⟩
  | dump =>
    simp only [exec, execDump] at h
    split at h
    · exact ⟨_, h, rfl⟩
    · split at h <;> exact ⟨_, h, rfl⟩

/-- Settles O19: such an instruction keeps PC while it runs, and the advance that follows it is R37's. -/
theorem engineAdvancesPc : Obligations.EngineAdvancesPc := by
  intro i s t hi _ h hr
  obtain ⟨e, he, hpc⟩ := exec_next_of_not_setsPcItself hi h
  rw [Eff.thenAdvance_running he hr, advancePc_pc, hpc]
  exact s32_w32_plusFour s.pc

/-! ## The offset of a decoded jump (R94) -/

/-- The offset of an instruction whose target is PC-relative (R131). -/
def jumpOffset : Instr → Option Int
  | .call o | .goto o | .ifeq o | .ifne o | .iflt o | .ifgt o | .ifle o | .ifge o | .ifrsv _ o | .ifez o | .ifnz o | .ifmi o
  | .ifpl o => some o
  | _ => none

theorem jumpOffset_decodeMisc {w : Nat} {i : Instr} (h : decodeMisc w = .ok i) : jumpOffset i = none := by
  unfold decodeMisc at h
  split at h <;> cases h <;> rfl

theorem jumpOffset_decodeBinary {w : Nat} {i : Instr} (h : decodeBinary w = .ok i) : jumpOffset i = none := by
  unfold decodeBinary at h
  split at h <;> cases h <;> rfl

theorem jumpOffset_decodeUnary {w : Nat} {i : Instr} (h : decodeUnary w = .ok i) : jumpOffset i = none := by
  unfold decodeUnary at h
  split at h <;> cases h <;> rfl

theorem jumpOffset_decodeBinaryIf (w : Nat) : jumpOffset (decodeBinaryIf w) = some (rel24 w) := by
  unfold decodeBinaryIf
  split <;> rfl

theorem jumpOffset_decodeUnaryIf (w : Nat) : jumpOffset (decodeUnaryIf w) = some (rel24 w) := by
  unfold decodeUnaryIf
  split <;> rfl

/-- A decoded instruction's PC-relative offset is the word's `rel28`, or its `rel24` where the condition takes bits (R94, R102). -/
theorem jumpOffset_decodeNat {w : Nat} {i : Instr} (h : decodeNat w = .ok i) :
    jumpOffset i = none ∨ jumpOffset i = some (rel28 w) ∨ jumpOffset i = some (rel24 w) := by
  unfold decodeNat at h
  split at h
  case h_1 => exact .inl (jumpOffset_decodeMisc h)
  case h_3 => exact .inl (jumpOffset_decodeBinary h)
  case h_4 => exact .inl (jumpOffset_decodeUnary h)
  case h_9 => cases h; exact .inr (.inr (jumpOffset_decodeBinaryIf w))
  case h_10 => cases h; exact .inr (.inr (jumpOffset_decodeUnaryIf w))
  case h_6 | h_8 => cases h; exact .inr (.inl rfl)
  all_goals cases h <;> exact .inl rfl

theorem rel28_range (w : Nat) : -134217728 ≤ rel28 w ∧ rel28 w ≤ 134217724 := by
  simp only [rel28, sext, field]
  split_ifs <;> omega

theorem rel24_range (w : Nat) : -8388608 ≤ rel24 w ∧ rel24 w ≤ 8388604 := by
  simp only [rel24, sext, field]
  split_ifs <;> omega

theorem decoded_jumpOffset_range {w : Word} {i : Instr} {o : Int} (h : decode w = .ok i) (ho : jumpOffset i = some o) :
    -134217728 ≤ o ∧ o ≤ 134217724 := by
  have h28 := rel28_range w.toNat
  have h24 := rel24_range w.toNat
  rcases jumpOffset_decodeNat h with hn | hs | hs
  · simp [hn] at ho
  · obtain rfl : rel28 w.toNat = o := by simpa [hs] using ho
    exact h28
  · obtain rfl : rel24 w.toNat = o := by simpa [hs] using ho
    omega

/-! ## A step at a fetch (R46, R131) -/

/-- At a fetch the step executes the instruction in the state it was fetched from, PC and all (R131). -/
theorem step_eq_exec_of_atFetch {s : State} {i : Instr} (h : s.AtFetch) (hd : decode (s.mem.wordOrZero (s32 s.pc)) = .ok i) :
    step s = exec i s := by
  obtain ⟨hrun, hstarted, hpc, hpcb, hbsp, _⟩ := h
  have hbegin : beginRun s = s := by simp [beginRun, hstarted]
  have hcycle : planCycle s = .run i s := by
    simp only [planCycle, haltCheck_none.mpr ⟨hbsp, hpcb⟩, fetch_of_nonneg hpc, hd]
  simp only [step, plan, hrun, hbegin, hcycle]

/-- The invariant's aligned boundary lies above PC and below SP, so the word at PC and one more on the stack find room (R46). -/
theorem State.AtFetch.ranges {s : State} (h : s.AtFetch) (hi : s.Inv) :
    0 ≤ s32 s.pc ∧ s32 s.pc ≤ 4091 ∧ 5 ≤ s32 s.sp ∧ s32 s.sp ≤ 4096 := by
  obtain ⟨_, _, hpc, hpcb, hbsp, hsp⟩ := h
  have := hi.boundaryAligned
  omega

/-! ## Targets and the return address (R131) -/

theorem s32_jumpTarget {pc o : Int} (hpc : 0 ≤ pc ∧ pc ≤ 4091) (ho : -134217728 ≤ o ∧ o ≤ 134217724) :
    s32 (w32 (pc + o)) = pc + o :=
  s32_w32 (by omega) (by omega)

/-- A word whose bit 27 is 0, as every return address of R46's range, is stored unchanged (R67). -/
theorem storedForm_w32 {n : Int} (h0 : 0 ≤ n) (h : n < 134217728) : storedForm (w32 n) = w32 n := by
  have hlt : (w32 n).toNat < 2 ^ 27 := by
    simp only [w32, BitVec.toNat_ofInt]
    omega
  have hbit : (w32 n).getLsbD 27 = false := Nat.testBit_lt_two_pow hlt
  rw [storedForm, hbit, if_neg Bool.false_ne_true]

theorem execGoto_running {o : Int} {s t : State} (h : execGoto o s = .next t) (hr : t.status = .running) :
    t = s.setPc (pcRel s o) :=
  jumpPc_eq_ok (Eff.thenStay_running h hr)

/-- Call with room on the stack jumps from the state its push leaves, whose PC is still Call's own (R260). -/
theorem execCall_running {o : Int} {s t : State} (h4 : 4 ≤ s32 s.sp) (hsp : s32 s.sp ≤ 4096) (h : execCall o s = .next t)
    (hr : t.status = .running) : t = (afterPush (returnAddress s) s).setPc (pcRel s o) := by
  have hj := Eff.thenStay_running h hr
  rw [push_of_range _ h4 hsp, Eff.bind_ok] at hj
  exact jumpPc_eq_ok hj

/-- The forms of BinaryIf with one offset (R139). -/
def binaryIfs (o : Int) : List Instr :=
  [.ifeq o, .ifne o, .iflt o, .ifgt o, .ifle o, .ifge o, .ifrsv .rsv6 o, .ifrsv .rsv7 o]

/-- The forms of UnaryIf with one offset (R140). -/
def unaryIfs (o : Int) : List Instr := [.ifez o, .ifnz o, .ifmi o, .ifpl o]

theorem exec_of_mem_binaryIfs {i : Instr} {o : Int} (s : State) (hi : i ∈ binaryIfs o) : ∃ taken, exec i s = binaryIf taken o s := by
  simp only [binaryIfs, List.mem_cons, List.not_mem_nil, or_false] at hi
  rcases hi with rfl | rfl | rfl | rfl | rfl | rfl | rfl | rfl <;> exact ⟨_, rfl⟩

theorem exec_of_mem_unaryIfs {i : Instr} {o : Int} (s : State) (hi : i ∈ unaryIfs o) : ∃ taken, exec i s = unaryIf taken o s := by
  simp only [unaryIfs, List.mem_cons, List.not_mem_nil, or_false] at hi
  rcases hi with rfl | rfl | rfl | rfl <;> exact ⟨_, rfl⟩

/-- Every conditional branch reads its condition and ends in `branch`, with the PC it began with (R263, R271). -/
theorem exec_conditional {i : Instr} {o : Int} {s : State} (hi : i ∈ binaryIfs o ++ unaryIfs o) (h0 : 0 ≤ s32 s.sp) :
    ∃ taken, exec i s = (branch taken o s).thenStay := by
  rcases List.mem_append.mp hi with hb | hu
  · obtain ⟨taken, he⟩ := exec_of_mem_binaryIfs s hb
    exact ⟨_, he.trans (binaryIf_of_nonneg taken o h0)⟩
  · obtain ⟨taken, he⟩ := exec_of_mem_unaryIfs s hu
    exact ⟨_, he.trans (unaryIf_of_nonneg taken o h0)⟩

theorem jumpOffset_conditional {i : Instr} {o : Int} (hi : i ∈ binaryIfs o ++ unaryIfs o) : jumpOffset i = some o := by
  revert i
  simp [binaryIfs, unaryIfs, jumpOffset]

/-- A conditional branch that goes on moves PC by its offset or by 4 (R263, R271). -/
theorem conditional_pc {i : Instr} {o : Int} {s t : State} (hi : i ∈ binaryIfs o ++ unaryIfs o) (h0 : 0 ≤ s32 s.sp)
    (h : exec i s = .next t) (hr : t.status = .running) : t.pc = w32 (s32 s.pc + o) ∨ s32 t.pc = plusFour (s32 s.pc) := by
  obtain ⟨taken, he⟩ := exec_conditional hi h0
  rcases branch_eq_ok (Eff.thenStay_running (he.symm.trans h) hr) with rfl | rfl
  · exact .inl rfl
  · exact .inr (s32_w32_plusFour s.pc)

/-- Settles O20: the step executes the decoded instruction at its own PC, and below 4092 the targets that a 28-bit offset reaches and
the address after it are exact. -/
theorem targetsAreRelativeToOwnAddress : Obligations.TargetsAreRelativeToOwnAddress := by
  intro s t i o hf hinv hd hstep hr
  obtain ⟨hpc0, hpc1, hsp0, hsp1⟩ := hf.ranges hinv
  have hexec : exec i s = .next t := (step_eq_exec_of_atFetch hf hd).symm.trans hstep
  have htarget (ho : jumpOffset i = some o) : s32 (w32 (s32 s.pc + o)) = s32 s.pc + o :=
    s32_jumpTarget ⟨hpc0, hpc1⟩ (decoded_jumpOffset_range hd ho)
  refine ⟨?_, fun hi => ?_, ?_⟩
  · rintro (rfl | rfl)
    · rw [execGoto_running hexec hr]
      exact htarget rfl
    · rw [execCall_running (by omega) hsp1 hexec hr]
      exact htarget rfl
  · rcases conditional_pc hi (by omega) hexec hr with hpc | hpc
    · rw [hpc]
      exact .inl (htarget (jumpOffset_conditional hi))
    · rw [hpc, plusFour]
      omega
  · rintro rfl
    have hret : s32 (returnAddress s) = s32 s.pc + 4 := s32_w32 (by omega) (by omega)
    have hstored : storedForm (returnAddress s) = returnAddress s := storedForm_w32 (by omega) (by omega)
    rw [execCall_running (by omega) hsp1 hexec hr, State.setPc_mem, State.setPc_sp, afterPush_sp _ (by omega), afterPush_mem,
      Memory.wordAt_writeWord, hstored, hret]

/-! ## Exit (R137) -/

/-- Settles O27: Exit's meaning is one write of the status, with no advance after it. -/
theorem exitSetsStatusOnly : Obligations.ExitSetsStatusOnly := fun _ _ => rfl

end Sys2Proof.Machine
end

section
/-! PROOFS. Exceptions (60_exceptions.md): how an iteration of the engine can end, and the three terminations that are no fault. -/

namespace Sys2Proof.Machine

/-! ## The status during an effect (R39) -/

theorem Eff.bind_after_status {α β : Type} {s : State} {e : Eff α} {f : α → State → Eff β} (he : e.after.status = s.status)
    (hf : ∀ a u, (f a u).after.status = u.status) : (e.bind f).after.status = s.status := by
  cases e with
  | ok a u => exact (hf a u).trans he
  | raise k u => exact he

theorem Eff.lift_after_status {α : Type} (s : State) (e : Except FaultKind α) : (Eff.lift s e).after.status = s.status := by
  rw [Eff.after_lift]

theorem jumpPc_after_status (target : Int) (s : State) : (jumpPc target s).after.status = s.status := by
  rcases jumpPc_cases target s with ⟨_, he⟩ | ⟨_, he⟩ <;> rw [he] <;> rfl

theorem branch_after_status (taken : Bool) (o : Int) (s : State) : (branch taken o s).after.status = s.status := by
  cases taken with
  | true => exact jumpPc_after_status _ s
  | false => rfl

theorem readLine_status {s u : State} {line : List Byte} (h : readLine eofAsEmpty s = some (line, u)) : u.status = s.status := by
  rcases readLine_cases s with ⟨l, rest, _, he⟩ | ⟨_, _, he⟩ | ⟨_, _, he⟩ <;> rw [he] at h <;> cases h <;> rfl

/-! ## The status after an instruction (R137, R141) -/

/-- An instruction's next state comes from an effect that keeps the status, with the engine's advance after it or without. -/
def FromStatusKeepingEffect (s t : State) : Prop :=
  ∃ e : Eff Unit, e.after.status = s.status ∧ (e.thenAdvance = .next t ∨ e.thenStay = .next t)

theorem FromStatusKeepingEffect.of_advance {s t : State} {e : Eff Unit} (h : e.thenAdvance = .next t)
    (he : e.after.status = s.status) : FromStatusKeepingEffect s t := ⟨e, he, .inl h⟩

theorem FromStatusKeepingEffect.of_stay {s t : State} {e : Eff Unit} (h : e.thenStay = .next t)
    (he : e.after.status = s.status) : FromStatusKeepingEffect s t := ⟨e, he, .inr h⟩

/-- An effect that keeps the status leaves it as it was, or its fault is taken (R141). -/
theorem FromStatusKeepingEffect.status_cases {s t : State} (h : FromStatusKeepingEffect s t) :
    t.status = s.status ∨ ∃ k pc, t.status = .faulted k pc := by
  obtain ⟨e, he, hadv | hstay⟩ := h
  · rcases thenAdvance_of_after hadv with rfl | ⟨k, rfl⟩
    · exact .inl he
    · exact .inr ⟨k, _, rfl⟩
  · rcases Eff.thenStay_cases hstay with rfl | ⟨k, u, rfl, rfl⟩
    · exact .inl he
    · exact .inr ⟨k, _, rfl⟩

theorem binaryIf_fromStatusKeepingEffect {taken : Int → Int → Bool} {o : Int} {s t : State} (h : binaryIf taken o s = .next t) :
    FromStatusKeepingEffect s t :=
  .of_stay h <|
    Eff.bind_after_status (Eff.lift_after_status s _) fun _ u =>
      Eff.bind_after_status (Eff.lift_after_status u _) fun _ v => branch_after_status _ o v

theorem unaryIf_fromStatusKeepingEffect {taken : Int → Bool} {o : Int} {s t : State} (h : unaryIf taken o s = .next t) :
    FromStatusKeepingEffect s t :=
  .of_stay h (Eff.bind_after_status (Eff.lift_after_status s _) fun _ u => branch_after_status _ o u)

theorem execExit_status {c : Byte} {s t : State} (h : exec (.exit c) s = .next t) : t.status = .exited c := by
  rw [exitSetsStatusOnly] at h
  cases h
  rfl

/-- Exit alone sets the status itself; every other instruction is an effect that keeps it (R137). -/
theorem exec_next_of_ne_exit {i : Instr} {s t : State} (hi : ∀ c, i ≠ .exit c) (h : exec i s = .next t) :
    FromStatusKeepingEffect s t := by
  cases i with
  | exit c => exact absurd rfl (hi c)
  | ifeq | ifne | iflt | ifgt | ifle | ifge | ifrsv => exact binaryIf_fromStatusKeepingEffect h
  | ifez | ifnz | ifmi | ifpl => exact unaryIf_fromStatusKeepingEffect h
  | goto o => exact .of_stay h (jumpPc_after_status _ s)
  | call o => exact .of_stay h (Eff.bind_after_status (push_sameButMemSp _ s).status fun _ u => jumpPc_after_status _ u)
  | ret o =>
    exact .of_stay h (Eff.bind_after_status (pop_sameButMemSp (jumpSp (spRel s o) s)).status fun _ u => jumpPc_after_status _ u)
  | nop | debug => exact .of_advance (e := .ok () s) h rfl
  | add | sub | mul | div | rem | and | or | xor | lsl | lsr | asr =>
    exact .of_advance h (binOp_sameButMemSp _ s).status
  | neg | not => exact .of_advance h (unOp_sameButMemSp _ s).status
  | swap a b => exact .of_advance h (swapBytes_sameButMemSp _ _ s).status
  | push v => exact .of_advance h (push_sameButMemSp v s).status
  | dup o => exact .of_advance h (Eff.bind_after_status (Eff.lift_after_status s _) fun v u => (push_sameButMemSp v u).status)
  | print o f => exact .of_advance h (Eff.bind_after_status (Eff.lift_after_status s _) fun _ _ => rfl)
  | input =>
    obtain ⟨line, u, hl, hu⟩ := execInput_next h
    exact .of_advance hu ((push_sameButMemSp _ u).status.trans (readLine_status hl))
  | stinput n =>
    obtain ⟨line, u, hl, hu⟩ := execStInput_next h
    exact .of_advance hu ((pushAll_sameButMemSp _ u).status.trans (readLine_status hl))
  | pop n =>
    simp only [exec, execPop] at h
    split at h <;> exact .of_advance h rfl
  | stprint o =>
    simp only [exec, execStPrint] at h
    split at h <;> exact .of_advance h rfl
  | dump =>
    simp only [exec, execDump] at h
    split at h
    · exact .of_advance h rfl
    · split at h <;> exact .of_advance h rfl

/-! ## How an iteration ends (R130, R301) -/

theorem fetch_eq_ok {s : State} {w : Word} (h : fetch s = .ok w) : w = s.mem.wordOrZero (s32 s.pc) := by
  rcases peek_cases s.mem (s32 s.pc) with ⟨_, he⟩ | ⟨_, he⟩ <;> rw [fetch, he] at h <;> cases h
  rfl

/-- The status after an iteration whose halt checks passed: Exited if the word at PC is Exit, else Running or a fault's. -/
theorem step_status_of_no_halt {s t : State} (h : step s = .next t) (hh : haltCheck (beginRun s) = none) :
    (∃ c, decode (s.mem.wordOrZero (s32 s.pc)) = .ok (.exit c) ∧ t.status = .exited c) ∨
    t.status = .running ∨ ∃ k pc, t.status = .faulted k pc := by
  obtain ⟨hrun, ⟨st, hst, _⟩ | ⟨_, ⟨k, _, rfl⟩ | ⟨w, r, _, _, rfl⟩ | ⟨w, i, hf, hd, he⟩⟩⟩ := step_cases h
  · rw [hh] at hst
    cases hst
  · exact .inr (.inr ⟨k, _, rfl⟩)
  · exact .inr (.inl (by simpa using hrun))
  · by_cases hi : ∃ c, i = .exit c
    · obtain ⟨c, rfl⟩ := hi
      obtain rfl : w = s.mem.wordOrZero (s32 s.pc) := by simpa using fetch_eq_ok hf
      exact .inl ⟨c, hd, execExit_status he⟩
    · exact .inr (by simpa [hrun] using (exec_next_of_ne_exit (not_exists.mp hi) he).status_cases)

/-- The status after a halt check that ends the run (R132). -/
theorem step_status_of_halt {s t : State} {st : Status} (h : step s = .next t) (hh : haltCheck (beginRun s) = some st) :
    t.status = st := by
  obtain ⟨_, ⟨st', hst, rfl⟩ | ⟨hnone, _⟩⟩ := step_cases h
  · rw [hh] at hst
    cases hst
    rfl
  · rw [hh] at hnone
    cases hnone

/-- The status after an iteration, by the two halt checks and then by the instruction (R130, R132). -/
theorem step_status_cases {s t : State} (h : step s = .next t) :
    (s32 s.sp ≤ (beginRun s).boundary ∧ t.status = .stackOverrun) ∨
    (((beginRun s).boundary : Int) < s32 s.sp ∧ ((beginRun s).boundary : Int) ≤ s32 s.pc ∧ t.status = .codeOverrun) ∨
    (((beginRun s).boundary : Int) < s32 s.sp ∧ s32 s.pc < (beginRun s).boundary ∧
      ((∃ c, decode (s.mem.wordOrZero (s32 s.pc)) = .ok (.exit c) ∧ t.status = .exited c) ∨
       t.status = .running ∨ ∃ k pc, t.status = .faulted k pc)) := by
  have hchecks := haltCheck_cases (beginRun s)
  simp only [beginRun_sp, beginRun_pc] at hchecks
  rcases hchecks with ⟨hsp, hh⟩ | ⟨hsp, hpc, hh⟩ | ⟨hsp, hpc, hh⟩
  · exact .inl ⟨hsp, step_status_of_halt h hh⟩
  · exact .inr (.inl ⟨hsp, hpc, step_status_of_halt h hh⟩)
  · exact .inr (.inr ⟨hsp, hpc, step_status_of_no_halt h hh⟩)

/-- At a fetch, Exit ends the run with its code (R137, R160). -/
theorem step_status_of_exit {s t : State} {c : Byte} (hf : s.AtFetch) (hd : decode (s.mem.wordOrZero (s32 s.pc)) = .ok (.exit c))
    (h : step s = .next t) : t.status = .exited c := by
  rw [step_eq_exec_of_atFetch hf hd] at h
  exact execExit_status h

/-- Settles O18: the ways an iteration can end (`step_status_cases`) exclude each other, by SP, PC and the status they leave. -/
theorem terminationReasons : Obligations.TerminationReasons := by
  rintro s t _ rfl h
  have hexit (c : Byte) (hf : s.AtFetch) (hd : decode (s.mem.wordOrZero (s32 s.pc)) = .ok (.exit c)) := step_status_of_exit hf hd h
  rcases step_status_cases h with ⟨hsp, ht⟩ | ⟨hsp, hpc, ht⟩ | ⟨hsp, hpc, ⟨d, hd, ht⟩ | ht | ⟨k, pc, ht⟩⟩
  · exact ⟨by simp [ht], hexit, fun _ => hsp, by simp [ht], fun _ _ => ht, by omega, fun _ _ => .inl ht⟩
  · exact ⟨by simp [ht], hexit, by simp [ht], fun _ => hpc, by omega, fun _ _ => ht, by omega⟩
  · refine ⟨fun c hc => ?_, hexit, by simp [ht], by simp [ht], by omega, by omega, by omega⟩
    obtain rfl : d = c := by simpa [ht] using hc
    exact hd
  · exact ⟨by simp [ht], hexit, by simp [ht], by simp [ht], by omega, by omega, by omega⟩
  · exact ⟨by simp [ht], hexit, by simp [ht], by simp [ht], by omega, by omega, by omega⟩

end Sys2Proof.Machine
end

section
/-! PROOFS. Encoding (30_encoding.md): the opcode table as the decoder's case split, and what the operand fields of a word are. -/

namespace Sys2Proof

/-! ## The rows of the opcode table (R106) -/

theorem field_and (hi lo a b : Nat) : field hi lo (a &&& b) = field hi lo a &&& field hi lo b := by
  simp only [field, Nat.and_div_two_pow, Nat.and_mod_two_pow]

/-- A row that selects a word has the word's value in every field that the row's mask covers. -/
theorem field_of_selects {mn : String} {pattern mask : Nat} {w : Word} (hi lo : Nat)
    (h : OpcodeRow.selects ⟨mn, pattern, mask⟩ w = true) (hmask : field hi lo mask = 2 ^ (hi - lo + 1) - 1) :
    field hi lo w.toNat = field hi lo pattern := by
  have hw : w.toNat &&& mask = pattern := by simpa [OpcodeRow.selects] using h
  rw [← hw, field_and, hmask, Nat.and_two_pow_sub_one_eq_mod]
  simp [field]

/-- The instruction of the same constructor whose operands are the fields of a word (R94 to R100). -/
def Instr.readOperands (w : Nat) : Instr → Instr
  | .exit _ => .exit (exitCode w)
  | .swap _ _ => .swap (swapA w) (swapB w)
  | .stinput _ => .stinput (maxLen w)
  | .pop _ => .pop (uoff28 w)
  | .stprint _ => .stprint (rel28 w)
  | .call _ => .call (rel28 w)
  | .ret _ => .ret (rel28 w)
  | .goto _ => .goto (rel28 w)
  | .ifeq _ => .ifeq (rel24 w)
  | .ifne _ => .ifne (rel24 w)
  | .iflt _ => .iflt (rel24 w)
  | .ifgt _ => .ifgt (rel24 w)
  | .ifle _ => .ifle (rel24 w)
  | .ifge _ => .ifge (rel24 w)
  | .ifrsv _ _ => .ifrsv (if field 27 25 w = 6 then .rsv6 else .rsv7) (rel24 w)
  | .ifez _ => .ifez (rel24 w)
  | .ifnz _ => .ifnz (rel24 w)
  | .ifmi _ => .ifmi (rel24 w)
  | .ifpl _ => .ifpl (rel24 w)
  | .dup _ => .dup (rel28 w)
  | .print _ _ => .print (rel28 w) (printFormat w)
  | .push _ => .push (imm28 w)
  | i => i

theorem Instr.row_readOperands (w : Nat) (i : Instr) : (i.readOperands w).row = i.row := by cases i <;> rfl

/-- Conditions 6 and 7 are the ones whose upper two bits are set (R270). -/
theorem decodeBinaryIf_reserved {w : Nat} (h : field 27 26 w = 3) :
    decodeBinaryIf w = .ifrsv (if field 27 25 w = 6 then .rsv6 else .rsv7) (rel24 w) := by
  have hc : field 27 25 w = 6 ∨ field 27 25 w = 7 := by
    simp only [field] at h ⊢
    omega
  rcases hc with hc | hc <;> simp [decodeBinaryIf, hc]

/-- A word that a row selects decodes to the row's instruction, with the word's fields as operands (R102, R106). -/
theorem decode_of_selects {w : Word} (i : Instr) (h : i.row.selects w = true) : decode w = .ok (i.readOperands w.toNat) := by
  unfold decode decodeNat
  cases i with
  | exit | swap | nop | input | stinput | debug =>
    rw [field_of_selects 31 28 h rfl]
    unfold decodeMisc
    rw [field_of_selects 27 24 h rfl]
    rfl
  | add | sub | mul | div | rem | and | or | xor | lsl | lsr | asr =>
    rw [field_of_selects 31 28 h rfl]
    unfold decodeBinary
    rw [field_of_selects 27 24 h rfl]
    rfl
  | neg | not =>
    rw [field_of_selects 31 28 h rfl]
    unfold decodeUnary
    rw [field_of_selects 27 24 h rfl]
    rfl
  | ifeq | ifne | iflt | ifgt | ifle | ifge =>
    rw [field_of_selects 31 28 h rfl]
    unfold decodeBinaryIf
    rw [field_of_selects 27 25 h rfl]
    rfl
  | ifrsv =>
    rw [field_of_selects 31 28 h rfl]
    exact congrArg Except.ok (decodeBinaryIf_reserved (field_of_selects 27 26 h rfl))
  | ifez | ifnz | ifmi | ifpl =>
    rw [field_of_selects 31 28 h rfl]
    unfold decodeUnaryIf
    rw [field_of_selects 26 25 h rfl]
    rfl
  | pop | stprint | call | ret | goto | dup | print | dump | push =>
    rw [field_of_selects 31 28 h rfl]
    rfl

/-! ## A decoded word is selected by its instruction's row -/

theorem high_of_op {w : Word} {op : Nat} (hop : field 31 28 w.toNat = op) : w.toNat / 2 ^ 28 = op := by
  simp only [field] at hop
  omega

theorem high_of_op_sub {w : Word} {op sub : Nat} (hop : field 31 28 w.toNat = op) (hsub : field 27 24 w.toNat = sub) :
    w.toNat / 2 ^ 24 = op * 16 + sub := by
  simp only [field] at hop hsub
  omega

theorem high_of_op_cond3 {w : Word} {op cond : Nat} (hop : field 31 28 w.toNat = op) (hcond : field 27 25 w.toNat = cond) :
    w.toNat / 2 ^ 25 = op * 8 + cond := by
  simp only [field] at hop hcond
  omega

/-- Bit 27 of a UnaryIf word is ignored, so two values of the bits above 24 go with each condition (R271). -/
theorem high_of_op_cond2 {w : Word} {op cond : Nat} (hop : field 31 28 w.toNat = op) (hcond : field 26 25 w.toNat = cond) :
    w.toNat / 2 ^ 25 = op * 8 + cond ∨ w.toNat / 2 ^ 25 = op * 8 + 4 + cond := by
  simp only [field] at hop hcond
  omega

theorem selects_of_decodeBinaryIf {w : Word} (hop : field 31 28 w.toNat = 0x8) :
    (decodeBinaryIf w.toNat).row.selects w = true := by
  have hlt : field 27 25 w.toNat < 8 := Nat.mod_lt _ (by decide)
  unfold decodeBinaryIf
  split
  case h_7 hcond => exact Laws.selects_of_high 25 _ 0x7E (high_of_op_cond3 hop hcond) rfl rfl
  case h_8 =>
    have hcond : field 27 25 w.toNat = 7 := by
      simp only [imp_false] at *
      omega
    exact Laws.selects_of_high 25 _ 0x7E (high_of_op_cond3 hop hcond) rfl rfl
  all_goals
    have hcond := ‹field 27 25 w.toNat = _›
    exact Laws.selects_of_high 25 _ 0x7F (high_of_op_cond3 hop hcond) rfl rfl

theorem selects_of_decodeUnaryIf {w : Word} (hop : field 31 28 w.toNat = 0x9) :
    (decodeUnaryIf w.toNat).row.selects w = true := by
  have hlt : field 26 25 w.toNat < 4 := Nat.mod_lt _ (by decide)
  unfold decodeUnaryIf
  split
  case h_4 =>
    have hcond : field 26 25 w.toNat = 3 := by
      simp only [imp_false] at *
      omega
    rcases high_of_op_cond2 hop hcond with hq | hq <;> exact Laws.selects_of_high 25 _ 0x7B hq rfl rfl
  all_goals
    have hcond := ‹field 26 25 w.toNat = _›
    rcases high_of_op_cond2 hop hcond with hq | hq <;> exact Laws.selects_of_high 25 _ 0x7B hq rfl rfl

/-- The row of what a word decodes to selects the word (R106). -/
theorem selects_of_decode {w : Word} {i : Instr} (h : decode w = .ok i) : i.row.selects w = true := by
  unfold decode decodeNat at h
  split at h
  case h_1 hop | h_3 hop | h_4 hop =>
    simp only [decodeMisc, decodeBinary, decodeUnary] at h
    split at h <;> cases h
    all_goals
      have hsub := ‹field 27 24 w.toNat = _›
      exact Laws.selects_of_high 24 _ 0xFF (high_of_op_sub hop hsub) rfl rfl
  case h_9 hop => cases h; exact selects_of_decodeBinaryIf hop
  case h_10 hop => cases h; exact selects_of_decodeUnaryIf hop
  case h_15 => cases h
  all_goals
    cases h
    have hop := ‹field 31 28 w.toNat = _›
    exact Laws.selects_of_high 28 _ 0xF (high_of_op hop) rfl rfl

/-- What a word decodes to has the word's fields as its operands. -/
theorem eq_readOperands_of_decode {w : Word} {i : Instr} (h : decode w = .ok i) : i = i.readOperands w.toNat := by
  have := decode_of_selects i (selects_of_decode h)
  rw [h] at this
  exact Except.ok.inj this

/-- Settles O5: a row selects a word exactly if the word decodes to an instruction of that row. -/
theorem opcodeTableDisjointAndExact : Obligations.OpcodeTableDisjointAndExact := by
  refine ⟨fun w i => selects_of_decode, fun w r h i => ?_, fun w i j hi hj => ?_⟩
  · by_contra hs
    rw [decode_of_selects i (by simpa using hs)] at h
    cases h
  · have heq : i.readOperands w.toNat = j.readOperands w.toNat := by
      simpa [decode_of_selects i hi] using decode_of_selects j hj
    rw [← i.row_readOperands w.toNat, heq, j.row_readOperands]

/-! ## The ranges of the operand fields (R94 to R98) -/

theorem rel28Ok_iff (o : Int) : rel28Ok o = true ↔ o % 4 = 0 ∧ -134217728 ≤ o ∧ o ≤ 134217724 := by
  simp [rel28Ok, and_assoc]

theorem rel24Ok_iff (o : Int) : rel24Ok o = true ↔ o % 4 = 0 ∧ -8388608 ≤ o ∧ o ≤ 8388604 := by
  simp [rel24Ok, and_assoc]

theorem swapOffsetOk_iff (o : Int) : swapOffsetOk o = true ↔ o % 4 = 0 ∧ -8192 ≤ o ∧ o ≤ 8188 := by
  simp [swapOffsetOk, and_assoc]

theorem imm28Ok_iff (v : Word) : imm28Ok v = true ↔ -134217728 ≤ s32 v ∧ s32 v ≤ 134217727 := by
  simp [imm28Ok]

theorem rel28Ok_rel28 (w : Nat) : rel28Ok (rel28 w) = true := by
  refine (rel28Ok_iff _).mpr ⟨?_, Machine.rel28_range w⟩
  simp only [rel28, sext, field]
  split_ifs <;> omega

theorem rel24Ok_rel24 (w : Nat) : rel24Ok (rel24 w) = true := by
  refine (rel24Ok_iff _).mpr ⟨?_, Machine.rel24_range w⟩
  simp only [rel24, sext, field]
  split_ifs <;> omega

theorem swapOffsetOk_sext {v : Nat} (h : v < 2 ^ 12) : swapOffsetOk (sext 12 v * 4) = true := by
  rw [swapOffsetOk_iff]
  simp only [sext]
  split_ifs <;> omega

theorem sext28_range {v : Nat} (h : v < 2 ^ 28) : -134217728 ≤ sext 28 v ∧ sext 28 v ≤ 134217727 := by
  simp only [sext]
  split_ifs <;> omega

theorem imm28Ok_imm28 (w : Nat) : imm28Ok (imm28 w) = true := by
  have hrange := sext28_range (v := field 27 0 w) (Nat.mod_lt _ (by decide))
  rwa [imm28Ok_iff, imm28, Machine.s32_w32 (by omega) (by omega)]

theorem field_lt (hi lo w : Nat) : field hi lo w < 2 ^ (hi - lo + 1) := Nat.mod_lt _ (Nat.two_pow_pos _)

theorem Instr.wellFormed_readOperands (w : Nat) (i : Instr) : (i.readOperands w).wellFormed = true := by
  cases i with
  | swap => simp [Instr.readOperands, Instr.wellFormed, swapA, swapB, swapOffsetOk_sext (field_lt 23 12 w),
      swapOffsetOk_sext (field_lt 11 0 w)]
  | stinput =>
    have := field_lt 23 0 w
    simpa [Instr.readOperands, Instr.wellFormed, maxLen] using Nat.le_of_lt_succ this
  | pop =>
    have := field_lt 27 0 w
    simpa [Instr.readOperands, Instr.wellFormed, uoff28] using Nat.le_of_lt_succ this
  | stprint | call | ret | goto | dup | print => exact rel28Ok_rel28 w
  | ifeq | ifne | iflt | ifgt | ifle | ifge | ifrsv | ifez | ifnz | ifmi | ifpl => exact rel24Ok_rel24 w
  | push => exact imm28Ok_imm28 w
  | _ => rfl

/-- Settles O3: the operands of a decoded instruction are fields of its word, and every field lies in its operand's range. -/
theorem decodedOperandsInRange : Obligations.DecodedOperandsInRange := fun w i h => by
  rw [eq_readOperands_of_decode h]
  exact i.wellFormed_readOperands w.toNat

/-! ## The encoder's words (R105) -/

/-- The family EncodedRow, over all constructors. -/
theorem selects_encode : ∀ i : Instr, i.wellFormed = true → i.row.selects (encode i) = true
  | .exit c => Laws.EncodedRow.exit c
  | .swap a b => Laws.EncodedRow.swap a b
  | .nop => Laws.EncodedRow.nop
  | .input => Laws.EncodedRow.input
  | .stinput n => Laws.EncodedRow.stinput n
  | .debug => Laws.EncodedRow.debug
  | .pop n => Laws.EncodedRow.pop n
  | .add => Laws.EncodedRow.add
  | .sub => Laws.EncodedRow.sub
  | .mul => Laws.EncodedRow.mul
  | .div => Laws.EncodedRow.div
  | .rem => Laws.EncodedRow.rem
  | .and => Laws.EncodedRow.and
  | .or => Laws.EncodedRow.or
  | .xor => Laws.EncodedRow.xor
  | .lsl => Laws.EncodedRow.lsl
  | .lsr => Laws.EncodedRow.lsr
  | .asr => Laws.EncodedRow.asr
  | .neg => Laws.EncodedRow.neg
  | .not => Laws.EncodedRow.not
  | .stprint o => Laws.EncodedRow.stprint o
  | .call o => Laws.EncodedRow.call o
  | .ret o => Laws.EncodedRow.ret o
  | .goto o => Laws.EncodedRow.goto o
  | .ifeq o => Laws.EncodedRow.ifeq o
  | .ifne o => Laws.EncodedRow.ifne o
  | .iflt o => Laws.EncodedRow.iflt o
  | .ifgt o => Laws.EncodedRow.ifgt o
  | .ifle o => Laws.EncodedRow.ifle o
  | .ifge o => Laws.EncodedRow.ifge o
  | .ifrsv c o => Laws.EncodedRow.ifrsv c o
  | .ifez o => Laws.EncodedRow.ifez o
  | .ifnz o => Laws.EncodedRow.ifnz o
  | .ifmi o => Laws.EncodedRow.ifmi o
  | .ifpl o => Laws.EncodedRow.ifpl o
  | .dup o => Laws.EncodedRow.dup o
  | .print o f => Laws.EncodedRow.print o f
  | .dump => Laws.EncodedRow.dump
  | .push v => Laws.EncodedRow.push v

theorem instrWord_low (op rest : Nat) : (instrWord op rest).toNat % 2 ^ 28 = rest % 2 ^ 28 := by
  simp only [instrWord, BitVec.toNat_ofNat]
  omega

theorem subWord_low (op sub rest : Nat) : (subWord op sub rest).toNat % 2 ^ 24 = rest % 2 ^ 24 := by
  simp only [subWord, instrWord, BitVec.toNat_ofNat]
  omega

theorem encRel28_lt (o : Int) : encRel28 o + 3 < 2 ^ 28 := by
  simp only [encRel28, lowBits]
  omega

theorem encRel28_low {op r : Nat} (o : Int) (hr : r < 4) : (instrWord op (encRel28 o + r)).toNat % 2 ^ 28 = encRel28 o + r := by
  have := encRel28_lt o
  rw [instrWord_low, Nat.mod_eq_of_lt (by omega)]

theorem binaryIfWord_low (c : Nat) (o : Int) : (binaryIfWord c o).toNat % 2 ^ 24 = encRel24 o := by
  have := Laws.encRel24_lt o
  simp only [binaryIfWord, instrWord, BitVec.toNat_ofNat]
  omega

theorem unaryIfWord_low (c : Nat) (o : Int) : (unaryIfWord c o).toNat % 2 ^ 24 = encRel24 o := by
  have := Laws.encRel24_lt o
  simp only [unaryIfWord, instrWord, BitVec.toNat_ofNat]
  omega

/-! ## A field of an encoded word is the operand it was made from -/

theorem rel28_of_low {w r : Nat} {o : Int} (ho : rel28Ok o = true) (hr : r < 4) (hw : w % 2 ^ 28 = encRel28 o + r) : rel28 w = o := by
  rw [rel28Ok_iff] at ho
  simp only [rel28, sext, field, encRel28, lowBits] at hw ⊢
  split_ifs <;> omega

theorem rel24_of_low {w : Nat} {o : Int} (ho : rel24Ok o = true) (hw : w % 2 ^ 24 = encRel24 o) : rel24 w = o := by
  rw [rel24Ok_iff] at ho
  simp only [rel24, sext, field, encRel24, lowBits] at hw ⊢
  split_ifs <;> omega

theorem sext12_lowBits {o : Int} (ho : swapOffsetOk o = true) : sext 12 (lowBits 12 (o / 4)) * 4 = o := by
  rw [swapOffsetOk_iff] at ho
  simp only [sext, lowBits]
  split_ifs <;> omega

theorem imm28_of_low {w : Nat} {v : Word} (hv : imm28Ok v = true) (hw : w % 2 ^ 28 = v.toNat % 2 ^ 28) : imm28 w = v := by
  rw [imm28Ok_iff] at hv
  have hs : sext 28 (field 27 0 w) = s32 v := by
    have := v.isLt
    simp only [s32, BitVec.toInt_eq_toNat_cond] at hv ⊢
    simp only [sext, field]
    split_ifs at hv ⊢ <;> omega
  rw [imm28, hs, Machine.w32_s32]

theorem lowBits12_lt (v : Int) : lowBits 12 v < 2 ^ 12 := by
  simp only [lowBits]
  omega

theorem swapA_encode {a b : Int} (ha : swapOffsetOk a = true) : swapA (encode (.swap a b)).toNat = a := by
  have hfield : field 23 12 (encode (.swap a b)).toNat = lowBits 12 (a / 4) := by
    have hlow := subWord_low 0x0 0x1 (lowBits 12 (a / 4) * 2 ^ 12 + lowBits 12 (b / 4))
    have hx := lowBits12_lt (a / 4)
    have hy := lowBits12_lt (b / 4)
    simp only [field, encode]
    omega
  rw [swapA, hfield, sext12_lowBits ha]

theorem swapB_encode {a b : Int} (hb : swapOffsetOk b = true) : swapB (encode (.swap a b)).toNat = b := by
  have hfield : field 11 0 (encode (.swap a b)).toNat = lowBits 12 (b / 4) := by
    have hlow := subWord_low 0x0 0x1 (lowBits 12 (a / 4) * 2 ^ 12 + lowBits 12 (b / 4))
    have hy := lowBits12_lt (b / 4)
    simp only [field, encode]
    omega
  rw [swapB, hfield, sext12_lowBits hb]

theorem exitCode_encode (c : Byte) : exitCode (encode (.exit c)).toNat = c := by
  have hfield : field 7 0 (encode (.exit c)).toNat = c.toNat := by
    have hlow := subWord_low 0x0 0x0 c.toNat
    have hc := c.isLt
    simp only [field, encode]
    omega
  rw [exitCode, hfield, BitVec.ofNat_toNat, BitVec.setWidth_eq]

theorem maxLen_encode {n : Nat} (h : n ≤ 16777215) : maxLen (encode (.stinput n)).toNat = n := by
  have hlow := subWord_low 0x0 0x5 n
  simp only [maxLen, field, encode]
  omega

theorem uoff28_encode {n : Nat} (h : n ≤ 268435455) : uoff28 (encode (.pop n)).toNat = n := by
  have hlow := instrWord_low 0x1 n
  simp only [uoff28, field, encode]
  omega

theorem printFormat_encode (o : Int) (f : PrintFormat) : printFormat (encode (.print o f)).toNat = f := by
  have hf : f.bits < 4 := by cases f <;> decide
  have hlow := encRel28_low (op := 0xD) o hf
  refine Machine.printFormat_of_mod_four f ?_
  simp only [encode, encRel28] at hlow ⊢
  omega

/-- The condition of an encoded ifrsv6 or ifrsv7 (R270). -/
theorem reservedCond_encode (c : ReservedCond) (o : Int) :
    (if field 27 25 (encode (.ifrsv c o)).toNat = 6 then ReservedCond.rsv6 else .rsv7) = c := by
  have hfield : field 27 25 (encode (.ifrsv c o)).toNat = c.bits := by
    have hc : c.bits < 8 := by cases c <;> decide
    have hhigh := Laws.binaryIfWord_high o hc
    simp only [field, encode]
    omega
  rw [hfield]
  cases c <;> rfl

/-- The operand fields of an encoded instruction are its operands (R105). -/
theorem readOperands_encode {i : Instr} (h : i.wellFormed = true) : i.readOperands (encode i).toNat = i := by
  cases i with
  | exit c => exact congrArg _ (exitCode_encode c)
  | swap a b =>
    obtain ⟨ha, hb⟩ : swapOffsetOk a = true ∧ swapOffsetOk b = true := by simpa [Instr.wellFormed] using h
    exact congrArg₂ _ (swapA_encode ha) (swapB_encode hb)
  | stinput n => exact congrArg _ (maxLen_encode (by simpa [Instr.wellFormed] using h))
  | pop n => exact congrArg _ (uoff28_encode (by simpa [Instr.wellFormed] using h))
  | stprint o | call o | ret o | goto o | dup o =>
    exact congrArg _ (rel28_of_low h (r := 0) (by decide) (encRel28_low o (by decide)))
  | print o f =>
    exact congrArg₂ _ (rel28_of_low h (r := f.bits) (by cases f <;> decide) (encRel28_low o (by cases f <;> decide)))
      (printFormat_encode o f)
  | ifeq o | ifne o | iflt o | ifgt o | ifle o | ifge o => exact congrArg _ (rel24_of_low h (binaryIfWord_low _ o))
  | ifez o | ifnz o | ifmi o | ifpl o => exact congrArg _ (rel24_of_low h (unaryIfWord_low _ o))
  | ifrsv c o => exact congrArg₂ _ (reservedCond_encode c o) (rel24_of_low h (binaryIfWord_low _ o))
  | push v => exact congrArg _ (imm28_of_low h (by rw [encode, instrWord_low, Nat.mod_mod]))
  | _ => rfl

/-- Settles O2: the row of an instruction selects its encoding, so that decodes to the row's instruction, and its operand fields are
the operands that were encoded. -/
theorem decodeOfEncode : Obligations.DecodeOfEncode := fun i h => by
  rw [decode_of_selects i (selects_encode i h), readOperands_encode h]

/-! ## The unrecognized words (R103) -/

theorem op_eq_high (w : Word) : field 31 28 w.toNat = w.toNat / 2 ^ 28 := by
  simp only [field]
  omega

theorem decodeMisc_eq_error_iff {w : Nat} : (∃ r, decodeMisc w = .error r) ↔
    field 27 24 w ∈ [0x3, 0x6, 0x7, 0x8, 0x9, 0xA, 0xB, 0xC, 0xD, 0xE] := by
  have hlt : field 27 24 w < 16 := field_lt 27 24 w
  unfold decodeMisc
  split
  case h_7 =>
    simp only [imp_false] at *
    simp only [Except.error.injEq, exists_eq', List.mem_cons, List.not_mem_nil, or_false, true_iff]
    omega
  all_goals simp [*]

theorem decodeBinary_eq_error_iff {w : Nat} : (∃ r, decodeBinary w = .error r) ↔
    field 27 24 w ∈ [0xA, 0xC, 0xD, 0xE, 0xF] := by
  have hlt : field 27 24 w < 16 := field_lt 27 24 w
  unfold decodeBinary
  split
  case h_12 =>
    simp only [imp_false] at *
    simp only [Except.error.injEq, exists_eq', List.mem_cons, List.not_mem_nil, or_false, true_iff]
    omega
  all_goals simp [*]

theorem decodeUnary_eq_error_iff {w : Nat} : (∃ r, decodeUnary w = .error r) ↔ 0x2 ≤ field 27 24 w := by
  unfold decodeUnary
  split
  case h_3 =>
    simp only [imp_false] at *
    simp only [Except.error.injEq, exists_eq', true_iff]
    omega
  all_goals simp [*]

/-- Settles O4: the opcodes 0xA and 0xB have no arm, and only the opcodes 0x0, 0x2 and 0x3 reject some of their sub-opcodes. -/
theorem unrecognizedSpace : Obligations.UnrecognizedSpace := fun w => by
  have hlt : field 31 28 w.toNat < 16 := field_lt 31 28 w.toNat
  rw [← op_eq_high, show w.toNat / 2 ^ 24 % 16 = field 27 24 w.toNat from rfl]
  unfold decode decodeNat
  split
  case h_1 hop => simpa [hop] using decodeMisc_eq_error_iff
  case h_3 hop => simpa [hop] using decodeBinary_eq_error_iff
  case h_4 hop => simpa [hop] using decodeUnary_eq_error_iff
  case h_15 =>
    simp only [imp_false] at *
    simp only [Except.error.injEq, exists_eq', List.mem_cons, List.not_mem_nil, or_false, true_iff]
    omega
  all_goals simp [*]

/-! ## The ignored bits (R93, R101) -/

theorem rel28_congr {w v : Nat} (h : w / 4 = v / 4) : rel28 w = rel28 v := by
  simp only [rel28, field]
  rw [show w / 2 ^ 2 = v / 2 ^ 2 from h]

theorem rel24_congr {w v : Nat} (h : w / 4 % 2 ^ 22 = v / 4 % 2 ^ 22) : rel24 w = rel24 v := by
  simp only [rel24, field]
  rw [show w / 2 ^ 2 % 2 ^ (23 - 2 + 1) = v / 2 ^ 2 % 2 ^ (23 - 2 + 1) from h]

theorem exitCode_congr {w v : Nat} (h : w % 2 ^ 8 = v % 2 ^ 8) : exitCode w = exitCode v := by
  simp only [exitCode, field]
  congr 1
  omega

theorem selects_of_op {w : Word} {i : Instr} {op : Nat} (hw : w.toNat / 2 ^ 28 = op) (hmask : i.row.mask = 0xF0000000)
    (hpattern : i.row.pattern = 2 ^ 28 * (op &&& 0xF)) : i.row.selects w = true :=
  Laws.selects_of_high 28 op 0xF hw hmask hpattern

theorem selects_of_high_byte {w : Word} {i : Instr} {q : Nat} (hw : w.toNat / 2 ^ 24 = q) (hmask : i.row.mask = 0xFF000000)
    (hpattern : i.row.pattern = 2 ^ 24 * (q &&& 0xFF)) : i.row.selects w = true :=
  Laws.selects_of_high 24 q 0xFF hw hmask hpattern

/-- Two words that one row selects decode alike if they agree on the row's operand fields. -/
theorem decode_congr {w v : Word} (i : Instr) (hw : i.row.selects w = true) (hv : i.row.selects v = true)
    (h : i.readOperands w.toNat = i.readOperands v.toNat) : decode w = decode v := by
  rw [decode_of_selects i hw, decode_of_selects i hv, h]

/-- The two-operand and one-operand arithmetic words are their opcode and sub-opcode alone, recognized or not (R101). -/
theorem decode_arith_congr {w v : Word} (h : w.toNat / 2 ^ 24 = v.toNat / 2 ^ 24) (hop : w.toNat / 2 ^ 28 ∈ [0x2, 0x3]) :
    decode w = decode v := by
  have hv : field 31 28 v.toNat = field 31 28 w.toNat := by
    simp only [field]
    omega
  have hsub : field 27 24 v.toNat = field 27 24 w.toNat := by simp only [field, h]
  have hw : field 31 28 w.toNat = 0x2 ∨ field 31 28 w.toNat = 0x3 := by simpa [op_eq_high] using hop
  rcases hw with hw | hw
  · simp only [decode, decodeNat, hv, hw, decodeBinary, hsub]
  · simp only [decode, decodeNat, hv, hw, decodeUnary, hsub]

theorem decode_binaryIf_congr {w v : Word} (hop : w.toNat / 2 ^ 28 = 0x8) (h : w.toNat / 2 ^ 25 = v.toNat / 2 ^ 25)
    (ho : w.toNat / 4 % 2 ^ 22 = v.toNat / 4 % 2 ^ 22) : decode w = decode v := by
  have hw : field 31 28 w.toNat = 0x8 := (op_eq_high w).trans hop
  have hv : field 31 28 v.toNat = 0x8 := by
    rw [op_eq_high]
    omega
  have hcond : field 27 25 v.toNat = field 27 25 w.toNat := by simp only [field, h]
  simp only [decode, decodeNat, hw, hv, decodeBinaryIf, hcond, rel24_congr ho]

theorem decode_unaryIf_congr {w v : Word} (hw : w.toNat / 2 ^ 28 = 0x9) (hv : v.toNat / 2 ^ 28 = 0x9)
    (h : w.toNat / 2 ^ 25 % 4 = v.toNat / 2 ^ 25 % 4) (ho : w.toNat / 4 % 2 ^ 22 = v.toNat / 4 % 2 ^ 22) :
    decode w = decode v := by
  rw [← op_eq_high] at hw hv
  have hcond : field 26 25 v.toNat = field 26 25 w.toNat := h.symm
  simp only [decode, decodeNat, hw, hv, decodeUnaryIf, hcond, rel24_congr ho]

/-- Settles O6: in each group of rows, the fields that the two words share are all that the decoder reads. -/
theorem ignoredBitsDoNotMatter : Obligations.IgnoredBitsDoNotMatter := by
  refine ⟨fun w v h hrow => ?_, fun w v hw hv hc => ?_, fun w v hop h => ?_, fun w v => decode_binaryIf_congr,
    fun w v => decode_unaryIf_congr, fun w v hw hv => ?_⟩
  · rcases hrow with hmisc | hop
    · have hmisc : w.toNat / 2 ^ 24 = 0x02 ∨ w.toNat / 2 ^ 24 = 0x04 ∨ w.toNat / 2 ^ 24 = 0x0F := by simpa using hmisc
      rcases hmisc with hw | hw | hw
      · exact decode_congr .nop (selects_of_high_byte hw rfl rfl) (selects_of_high_byte (h.symm.trans hw) rfl rfl) rfl
      · exact decode_congr .input (selects_of_high_byte hw rfl rfl) (selects_of_high_byte (h.symm.trans hw) rfl rfl) rfl
      · exact decode_congr .debug (selects_of_high_byte hw rfl rfl) (selects_of_high_byte (h.symm.trans hw) rfl rfl) rfl
    · exact decode_arith_congr h hop
  · exact decode_congr (.exit 0) (selects_of_high_byte hw rfl rfl) (selects_of_high_byte hv rfl rfl)
      (congrArg Instr.exit (exitCode_congr hc))
  · have hv : v.toNat / 2 ^ 28 = w.toNat / 2 ^ 28 := by omega
    have hr := rel28_congr h
    have hop : w.toNat / 2 ^ 28 = 0x4 ∨ w.toNat / 2 ^ 28 = 0x5 ∨ w.toNat / 2 ^ 28 = 0x6 ∨ w.toNat / 2 ^ 28 = 0x7 ∨
        w.toNat / 2 ^ 28 = 0xC := by simpa using hop
    rcases hop with hw | hw | hw | hw | hw
    · exact decode_congr (.stprint 0) (selects_of_op hw rfl rfl) (selects_of_op (hv.trans hw) rfl rfl) (congrArg Instr.stprint hr)
    · exact decode_congr (.call 0) (selects_of_op hw rfl rfl) (selects_of_op (hv.trans hw) rfl rfl) (congrArg Instr.call hr)
    · exact decode_congr (.ret 0) (selects_of_op hw rfl rfl) (selects_of_op (hv.trans hw) rfl rfl) (congrArg Instr.ret hr)
    · exact decode_congr (.goto 0) (selects_of_op hw rfl rfl) (selects_of_op (hv.trans hw) rfl rfl) (congrArg Instr.goto hr)
    · exact decode_congr (.dup 0) (selects_of_op hw rfl rfl) (selects_of_op (hv.trans hw) rfl rfl) (congrArg Instr.dup hr)
  · exact decode_congr .dump (selects_of_op hw rfl rfl) (selects_of_op hv rfl rfl) rfl

/-- Settles O1: each of the words is evaluated by the decoder. -/
theorem workedWordsDecode : Obligations.WorkedWordsDecode := by
  unfold Obligations.WorkedWordsDecode
  decide

end Sys2Proof
end

section
/-! PROOFS. Memory and stack primitives (20_memory.md): the guards, the stored form of a word, runs of pushes and of pops. -/

namespace Sys2Proof.Machine

/-! ## The guarded accesses (R63 to R66) -/

theorem peek_above {m : Memory} {a : Int} (h : 4092 < a) : peek m a = .ok 0 := by
  rw [peek_of_nonneg (by omega), Memory.wordOrZero, if_pos h]

theorem poke_out_of_range {m : Memory} {a : Int} {v : Word} (h : a < 0 ∨ 4092 < a) : poke m a v = .error (.addressFault a) := by
  rcases poke_cases m a v with ⟨_, he⟩ | ⟨_, _, _⟩
  · exact he
  · omega

theorem peekByte_out_of_range {m : Memory} {a : Int} (h : a < 0 ∨ 4095 < a) : peekByte m a = .error (.addressFault a) := by
  rcases peekByte_cases m a with ⟨_, he⟩ | ⟨_, _, _⟩
  · exact he
  · omega

theorem peekByte_of_le {m : Memory} {a : Nat} (h : a ≤ 4095) : peekByte m a = .ok (m.read a) := by
  rcases peekByte_cases m a with ⟨_, _⟩ | ⟨_, _, he⟩
  · omega
  · exact he

theorem pokeByte_out_of_range {m : Memory} {a : Int} {b : Byte} (h : a < 0 ∨ 4095 < a) :
    pokeByte m a b = .error (.addressFault a) := by
  rcases pokeByte_cases m a b with ⟨_, he⟩ | ⟨_, _, _⟩
  · exact he
  · omega

theorem pokeByte_of_le {m : Memory} {a : Nat} {b : Byte} (h : a ≤ 4095) : pokeByte m a b = .ok (m.write a b) := by
  rcases pokeByte_cases m a b with ⟨_, _⟩ | ⟨_, _, he⟩
  · omega
  · exact he

/-- Bytes other than the one written read as before. -/
theorem Memory.sameOutside_write (m : Memory) (a : Nat) (b : Byte) : m.SameOutside (m.write a b) a 1 := by
  intro x hx
  rw [Memory.read_write, if_neg (by omega)]

/-- Settles O8: each access by its range, the writes in range by what they store and by their frame. -/
theorem accessGuards : Obligations.AccessGuards := by
  refine ⟨fun m a => peek_of_neg, fun m a => peek_above, fun m a v => poke_out_of_range, fun m a v ha => ?_,
    fun m a => peekByte_out_of_range, fun m a b => pokeByte_out_of_range, fun m a b ha => ?_⟩
  · exact ⟨_, poke_of_le ha, by rw [peek_of_le ha, Memory.wordAt_writeWord], m.sameOutside_writeWord a v⟩
  · exact ⟨_, pokeByte_of_le ha, by rw [peekByte_of_le ha, Memory.read_write, if_pos rfl], m.sameOutside_write a b⟩

/-! ## The stored form of a word (R67) -/

/-- The bits that Push's rule for bit 27 sets are 31:28. -/
theorem getLsbD_signBits {i : Nat} (hi : i < 32) : (0xF0000000#32).getLsbD i = decide (28 ≤ i) := by
  have all : ∀ i : Fin 32, (0xF0000000#32).getLsbD i = decide (28 ≤ i.val) := by decide
  exact all ⟨i, hi⟩

theorem storedForm_of_bit27 {v : Word} (h : v.getLsbD 27 = true) : storedForm v = v ||| 0xF0000000#32 := by
  rw [storedForm, if_pos h]

theorem storedForm_of_not_bit27 {v : Word} (h : v.getLsbD 27 = false) : storedForm v = v := by
  rw [storedForm, if_neg (Bool.eq_false_iff.mp h)]

/-- The stored word bit by bit: bits 31:28 are set when bit 27 is, and every other bit is the value's. -/
theorem getLsbD_storedForm (v : Word) {i : Nat} (hi : i < 32) :
    (storedForm v).getLsbD i = (v.getLsbD i || v.getLsbD 27 && decide (28 ≤ i)) := by
  cases h : v.getLsbD 27 with
  | true => rw [storedForm_of_bit27 h, BitVec.getLsbD_or, getLsbD_signBits hi, Bool.true_and]
  | false => rw [storedForm_of_not_bit27 h, Bool.false_and, Bool.or_false]

theorem storedForm_low (v : Word) : (storedForm v).extractLsb' 0 28 = v.extractLsb' 0 28 := by
  apply BitVec.eq_of_getLsbD_eq
  intro i hi
  have hsmall : ¬ 28 ≤ i := by omega
  simp [hi, getLsbD_storedForm v (i := i) (by omega), hsmall]

theorem storedForm_high (v : Word) : (storedForm v).extractLsb' 28 4 = if v.getLsbD 27 then 15#4 else v.extractLsb' 28 4 := by
  apply BitVec.eq_of_getLsbD_eq
  intro i hi
  have hones : (15#4).getLsbD i = true := by
    have all : ∀ i : Fin 4, (15#4).getLsbD i = true := by decide
    exact all ⟨i, hi⟩
  rw [BitVec.getLsbD_extractLsb', getLsbD_storedForm v (by omega)]
  cases h : v.getLsbD 27 with
  | true => simp [hi, hones]
  | false => rw [if_neg Bool.false_ne_true, BitVec.getLsbD_extractLsb', Bool.false_and, Bool.or_false]

/-- Settles O9: `push_cases` by the room there is, the stored word by its bits. -/
theorem pushStoresAndExtends : Obligations.PushStoresAndExtends := by
  intro v s h0 hhi
  rcases push_cases v (by omega) hhi with ⟨hlt, he⟩ | ⟨hge, he⟩
  · exact ⟨by omega, fun _ => he⟩
  · refine ⟨fun _ => ⟨_, he, afterPush_sp v (by omega), ?_⟩, by omega⟩
    rw [afterPush_mem, Memory.wordAt_writeWord]
    exact ⟨Memory.sameOutside_writeWord _ _ _, storedForm_low v, storedForm_high v, rfl⟩

/-- Settles O10: `pop_cases` by the range of SP. -/
theorem popReadsAndClamps : Obligations.PopReadsAndClamps := by
  refine fun s => ⟨fun h0 h => ?_, fun h => ?_, fun h => ?_⟩
  · rw [pop_of_nonneg h0, Memory.wordOrZero, if_neg (by omega), afterPop, min_eq_left (by omega)]
    rfl
  · rw [pop_of_nonneg (by omega), Memory.wordOrZero, if_pos h, afterPop, min_eq_right (by omega)]
    rfl
  · rcases pop_cases s with ⟨_, he⟩ | ⟨_, _⟩
    · exact he
    · omega

/-! ## A run of pushes (R165) -/

/-- A word outside the bytes that changed reads as before. -/
theorem Memory.SameOutside.wordAt {m m' : Memory} {a n b : Nat} (h : m.SameOutside m' a n) (hb : b + 4 ≤ a ∨ a + n ≤ b) :
    m'.wordAt b = m.wordAt b :=
  Memory.wordAt_congr fun x h1 h2 => h x (by omega)

theorem afterPush_sameOutside (v : Word) (s : State) : s.mem.SameOutside (afterPush v s).mem (s32 s.sp - 4).toNat 4 :=
  Memory.sameOutside_writeWord _ _ _

/-- Pushes that find room change the bytes below the old top alone. -/
theorem afterPushes_sameOutside (ws : List Word) {s : State} (h : 4 * (ws.length : Int) ≤ s32 s.sp) :
    s.mem.SameOutside (afterPushes ws s).mem (s32 s.sp - 4 * ws.length).toNat (4 * ws.length) := by
  induction ws generalizing s with
  | nil => exact fun _ _ => rfl
  | cons v vs ih =>
    rw [List.length_cons] at h ⊢
    push_cast at h
    have hsp := afterPush_sp v (s := s) (by omega)
    intro x hx
    rw [afterPushes, ih (by omega) x (by omega), afterPush_sameOutside v s x (by omega)]

/-- The words lie below the old top in the order they were pushed. -/
theorem afterPushes_wordAt (ws : List Word) {s : State} (h : 4 * (ws.length : Int) ≤ s32 s.sp) {k : Nat} (hk : k < ws.length) :
    (afterPushes ws s).mem.wordAt ((s32 s.sp).toNat - 4 * (k + 1)) = storedForm ws[k] := by
  induction ws generalizing s k with
  | nil => cases hk
  | cons v vs ih =>
    rw [List.length_cons] at h hk
    push_cast at h
    have hsp := afterPush_sp v (s := s) (by omega)
    cases k with
    | zero =>
      have hrest := afterPushes_sameOutside vs (s := afterPush v s) (by omega)
      rw [afterPushes, hrest.wordAt (by omega), afterPush_mem, show (s32 s.sp).toNat - 4 * (0 + 1) = (s32 s.sp - 4).toNat by omega]
      exact Memory.wordAt_writeWord _ _ _
    | succ k =>
      rw [afterPushes, show (s32 s.sp).toNat - 4 * (k + 1 + 1) = (s32 (afterPush v s).sp).toNat - 4 * (k + 1) by omega,
        ih (by omega) (by omega)]
      rfl

theorem pushAll_of_room {ws : List Word} {s : State} (h : 4 * (ws.length : Int) ≤ s32 s.sp) (hhi : s32 s.sp ≤ 4096) :
    pushAll ws s = .ok () (afterPushes ws s) := by
  rcases pushAll_cases ws (by omega) hhi with ⟨_, he⟩ | ⟨done, w, rest, rfl, hd, _, hlt, _⟩
  · exact he
  · rw [List.length_append, List.length_cons] at h
    push_cast at h
    omega

/-! ## A run of pops (R68) -/

/-- Pops inside the stack read its words from the top on and raise SP past them. -/
theorem popMany_of_range (n : Nat) {s : State} (h0 : 0 ≤ s32 s.sp) (h : s32 s.sp + 4 * n ≤ 4096) :
    popMany n s = .ok ((List.range n).map fun k => s.mem.wordAt ((s32 s.sp).toNat + 4 * k)) (s.setSp (s32 s.sp + 4 * n)) := by
  induction n generalizing s with
  | zero => simp [popMany, State.setSp]
  | succ n ih =>
    push_cast at h
    have hpop : pop s = .ok (s.mem.wordAt (s32 s.sp).toNat) (s.setSp (s32 s.sp + 4)) := (popReadsAndClamps s).1 h0 (by omega)
    have hsp : s32 (s.setSp (s32 s.sp + 4)).sp = s32 s.sp + 4 := s32_w32 (by omega) (by omega)
    have hrest : popMany n (s.setSp (s32 s.sp + 4)) =
        .ok ((List.range n).map fun k => s.mem.wordAt ((s32 s.sp).toNat + 4 * (k + 1))) (s.setSp (s32 s.sp + 4 * (n + 1 : Nat))) := by
      rw [ih (by omega) (by omega), hsp, show s32 s.sp + 4 + 4 * (n : Int) = s32 s.sp + 4 * (n + 1 : Nat) by push_cast; omega,
        show (s32 s.sp + 4).toNat = (s32 s.sp).toNat + 4 by omega]
      simp only [Nat.mul_add, Nat.add_assoc, Nat.add_comm 4]
      rfl
    rw [popMany, hpop, Eff.bind_ok, hrest, Eff.bind_ok, List.range_succ_eq_map, List.map_cons, List.map_map]
    rfl

/-- Settles O11: the pushes lay the words downwards from the old top (`afterPushes_wordAt`), the pops read them upwards. -/
theorem pushedWordsPopInReverse : Obligations.PushedWordsPopInReverse := by
  intro vs s hstored hroom hhi
  have hsp := afterPushes_sp vs hroom
  have htop : s32 (afterPushes vs s).sp + 4 * (vs.length : Int) = s32 s.sp := by omega
  have hwords : ((List.range vs.length).map fun k => (afterPushes vs s).mem.wordAt ((s32 (afterPushes vs s).sp).toNat + 4 * k)) =
      vs.reverse := by
    refine List.ext_getElem (by simp) fun k hk _ => ?_
    have hk : k < vs.length := by simpa using hk
    rw [List.getElem_map, List.getElem_range, List.getElem_reverse, ← hstored _ (List.getElem_mem _),
      ← afterPushes_wordAt vs hroom]
    congr 1
    omega
  have hpops := popMany_of_range vs.length (s := afterPushes vs s) (by omega) (by omega)
  rw [hwords, htop] at hpops
  exact ⟨_, _, pushAll_of_room hroom hhi, hpops, w32_s32 s.sp⟩

end Sys2Proof.Machine
end

section
/-! PROOFS. Reset, load and the start of a run (70_reset_and_hazards.md): the values of reset, the bytes of a load, the scan. -/

namespace Sys2Proof.Machine

/-! ## Reset and load (R48, R331) -/

/-- Settles O12: every field of the reset state is the value named, and its memory lists no byte. -/
theorem resetValues : Obligations.ResetValues :=
  ⟨fun _ => rfl, by decide, by decide, rfl, rfl, rfl, rfl, rfl⟩

/-- Settles O24: the reset memory is canonical, the boundaries are 0, SP is 4096 and PC is 0. -/
theorem resetHasInv : Obligations.ResetHasInv where
  memWf := reset_mem_wf
  boundaryLe := Nat.zero_le _
  boundaryAligned := rfl
  loadBoundaryLe := Nat.zero_le _
  spRange := fun _ => by decide
  pcNonneg := fun _ => by decide

/-- Settles O13: the load that is accepted copies its buffer, whose bytes `Memory.read_copyFrom` gives. -/
theorem loadPlacesBytes : Obligations.LoadPlacesBytes := by
  intro bytes s hs
  rcases load_cases bytes s with ⟨hrun, _⟩ | ⟨_, hlong, he⟩ | ⟨_, hfits, he⟩
  · rw [hs] at hrun
    cases hrun
  · exact ⟨by omega, fun _ => he⟩
  · refine ⟨fun _ => ⟨_, he, fun a h => ?_, fun a h => ?_, rfl, rfl⟩, by omega⟩
    · rw [Memory.read_copyFrom, if_pos (by omega), Nat.sub_zero, List.getD_eq_getElem _ _ h]
    · rw [Memory.read_copyFrom, if_neg (by omega)]

/-! ## The boundary scan (R333, R335) -/

theorem Memory.wfFrom_cons {lo a : Nat} {b : Byte} {rest : Memory} :
    Memory.wfFrom lo ((a, b) :: rest) = true ↔ lo ≤ a ∧ a < 4096 ∧ b ≠ 0 ∧ rest.wfFrom (a + 1) = true := by
  simp [Memory.wfFrom, and_assoc]

/-- A canonical memory lists only nonzero bytes, so one that reads 0 everywhere lists none. -/
theorem Memory.eq_nil_of_read_zero {m : Memory} {lo : Nat} (hm : m.wfFrom lo = true) (hz : ∀ a, a < 4096 → m.read a = 0) :
    m = [] := by
  cases m with
  | nil => rfl
  | cons c rest =>
    obtain ⟨a, b⟩ := c
    obtain ⟨_, ha, hb, _⟩ := Memory.wfFrom_cons.mp hm
    exact absurd (by simpa [Memory.read] using hz a ha) hb

/-- The scan of a canonical memory ends just past the last nonzero byte. -/
theorem Memory.top_of_last {m : Memory} {lo a : Nat} (hm : m.wfFrom lo = true) (ha : m.read a ≠ 0)
    (hz : ∀ x, a < x → x < 4096 → m.read x = 0) : m.top = a + 1 := by
  induction m generalizing lo with
  | nil => exact absurd rfl ha
  | cons c rest ih =>
    obtain ⟨y, b⟩ := c
    obtain ⟨_, hy, hb, hrest⟩ := Memory.wfFrom_cons.mp hm
    have hread (x : Nat) (hx : y ≠ x) : Memory.read ((y, b) :: rest) x = Memory.read rest x := by rw [Memory.read, if_neg hx]
    rw [Memory.top, if_neg hb]
    by_cases hya : y = a
    · subst hya
      have hnil : rest = [] := Memory.eq_nil_of_read_zero hrest fun x hx => by
        rcases Nat.lt_or_ge y x with hlt | hle
        · rw [← hread x (by omega), hz x hlt hx]
        · exact Memory.read_of_lt_wfFrom hrest (by omega)
      rw [hnil]
      rfl
    · have har : Memory.read rest a ≠ 0 := hread a hya ▸ ha
      have hlt : y < a := by
        by_contra hn
        exact har (Memory.read_of_lt_wfFrom hrest (by omega))
      rw [ih hrest har fun x hx hx' => by rw [← hread x (by omega), hz x hx hx']]
      omega

/-- The scan at the start of a run is what the first step does before anything else (R333). -/
theorem step_of_not_started {s : State} (h : s.started = false) :
    step s = step { s with boundary := computeBoundary s.mem, started := true } := by
  have hbegin : beginRun s = { s with boundary := computeBoundary s.mem, started := true } := by simp [beginRun, h, State.start]
  unfold step plan
  rw [hbegin]
  rfl

/-- Settles O14: the scan's end in a canonical memory, rounded up to a word, and the first step as a step after the scan. -/
theorem runStartSetsBoundaryPastLastNonzeroWord : Obligations.RunStartSetsBoundaryPastLastNonzeroWord := by
  refine ⟨fun m hm => ⟨fun hz => ?_, fun a _ ha hz => ?_⟩, fun s => step_of_not_started⟩
  · rw [Memory.eq_nil_of_read_zero hm hz]
    rfl
  · rw [computeBoundary, Memory.top_of_last hm ha hz]
    omega

end Sys2Proof.Machine
end

section
/-! PROOFS. The engine (40_engine.md) and the invariant (R46): what one instruction can change, proved once for all instructions
(`exec_framed`), and what each step keeps. -/

namespace Sys2Proof.Machine

/-! ## The stack during an effect (R36, R46) -/

/-- Canonical memory and SP in its range. -/
def State.StackOk (s : State) : Prop := s.mem.wf = true ∧ s.SpInRange

/-- The stack is in order where the effect goes on, and memory is canonical where it raises (SP may then be negative). -/
def Eff.StackSafe {α : Type} (e : Eff α) : Prop :=
  match e with
  | .ok _ u => u.StackOk
  | .raise _ u => u.mem.wf = true

theorem Eff.StackSafe.bind {α β : Type} {e : Eff α} {f : α → State → Eff β} (he : e.StackSafe)
    (hf : ∀ a u, u.StackOk → (f a u).StackSafe) : (e.bind f).StackSafe := by
  cases e with
  | ok a u => exact hf a u he
  | raise k u => exact he

theorem lift_stackSafe {α : Type} {s : State} (e : Except FaultKind α) (h : s.StackOk) : (Eff.lift s e).StackSafe := by
  cases e with
  | ok a => exact h
  | error k => exact h.1

theorem push_stackSafe (v : Word) {s : State} (h : s.StackOk) : (push v s).StackSafe := by
  obtain ⟨hwf, h0, hhi⟩ := h
  rcases push_cases v (by omega) hhi with ⟨_, he⟩ | ⟨h4, he⟩ <;> rw [he]
  · exact hwf
  · refine ⟨Memory.wf_writeWord _ (by omega) hwf, ?_⟩
    have := afterPush_sp v (s := s) (by omega)
    unfold State.SpInRange
    omega

/-- A pop that goes on leaves SP in range whatever SP was, by the clamp (R36, R68). -/
theorem pop_stackSafe {s : State} (hwf : s.mem.wf = true) : (pop s).StackSafe := by
  rcases pop_cases s with ⟨_, he⟩ | ⟨h0, he⟩ <;> rw [he]
  · exact hwf
  · refine ⟨hwf, ?_⟩
    unfold State.SpInRange
    rw [State.setSp_sp, s32_afterPop h0, afterPop]
    omega

theorem pushAll_stackSafe (ws : List Word) {s : State} (h : s.StackOk) : (pushAll ws s).StackSafe := by
  induction ws generalizing s with
  | nil => exact h
  | cons v vs ih => exact (push_stackSafe v h).bind fun _ _ hu => ih hu

theorem binOp_stackSafe (f : BinFn) {s : State} (h : s.StackOk) : (binOp f s).StackSafe :=
  (pop_stackSafe h.1).bind fun _ _ h1 => (pop_stackSafe h1.1).bind fun _ _ h2 =>
    (lift_stackSafe _ h2).bind fun r _ h3 => push_stackSafe r h3

theorem unOp_stackSafe (f : Word → Except FaultKind Word) {s : State} (h : s.StackOk) : (unOp f s).StackSafe :=
  (pop_stackSafe h.1).bind fun _ _ h1 => (lift_stackSafe _ h1).bind fun r _ h2 => push_stackSafe r h2

theorem swapBytes_stackSafe (a b : Int) {s : State} (h : s.StackOk) : (swapBytes a b s).StackSafe := by
  rcases swapBytes_cases a b s with ⟨_, he⟩ | ⟨_, _, he⟩ | ⟨_, _, he⟩ <;> rw [he]
  · exact h.1
  · exact h.1
  · exact ⟨Memory.wf_write _ (by omega) (Memory.wf_write _ (by omega) h.1), h.2⟩

/-! ## What an instruction's effect changes (R41 to R43, R76, R141) -/

/-- The input is as before, or its oldest line has been taken (R42). -/
def LineTaken (s u : State) : Prop := u.input = s.input ∨ ∃ line, s.input = line :: u.input

/-- The state an effect raises in: memory, SP and the input may differ (R141, R305). -/
structure Raised (s u : State) : Prop where
  line : LineTaken s u
  memWf : s.StackOk → u.mem.wf = true
  rest : u = { s with mem := u.mem, sp := u.sp, input := u.input }

/-- The state an effect goes on in: PC and the output may differ as well, the output by what was appended (R41). -/
structure Completed (s u : State) : Prop where
  line : LineTaken s u
  stackOk : s.StackOk → u.StackOk
  out : ∃ es, u.out = s.out ++ es
  rest : u = { s with mem := u.mem, sp := u.sp, pc := u.pc, out := u.out, input := u.input }

/-- The effect goes on or raises in such a state. -/
def Eff.Framed (s : State) (e : Eff Unit) : Prop :=
  match e with
  | .ok _ u => Completed s u
  | .raise _ u => Raised s u

theorem Completed.refl (s : State) : Completed s s := ⟨.inl rfl, id, ⟨[], (List.append_nil _).symm⟩, rfl⟩

theorem Completed.emitAll (s : State) (es : List Event) : Completed s (s.emitAll es) := ⟨.inl rfl, id, ⟨es, rfl⟩, rfl⟩

theorem SameButMemSp.completed {s u : State} (h : SameButMemSp s u) (hok : s.StackOk → u.StackOk) : Completed s u :=
  ⟨.inl h.input, hok, ⟨[], by rw [List.append_nil, h.out]⟩, by rw [h]⟩

theorem SameButMemSp.raised {s u : State} (h : SameButMemSp s u) (hwf : s.StackOk → u.mem.wf = true) : Raised s u :=
  ⟨.inl h.input, hwf, by rw [h]⟩

/-- The effects of the stack operations touch memory and SP alone. -/
theorem framed_of_stackSafe {s : State} {e : Eff Unit} (h : SameButMemSp s e.after) (hsafe : s.StackOk → e.StackSafe) :
    e.Framed s := by
  cases e with
  | ok _ u => exact SameButMemSp.completed h hsafe
  | raise k u => exact SameButMemSp.raised h hsafe

/-- What follows the reading of a line is framed from the state before it. -/
theorem framed_of_setInput {s : State} {line : List Byte} {rest : List (List Byte)} {e : Eff Unit} (hin : s.input = line :: rest)
    (h : SameButMemSp (s.setInput rest) e.after) (hsafe : s.StackOk → e.StackSafe) : e.Framed s := by
  have hline : LineTaken s e.after := .inr ⟨line, by rw [hin, h.input]; rfl⟩
  cases e with
  | ok _ u =>
    have hu : SameButMemSp (s.setInput rest) u := h
    exact ⟨hline, hsafe, ⟨[], by rw [List.append_nil, hu.out]; rfl⟩, by rw [hu]; rfl⟩
  | raise k u =>
    have hu : SameButMemSp (s.setInput rest) u := h
    exact ⟨hline, hsafe, by rw [hu]; rfl⟩

/-- An effect after a line has been read. -/
theorem framed_of_readLine {s u : State} {line : List Byte} {e : Eff Unit} (hl : readLine eofAsEmpty s = some (line, u))
    (h : SameButMemSp u e.after) (hsafe : u.StackOk → e.StackSafe) : e.Framed s := by
  rcases readLine_cases s with ⟨l, rest, hin, he⟩ | ⟨_, _, he⟩ | ⟨_, _, he⟩ <;> rw [he] at hl <;> cases hl
  · exact framed_of_setInput hin h hsafe
  · exact framed_of_stackSafe h hsafe

/-- A jump after an effect on the stack changes PC as well (R34, R35). -/
theorem jumpPc_framed {s u : State} (target : Int) (h : SameButMemSp s u) (hok : s.StackOk → u.StackOk) :
    (jumpPc target u).Framed s := by
  rcases jumpPc_cases target u with ⟨_, he⟩ | ⟨_, he⟩ <;> rw [he]
  · exact ⟨.inl h.input, fun hs => (hok hs).1, by rw [h]⟩
  · exact ⟨.inl h.input, hok, ⟨[], by rw [List.append_nil]; exact h.out⟩, by rw [h]; rfl⟩

theorem branch_framed (taken : Bool) (o : Int) (s : State) : (branch taken o s).Framed s := by
  cases taken with
  | true => exact jumpPc_framed _ (.refl s) id
  | false => exact ⟨.inl rfl, id, ⟨[], (List.append_nil _).symm⟩, rfl⟩

/-- An effect on the stack, then a jump that uses its value. -/
theorem framed_bind_jumpPc {α : Type} {s : State} {e : Eff α} (target : α → State → Int) (h : SameButMemSp s e.after)
    (hsafe : s.StackOk → e.StackSafe) : (e.bind fun a u => jumpPc (target a u) u).Framed s := by
  cases e with
  | ok a u => exact jumpPc_framed _ h hsafe
  | raise k u => exact ⟨.inl h.input, hsafe, by rw [show u = _ from h]⟩

/-- A read that may fault, then an effect on the same state. -/
theorem framed_lift_bind {α : Type} {s : State} (e : Except FaultKind α) {f : α → State → Eff Unit} (hf : ∀ a, (f a s).Framed s) :
    ((Eff.lift s e).bind f).Framed s := by
  cases e with
  | ok a => exact hf a
  | error k => exact ⟨.inl rfl, And.left, rfl⟩

/-- An instruction's next state comes from a framed effect, with the engine's advance after it or without. -/
def FromFramedEffect (s t : State) : Prop := ∃ e : Eff Unit, e.Framed s ∧ (e.thenAdvance = .next t ∨ e.thenStay = .next t)

theorem FromFramedEffect.of_advance {s t : State} {e : Eff Unit} (h : e.thenAdvance = .next t) (he : e.Framed s) :
    FromFramedEffect s t := ⟨e, he, .inl h⟩

theorem FromFramedEffect.of_stay {s t : State} {e : Eff Unit} (h : e.thenStay = .next t) (he : e.Framed s) :
    FromFramedEffect s t := ⟨e, he, .inr h⟩

theorem binaryIf_fromFramedEffect {taken : Int → Int → Bool} {o : Int} {s t : State} (h : binaryIf taken o s = .next t) :
    FromFramedEffect s t :=
  .of_stay h (framed_lift_bind _ fun _ => framed_lift_bind _ fun _ => branch_framed _ o s)

theorem unaryIf_fromFramedEffect {taken : Int → Bool} {o : Int} {s t : State} (h : unaryIf taken o s = .next t) :
    FromFramedEffect s t :=
  .of_stay h (framed_lift_bind _ fun _ => branch_framed _ o s)

theorem jumpSp_stackOk {s : State} {v : Int} (h : s.mem.wf = true) (h0 : 0 ≤ v) : (jumpSp v s).StackOk := by
  have hsp : s32 (jumpSp v s).sp = min v 4096 := s32_w32 (n := min v 4096) (by omega) (by omega)
  refine ⟨h, ?_⟩
  unfold State.SpInRange
  omega

/-- Exit alone sets the status itself; the effect of every other instruction is framed (R137). -/
theorem exec_framed {i : Instr} {s t : State} (hi : ∀ c, i ≠ .exit c) (h : exec i s = .next t) : FromFramedEffect s t := by
  cases i with
  | exit c => exact absurd rfl (hi c)
  | ifeq | ifne | iflt | ifgt | ifle | ifge | ifrsv => exact binaryIf_fromFramedEffect h
  | ifez | ifnz | ifmi | ifpl => exact unaryIf_fromFramedEffect h
  | goto o => exact .of_stay h (jumpPc_framed _ (.refl s) id)
  | call o => exact .of_stay h (framed_bind_jumpPc _ (push_sameButMemSp _ s) (push_stackSafe _))
  | ret o =>
    have hsame : SameButMemSp s (pop (jumpSp (spRel s o) s)).after :=
      SameButMemSp.trans (t := jumpSp (spRel s o) s) rfl (pop_sameButMemSp _)
    exact .of_stay h (framed_bind_jumpPc _ hsame fun hs => pop_stackSafe (s := jumpSp (spRel s o) s) hs.1)
  | nop | debug => exact .of_advance (e := .ok () s) h (.refl s)
  | add | sub | mul | div | rem | and | or | xor | lsl | lsr | asr =>
    exact .of_advance h (framed_of_stackSafe (binOp_sameButMemSp _ s) (binOp_stackSafe _))
  | neg | not => exact .of_advance h (framed_of_stackSafe (unOp_sameButMemSp _ s) (unOp_stackSafe _))
  | swap a b => exact .of_advance h (framed_of_stackSafe (swapBytes_sameButMemSp _ _ s) (swapBytes_stackSafe _ _))
  | push v => exact .of_advance h (framed_of_stackSafe (push_sameButMemSp v s) (push_stackSafe v))
  | dup o =>
    exact .of_advance h (framed_lift_bind _ fun v => framed_of_stackSafe (push_sameButMemSp v s) (push_stackSafe v))
  | print o f => exact .of_advance h (framed_lift_bind _ fun _ => .emitAll s _)
  | input =>
    obtain ⟨line, u, hl, hu⟩ := execInput_next h
    exact .of_advance hu (framed_of_readLine hl (push_sameButMemSp _ u) (push_stackSafe _))
  | stinput n =>
    obtain ⟨line, u, hl, hu⟩ := execStInput_next h
    exact .of_advance hu (framed_of_readLine hl (pushAll_sameButMemSp _ u) (pushAll_stackSafe _))
  | pop n =>
    simp only [exec, execPop] at h
    split at h
    · exact .of_advance h (framed_of_stackSafe rfl fun hs => jumpSp_stackOk hs.1 (by have := hs.2.1; unfold spRel; omega))
    · exact .of_advance h (.refl s)
  | stprint o =>
    simp only [exec, execStPrint] at h
    split at h
    · exact .of_advance h (framed_of_stackSafe rfl And.left)
    · exact .of_advance h (.emitAll s _)
  | dump =>
    simp only [exec, execDump] at h
    split at h
    · exact .of_advance h (.refl s)
    · split at h
      · exact .of_advance h (framed_of_stackSafe rfl And.left)
      · exact .of_advance h (.emitAll s _)

/-! ## The next state of an instruction -/

/-- The next state of an instruction other than Exit: a completed effect, with PC's last write, or a fault taken where it was
raised (R136, R138, R141). -/
theorem FromFramedEffect.cases {s t : State} (h : FromFramedEffect s t) :
    (∃ u, Completed s u ∧ (t = u ∨ t = advancePc u)) ∨ ∃ k u, Raised s u ∧ t = takeFault k u := by
  obtain ⟨e, he, hadv | hstay⟩ := h
  · rcases Eff.thenAdvance_cases hadv with ⟨u, rfl, rfl⟩ | ⟨k, u, rfl, rfl⟩
    · exact .inl ⟨u, he, .inr rfl⟩
    · exact .inr ⟨k, u, he, rfl⟩
  · rcases Eff.thenStay_cases hstay with rfl | ⟨k, u, rfl, rfl⟩
    · exact .inl ⟨t, he, .inl rfl⟩
    · exact .inr ⟨k, u, he, rfl⟩

theorem Completed.status {s u : State} (h : Completed s u) : u.status = s.status := by rw [h.rest]

/-- A completed effect stays completed when PC is advanced. -/
theorem Completed.advancePc {s u : State} (h : Completed s u) : Completed s (advancePc u) :=
  ⟨h.line, h.stackOk, h.out, by rw [h.rest]; rfl⟩

/-- Every next state of an instruction: Exit's, a completed effect's, or a fault taken where it was raised. -/
theorem exec_cases {i : Instr} {s t : State} (h : exec i s = .next t) :
    (∃ c, i = .exit c ∧ t = s.setStatus (.exited c)) ∨ Completed s t ∨ ∃ k u, Raised s u ∧ t = takeFault k u := by
  by_cases hi : ∃ c, i = .exit c
  · obtain ⟨c, rfl⟩ := hi
    exact .inl ⟨c, rfl, by cases h; rfl⟩
  · rcases (exec_framed (not_exists.mp hi) h).cases with ⟨u, hu, rfl | rfl⟩ | hr
    · exact .inr (.inl hu)
    · exact .inr (.inl hu.advancePc)
    · exact .inr (.inr hr)

/-- Settles O21: a fault is taken in the state it was raised in, which differs in memory, SP and the input alone. -/
theorem faultsArePrecise : Obligations.FaultsArePrecise := by
  intro i s t k pc hrun h hf
  rcases exec_cases h with ⟨c, _, rfl⟩ | hc | ⟨k', u, hr, rfl⟩
  · cases hf
  · rw [hc.status, hrun] at hf
    cases hf
  · cases hf
    rw [hr.rest]
    exact ⟨rfl, rfl, rfl, rfl, rfl, rfl⟩

end Sys2Proof.Machine
end

section
/-! PROOFS. The engine (40_engine.md), continued: the steps that execute nothing, the ports and boundaries along a step, the
invariant of R46, and the instructions that leave memory alone (R71). -/

namespace Sys2Proof.Machine

/-! ## Steps that execute nothing (R132, R135, R39) -/

theorem beginRun_of_started {s : State} (h : s.started = true) : beginRun s = s := by simp [beginRun, h]

theorem step_of_halt {s : State} {st : Status} (hrun : s.status = .running) (hstarted : s.started = true)
    (hh : haltCheck s = some st) : step s = .next (s.setStatus st) := by
  simp only [step, plan, hrun, beginRun_of_started hstarted, planCycle, hh]

theorem step_of_ended {s : State} (h : s.status ≠ .running) : step s = .fault (.runEnded s.status) := by
  unfold step plan
  cases hs : s.status with
  | running => exact absurd hs h
  | _ => rfl

/-- At a fetch of an unrecognized word the step skips it (R135). -/
theorem step_eq_skipWord {s : State} {r : DecodeReject} (h : s.AtFetch) (hd : decode (s.mem.wordOrZero (s32 s.pc)) = .error r) :
    step s = .next (skipWord s) := by
  obtain ⟨hrun, hstarted, hpc, hpcb, hbsp, _⟩ := h
  simp only [step, plan, hrun, beginRun_of_started hstarted, planCycle, haltCheck_none.mpr ⟨hbsp, hpcb⟩, fetch_of_nonneg hpc, hd]

/-- Settles O15: the step at a fetch, which needs no more than that the word decodes. -/
theorem stepRunsDecodedInstruction : Obligations.StepRunsDecodedInstruction := fun _ _ h hd _ => step_eq_exec_of_atFetch h hd

/-- Settles O16: the step at a fetch of such a word is `skipWord`. -/
theorem unrecognizedWordIsSkipped : Obligations.UnrecognizedWordIsSkipped := fun s _ h hd =>
  ⟨skipWord s, step_eq_skipWord h hd, rfl, s32_w32_plusFour s.pc, h.1, rfl⟩

/-- Settles O17: the two halts by `haltCheck_cases`, whose conditions exclude each other. -/
theorem haltChecksComeFirstAndEndsAreFinal : Obligations.HaltChecksComeFirstAndEndsAreFinal := by
  refine fun s => ⟨fun hrun hstarted hsp => ?_, fun hrun hstarted hsp hpc => ?_, step_of_ended⟩
  · rcases haltCheck_cases s with ⟨_, hh⟩ | ⟨_, _, _⟩ | ⟨_, _, _⟩
    · exact step_of_halt hrun hstarted hh
    all_goals omega
  · rcases haltCheck_cases s with ⟨_, _⟩ | ⟨_, _, hh⟩ | ⟨_, _, _⟩
    · omega
    · exact step_of_halt hrun hstarted hh
    · omega

/-! ## The ports and the boundaries along a step (R38, R41 to R43) -/

/-- The output and the log grow, the input shrinks by a line at most, the boundaries and the marks stay. -/
structure PortsKept (s t : State) : Prop where
  out : ∃ es, t.out = s.out ++ es
  unrecLog : t.unrecLog = s.unrecLog ∨ t.unrecLog = s.unrecLog ++ [s.pc]
  line : LineTaken s t
  inputEnded : t.inputEnded = s.inputEnded
  loadBoundary : t.loadBoundary = s.loadBoundary
  boundary : t.boundary = s.boundary
  started : t.started = s.started

/-- A state that differs in memory, SP, PC and status alone keeps the ports. -/
theorem PortsKept.of_registers {s t : State}
    (h : t = { s with mem := t.mem, sp := t.sp, pc := t.pc, status := t.status }) : PortsKept s t := by
  rw [h]
  exact ⟨⟨[], (List.append_nil _).symm⟩, .inl rfl, .inl rfl, rfl, rfl, rfl, rfl⟩

theorem Completed.portsKept {s t : State} (h : Completed s t) : PortsKept s t where
  out := h.out
  line := h.line
  unrecLog := .inl (by rw [h.rest])
  inputEnded := by rw [h.rest]
  loadBoundary := by rw [h.rest]
  boundary := by rw [h.rest]
  started := by rw [h.rest]

theorem Raised.portsKept {s u : State} (k : FaultKind) (h : Raised s u) : PortsKept s (takeFault k u) where
  out := ⟨[], by rw [takeFault_out, h.rest, List.append_nil]⟩
  line := h.line
  unrecLog := .inl (by rw [takeFault_unrecLog, h.rest])
  inputEnded := by rw [takeFault_inputEnded, h.rest]
  loadBoundary := by rw [takeFault_loadBoundary, h.rest]
  boundary := by rw [takeFault_boundary, h.rest]
  started := by rw [takeFault_started, h.rest]

theorem exec_portsKept {i : Instr} {s t : State} (h : exec i s = .next t) : PortsKept s t := by
  rcases exec_cases h with ⟨c, _, rfl⟩ | hc | ⟨k, u, hr, rfl⟩
  · exact .of_registers rfl
  · exact hc.portsKept
  · exact hr.portsKept k

theorem skipWord_portsKept (s : State) : PortsKept s (skipWord s) :=
  ⟨⟨[], (List.append_nil _).symm⟩, .inr rfl, .inl rfl, rfl, rfl, rfl, rfl⟩

/-- Once the run has begun, every way a step can end keeps the ports and the boundaries. -/
theorem step_portsKept {s t : State} (h : step s = .next t) : PortsKept (beginRun s) t := by
  obtain ⟨_, ⟨st, _, rfl⟩ | ⟨_, ⟨k, _, rfl⟩ | ⟨w, r, _, _, rfl⟩ | ⟨w, i, _, _, he⟩⟩⟩ := step_cases h
  · exact .of_registers rfl
  · exact .of_registers rfl
  · exact skipWord_portsKept _
  · exact exec_portsKept he

/-- Settles O25: `step_portsKept`, and the beginning of a run changes the boundary and the start mark alone. -/
theorem logsGrowAndBoundariesStay : Obligations.LogsGrowAndBoundariesStay := by
  intro s t h
  have hk := step_portsKept h
  refine ⟨by simpa using hk.out, by simpa using hk.unrecLog, by simpa [LineTaken] using hk.line, by simpa using hk.inputEnded,
    by simpa using hk.loadBoundary, by simpa using hk.started, fun hs => ?_⟩
  rw [hk.boundary, beginRun_of_started hs]

/-! ## PC after an instruction that goes on (R34, R35, R46) -/

theorem Eff.bind_eq_ok {α β : Type} {e : Eff α} {f : α → State → Eff β} {b : β} {t : State} (h : e.bind f = .ok b t) :
    ∃ a u, e = .ok a u ∧ f a u = .ok b t := by
  cases e with
  | ok a u => exact ⟨a, u, rfl, h⟩
  | raise k u => cases h

/-- A jump that goes on went to a target that is not negative (R35). -/
theorem jumpPc_pc_nonneg {target : Int} {s t : State} (hmax : target ≤ 2147483647) (h : jumpPc target s = .ok () t) :
    0 ≤ s32 t.pc := by
  rcases jumpPc_cases target s with ⟨_, he⟩ | ⟨h0, he⟩ <;> rw [he] at h <;> cases h
  rw [State.setPc_pc, s32_w32 (by omega) hmax]
  exact h0

theorem branch_pc_nonneg {taken : Bool} {o : Int} {s t : State} (hpc : 0 ≤ s32 s.pc) (hmax : pcRel s o ≤ 2147483647)
    (h : branch taken o s = .ok () t) : 0 ≤ s32 t.pc := by
  cases taken with
  | true => exact jumpPc_pc_nonneg hmax h
  | false =>
    cases h
    rw [advancePc_pc, s32_w32_plusFour, plusFour]
    omega

theorem conditional_pc_nonneg {i : Instr} {o : Int} {s t : State} (hi : i ∈ binaryIfs o ++ unaryIfs o) (h0 : 0 ≤ s32 s.sp)
    (hpc : 0 ≤ s32 s.pc) (hmax : pcRel s o ≤ 2147483647) (h : exec i s = .next t) (hr : t.status = .running) : 0 ≤ s32 t.pc := by
  obtain ⟨taken, he⟩ := exec_conditional hi h0
  exact branch_pc_nonneg hpc hmax (Eff.thenStay_running (he.symm.trans h) hr)

/-- An instruction whose offset reaches no further than 31 bits leaves a PC that is not negative, if the core goes on. -/
theorem exec_pc_nonneg {i : Instr} {s t : State} (hrun : s.status = .running) (h0 : 0 ≤ s32 s.sp) (hpc : 0 ≤ s32 s.pc)
    (hmax : ∀ o, jumpOffset i = some o → s32 s.pc + o ≤ 2147483647) (h : exec i s = .next t) (hr : t.status = .running) :
    0 ≤ s32 t.pc := by
  cases i with
  | exit c => cases h; cases hr
  | goto o => exact jumpPc_pc_nonneg (hmax o rfl) (Eff.thenStay_running h hr)
  | call o =>
    obtain ⟨_, u, hpush, hjump⟩ := Eff.bind_eq_ok (Eff.thenStay_running h hr)
    have hu : u.pc = s.pc := by simpa [hpush] using (push_sameButMemSp (returnAddress s) s).pc
    exact jumpPc_pc_nonneg (by rw [pcRel, hu]; exact hmax o rfl) hjump
  | ret o =>
    obtain ⟨v, u, _, hjump⟩ := Eff.bind_eq_ok (Eff.thenStay_running h hr)
    exact jumpPc_pc_nonneg (s32_bounds v).2 hjump
  | ifeq o | ifne o | iflt o | ifgt o | ifle o | ifge o | ifez o | ifnz o | ifmi o | ifpl o =>
    exact conditional_pc_nonneg (by simp [binaryIfs, unaryIfs]) h0 hpc (hmax o rfl) h hr
  | ifrsv c o => cases c <;> exact conditional_pc_nonneg (by simp [binaryIfs, unaryIfs]) h0 hpc (hmax o rfl) h hr
  | _ =>
    rw [engineAdvancesPc _ s t rfl hrun h hr, plusFour]
    omega

/-! ## The invariant (R46) -/

theorem beginRun_inv {s : State} (h : s.Inv) : (beginRun s).Inv := by
  rcases beginRun_cases s with ⟨_, he⟩ | ⟨_, he⟩ <;> rw [he]
  · exact h
  · exact ⟨h.memWf, computeBoundary_le h.memWf, computeBoundary_mod _, h.loadBoundaryLe, h.spRange, h.pcNonneg⟩

/-- A next state that keeps the boundaries has the invariant if its memory is canonical and its registers are in range. -/
theorem PortsKept.inv {s t : State} (hk : PortsKept s t) (h : s.Inv) (hwf : t.mem.wf = true)
    (hsp : t.status = .running → 0 ≤ s32 t.sp ∧ s32 t.sp ≤ 4096) (hpc : t.status = .running → 0 ≤ s32 t.pc) : t.Inv where
  memWf := hwf
  boundaryLe := hk.boundary ▸ h.boundaryLe
  boundaryAligned := hk.boundary ▸ h.boundaryAligned
  loadBoundaryLe := hk.loadBoundary ▸ h.loadBoundaryLe
  spRange := hsp
  pcNonneg := hpc

/-- A state that differs in its status alone, and ends the run, keeps the invariant. -/
theorem setStatus_inv {s : State} {st : Status} (h : s.Inv) (hst : st ≠ .running) : (s.setStatus st).Inv :=
  (PortsKept.of_registers rfl).inv h h.memWf (fun hr => absurd hr hst) (fun hr => absurd hr hst)

theorem skipWord_inv {s : State} (h : s.Inv) (hrun : s.status = .running) : (skipWord s).Inv := by
  have hpc := h.pcNonneg hrun
  refine (skipWord_portsKept s).inv h h.memWf h.spRange fun _ => ?_
  rw [skipWord_pc, s32_w32_plusFour, plusFour]
  omega

/-- An instruction executed where the checks before a fetch passed keeps the invariant. -/
theorem exec_inv {i : Instr} {s t : State} (h : s.Inv) (hrun : s.status = .running) (hpcb : s32 s.pc < s.boundary)
    (hi : ∀ o, jumpOffset i = some o → -134217728 ≤ o ∧ o ≤ 134217724) (he : exec i s = .next t) : t.Inv := by
  have hok : s.StackOk := ⟨h.memWf, h.spRange hrun⟩
  have hkept := exec_portsKept he
  have hb := h.boundaryLe
  have hpc := exec_pc_nonneg hrun (h.spRange hrun).1 (h.pcNonneg hrun) (fun o ho => by have := hi o ho; omega) he
  rcases exec_cases he with ⟨c, _, rfl⟩ | hc | ⟨k, u, hr, rfl⟩
  · exact setStatus_inv h nofun
  · exact hkept.inv h (hc.stackOk hok).1 (fun _ => (hc.stackOk hok).2) hpc
  · exact hkept.inv h (hr.memWf hok) nofun hpc

/-- Settles O23: each way a step can end keeps the invariant, with the boundary that the beginning of the run computes. -/
theorem stepKeepsInv : Obligations.StepKeepsInv := by
  intro s t hs h
  have hb := beginRun_inv hs
  obtain ⟨hrun, ⟨st, hst, rfl⟩ | ⟨hnone, ⟨k, _, rfl⟩ | ⟨w, r, _, _, rfl⟩ | ⟨w, i, _, hd, he⟩⟩⟩ := step_cases h
  · refine setStatus_inv hb ?_
    rintro rfl
    rcases haltCheck_cases (beginRun s) with ⟨_, hh⟩ | ⟨_, _, hh⟩ | ⟨_, _, hh⟩ <;> rw [hh] at hst <;> cases hst
  · exact setStatus_inv hb nofun
  · exact skipWord_inv hb (by simpa using hrun)
  · exact exec_inv hb (by simpa using hrun) (haltCheck_none.mp hnone).2 (fun _ => decoded_jumpOffset_range hd) he

/-! ## The instructions that leave memory alone (R71) -/

theorem Eff.bind_after_mem {α β : Type} {s : State} {e : Eff α} {f : α → State → Eff β} (he : e.after.mem = s.mem)
    (hf : ∀ a u, (f a u).after.mem = u.mem) : (e.bind f).after.mem = s.mem := by
  cases e with
  | ok a u => exact (hf a u).trans he
  | raise k u => exact he

theorem lift_after_mem {α : Type} (s : State) (e : Except FaultKind α) : (Eff.lift s e).after.mem = s.mem := by
  rw [Eff.after_lift]

theorem pop_after_mem (s : State) : (pop s).after.mem = s.mem := by
  rcases pop_cases s with ⟨_, he⟩ | ⟨_, he⟩ <;> rw [he] <;> rfl

theorem jumpPc_after_mem (target : Int) (s : State) : (jumpPc target s).after.mem = s.mem := by
  rcases jumpPc_cases target s with ⟨_, he⟩ | ⟨_, he⟩ <;> rw [he] <;> rfl

theorem branch_after_mem (taken : Bool) (o : Int) (s : State) : (branch taken o s).after.mem = s.mem := by
  cases taken with
  | true => exact jumpPc_after_mem _ s
  | false => rfl

theorem thenAdvance_mem {s t : State} {e : Eff Unit} (h : e.thenAdvance = .next t) (he : e.after.mem = s.mem) : t.mem = s.mem := by
  rcases thenAdvance_of_after h with rfl | ⟨k, rfl⟩ <;> exact he

theorem thenStay_mem {s t : State} {e : Eff Unit} (h : e.thenStay = .next t) (he : e.after.mem = s.mem) : t.mem = s.mem := by
  rcases Eff.thenStay_cases h with rfl | ⟨k, u, rfl, rfl⟩ <;> exact he

theorem binaryIf_mem {taken : Int → Int → Bool} {o : Int} {s t : State} (h : binaryIf taken o s = .next t) : t.mem = s.mem :=
  thenStay_mem h <| Eff.bind_after_mem (lift_after_mem s _) fun _ u =>
    Eff.bind_after_mem (lift_after_mem u _) fun _ v => branch_after_mem _ o v

theorem unaryIf_mem {taken : Int → Bool} {o : Int} {s t : State} (h : unaryIf taken o s = .next t) : t.mem = s.mem :=
  thenStay_mem h (Eff.bind_after_mem (lift_after_mem s _) fun _ u => branch_after_mem _ o u)

/-- Settles O26: the effects of the other instructions write registers, the status and the output alone. -/
theorem onlyWritersChangeMemory : Obligations.OnlyWritersChangeMemory := by
  intro i s t hw h
  cases i with
  | exit | nop | debug => cases h; rfl
  | ifeq | ifne | iflt | ifgt | ifle | ifge | ifrsv => exact binaryIf_mem h
  | ifez | ifnz | ifmi | ifpl => exact unaryIf_mem h
  | goto o => exact thenStay_mem h (jumpPc_after_mem _ s)
  | ret o => exact thenStay_mem (s := s) h (Eff.bind_after_mem (pop_after_mem (jumpSp (spRel s o) s)) fun _ u => jumpPc_after_mem _ u)
  | pop n =>
    simp only [exec, execPop] at h
    split at h <;> exact thenAdvance_mem h rfl
  | print o f => exact thenAdvance_mem h (Eff.bind_after_mem (lift_after_mem s _) fun _ _ => rfl)
  | stprint o =>
    simp only [exec, execStPrint] at h
    split at h <;> exact thenAdvance_mem h rfl
  | dump =>
    simp only [exec, execDump] at h
    split at h
    · exact thenAdvance_mem h rfl
    · split at h <;> exact thenAdvance_mem h rfl
  | _ => cases hw

end Sys2Proof.Machine
end

section
/-! PROOFS. Exceptions (60_exceptions.md): the faults of each instruction, by R304's table. -/

namespace Sys2Proof.Machine

/-! ## The classes an effect can raise -/

/-- The effect goes on with the status as it was, or raises a fault of one of the classes. -/
def Eff.FaultsIn {α : Type} (cs : List FaultClass) (s : State) (e : Eff α) : Prop :=
  match e with
  | .ok _ u => u.status = s.status
  | .raise k _ => k.cls ∈ cs

theorem Eff.FaultsIn.bind {α β : Type} {cs : List FaultClass} {s : State} {e : Eff α} {f : α → State → Eff β}
    (he : e.FaultsIn cs s) (hf : ∀ a u, e = .ok a u → (f a u).FaultsIn cs u) : (e.bind f).FaultsIn cs s := by
  cases e with
  | ok a u =>
    have hu : u.status = s.status := he
    have hfu := hf a u rfl
    unfold Eff.FaultsIn at hfu ⊢
    rwa [hu] at hfu
  | raise k u => exact he

theorem lift_faultsIn {α : Type} {cs : List FaultClass} {e : Except FaultKind α} (s : State) (h : ∀ k, e = .error k → k.cls ∈ cs) :
    (Eff.lift s e).FaultsIn cs s := by
  cases e with
  | ok a => exact rfl
  | error k => exact h k rfl

theorem poke_error_cls {m : Memory} {a : Int} {v : Word} {k : FaultKind} (h : poke m a v = .error k) : k.cls = .addressFault := by
  rcases poke_cases m a v with ⟨_, he⟩ | ⟨_, _, he⟩ <;> rw [he] at h <;> cases h
  rfl

theorem push_faultsIn (v : Word) (s : State) : (push v s).FaultsIn [.addressFault] s := by
  have hpoke := lift_faultsIn (cs := [.addressFault]) (s.setSp (s32 s.sp - 4)) fun k hk => by
    rw [poke_error_cls (m := s.mem) (a := s32 (w32 (s32 s.sp - 4))) (v := fillSign pushSextMode v) hk]
    exact List.mem_singleton.mpr rfl
  exact hpoke.bind fun _ _ _ => rfl

/-- A push with room raises nothing. -/
theorem push_faultsIn_of_room (cs : List FaultClass) (v : Word) {s : State} (h4 : 4 ≤ s32 s.sp) (hhi : s32 s.sp ≤ 4096) :
    (push v s).FaultsIn cs s := by
  rw [push_of_range v h4 hhi]
  exact rfl

theorem pushAll_faultsIn (ws : List Word) (s : State) : (pushAll ws s).FaultsIn [.addressFault] s := by
  induction ws generalizing s with
  | nil => exact rfl
  | cons v vs ih => exact (push_faultsIn v s).bind fun _ u _ => ih u

theorem pop_faultsIn (s : State) : (pop s).FaultsIn [.addressFault] s := by
  rcases pop_cases s with ⟨_, he⟩ | ⟨_, he⟩ <;> rw [he]
  · exact List.mem_singleton.mpr rfl
  · exact rfl

theorem jumpPc_faultsIn (target : Int) (s : State) : (jumpPc target s).FaultsIn [.pcOutOfRange] s := by
  rcases jumpPc_cases target s with ⟨_, he⟩ | ⟨_, he⟩ <;> rw [he]
  · exact List.mem_singleton.mpr rfl
  · exact rfl

theorem branch_faultsIn (taken : Bool) (o : Int) (s : State) : (branch taken o s).FaultsIn [.pcOutOfRange] s := by
  cases taken with
  | true => exact jumpPc_faultsIn _ s
  | false => exact rfl

theorem Eff.FaultsIn.mono {α : Type} {cs ds : List FaultClass} {s : State} {e : Eff α} (h : e.FaultsIn cs s) (hsub : cs ⊆ ds) :
    e.FaultsIn ds s := by
  cases e with
  | ok a u => exact h
  | raise k u => exact hsub h

/-- A binary instruction with SP in range raises its function's faults alone: both pops and the push find room (R210). -/
theorem binOp_faultsIn {cs : List FaultClass} {f : BinFn} {s : State} (h : s.SpInRange)
    (hf : ∀ l r k, f l r = .error k → k.cls ∈ cs) : (binOp f s).FaultsIn cs s := by
  have hsp := s32_afterTwoPops h.1
  rw [binOp_of_nonneg f h.1]
  refine Eff.FaultsIn.bind (s := s) (lift_faultsIn (afterTwoPops s) (hf _ _)) fun r u hu => ?_
  obtain rfl : afterTwoPops s = u := by
    cases hfr : f s.leftOperand s.rightOperand <;> rw [hfr] at hu <;> cases hu
    rfl
  exact push_faultsIn_of_room cs r (by rw [hsp, afterPop, afterPop]; have := h.1; omega) (by rw [hsp, afterPop, afterPop]; omega)

/-- A unary instruction whose function cannot fault raises nothing with SP in range (R222, R223). -/
theorem unOp_faultsIn {f : Word → Except FaultKind Word} {r : Word} {s : State} (cs : List FaultClass) (h : s.SpInRange)
    (hf : f s.rightOperand = .ok r) : (unOp f s).FaultsIn cs s := by
  have hsp : s32 (s.setSp (afterPop (s32 s.sp))).sp = afterPop (s32 s.sp) := s32_afterPop h.1
  unfold unOp
  rw [pop_of_nonneg h.1, Eff.bind_ok, show f (s.mem.wordOrZero (s32 s.sp)) = .ok r from hf, Eff.lift_ok, Eff.bind_ok]
  exact push_faultsIn_of_room (s := s.setSp (afterPop (s32 s.sp))) cs r (by rw [hsp, afterPop]; have := h.1; omega)
    (by rw [hsp, afterPop]; omega)

theorem swapBytes_faultsIn (a b : Int) (s : State) : (swapBytes a b s).FaultsIn [.addressFault] s := by
  rcases swapBytes_cases a b s with ⟨_, he⟩ | ⟨_, _, he⟩ | ⟨_, _, he⟩ <;> rw [he]
  · exact List.mem_singleton.mpr rfl
  · exact List.mem_singleton.mpr rfl
  · exact rfl

/-- A guarded read, then an effect on the same state. -/
theorem peek_bind_faultsIn {m : Memory} {a : Int} {s : State} {f : Word → State → Eff Unit}
    (hf : ∀ v, (f v s).FaultsIn [.addressFault] s) : ((Eff.lift s (peek m a)).bind f).FaultsIn [.addressFault] s := by
  rcases peek_cases m a with ⟨_, he⟩ | ⟨_, he⟩ <;> rw [he]
  · exact List.mem_singleton.mpr rfl
  · exact hf _

/-! ## The faults of the arithmetic functions (R211 to R221) -/

theorem divisionFault_cls {l r : Word} {k : FaultKind} (h : divisionFault l r = some k) :
    k.cls ∈ [FaultClass.divideByZero, .divideOverflow] := by
  unfold divisionFault at h
  split at h
  · cases h; decide
  · split at h <;> cases h
    decide

theorem divFn_error_cls {l r : Word} {k : FaultKind} (h : divFn l r = .error k) :
    k.cls ∈ [FaultClass.divideByZero, .divideOverflow] := by
  unfold divFn at h
  split at h <;> cases h
  exact divisionFault_cls ‹_›

theorem remFn_error_cls {l r : Word} {k : FaultKind} (h : remFn l r = .error k) :
    k.cls ∈ [FaultClass.divideByZero, .divideOverflow] := by
  unfold remFn at h
  split at h <;> cases h
  exact divisionFault_cls ‹_›

theorem shiftFn_error_cls {f : Word → Nat → Word} {l r : Word} {k : FaultKind} (h : shiftFn f l r = .error k) :
    k.cls ∈ [FaultClass.shiftOutOfRange] := by
  unfold shiftFn at h
  split at h <;> cases h
  decide

/-! ## The fault of an instruction -/

theorem cls_of_advance {cs : List FaultClass} {s t : State} {e : Eff Unit} {k : FaultKind} {pc : Word} (hrun : s.status = .running)
    (ht : t.status = .faulted k pc) (h : e.thenAdvance = .next t) (he : e.FaultsIn cs s) : k.cls ∈ cs := by
  rcases Eff.thenAdvance_cases h with ⟨u, rfl, rfl⟩ | ⟨k', u, rfl, rfl⟩
  · have hu : u.status = s.status := he
    rw [advancePc_status, hu, hrun] at ht
    cases ht
  · cases ht
    exact he

theorem cls_of_stay {cs : List FaultClass} {s t : State} {e : Eff Unit} {k : FaultKind} {pc : Word} (hrun : s.status = .running)
    (ht : t.status = .faulted k pc) (h : e.thenStay = .next t) (he : e.FaultsIn cs s) : k.cls ∈ cs := by
  rcases Eff.thenStay_cases h with rfl | ⟨k', u, rfl, rfl⟩
  · have hu : t.status = s.status := he
    rw [hu, hrun] at ht
    cases ht
  · cases ht
    exact he

theorem readLine_sp {s u : State} {line : List Byte} (h : readLine eofAsEmpty s = some (line, u)) : u.sp = s.sp := by
  rcases readLine_cases s with ⟨l, rest, _, he⟩ | ⟨_, _, he⟩ | ⟨_, _, he⟩ <;> rw [he] at h <;> cases h <;> rfl

/-- Settles O22: for each instruction, the classes that its own operations can raise where SP has room for one push. -/
theorem faultsOfEachInstruction : Obligations.FaultsOfEachInstruction := by
  intro i s t k pc hrun h5 hhi _ _ h ht
  have hsp : s.SpInRange := ⟨by omega, hhi⟩
  cases i with
  | exit c => cases h; cases ht
  | nop | debug => exact cls_of_advance (e := .ok () s) (cs := []) hrun ht h rfl
  | pop n =>
    simp only [exec, execPop] at h
    split at h <;> exact cls_of_advance (cs := []) hrun ht h rfl
  | add | sub | mul | and | or | xor => exact cls_of_advance (cs := []) hrun ht h (binOp_faultsIn hsp fun _ _ _ hf => by cases hf)
  | div => exact cls_of_advance hrun ht h (binOp_faultsIn hsp fun _ _ _ => divFn_error_cls)
  | rem => exact cls_of_advance hrun ht h (binOp_faultsIn hsp fun _ _ _ => remFn_error_cls)
  | lsl | lsr | asr => exact cls_of_advance hrun ht h (binOp_faultsIn hsp fun _ _ _ => shiftFn_error_cls)
  | neg | not => exact cls_of_advance (cs := []) hrun ht h (unOp_faultsIn [] hsp rfl)
  | swap a b => exact cls_of_advance hrun ht h (swapBytes_faultsIn _ _ s)
  | push v => exact cls_of_advance hrun ht h (push_faultsIn_of_room [] v (by omega) hhi)
  | dup o => exact cls_of_advance hrun ht h (peek_bind_faultsIn fun v => push_faultsIn v s)
  | print o f => exact cls_of_advance hrun ht h (peek_bind_faultsIn fun _ => rfl)
  | input =>
    obtain ⟨line, u, hl, hu⟩ := execInput_next h
    have hst := readLine_status hl
    have hsame : u.sp = s.sp := readLine_sp hl
    exact cls_of_advance (hst.trans hrun) ht hu (push_faultsIn_of_room [] _ (by rw [hsame]; omega) (by rw [hsame]; exact hhi))
  | stinput n =>
    obtain ⟨line, u, hl, hu⟩ := execStInput_next h
    exact cls_of_advance ((readLine_status hl).trans hrun) ht hu (pushAll_faultsIn _ u)
  | stprint o =>
    simp only [exec, execStPrint] at h
    split at h
    · exact cls_of_advance (s := s) hrun ht h (List.mem_singleton.mpr rfl)
    · exact cls_of_advance (s := s) (cs := [.addressFault]) hrun ht h rfl
  | dump =>
    simp only [exec, execDump] at h
    split at h
    · exact cls_of_advance (s := s) (cs := []) hrun ht h rfl
    · split at h
      · omega
      · exact cls_of_advance (s := s) (cs := []) hrun ht h rfl
  | goto o => exact cls_of_stay hrun ht h (jumpPc_faultsIn _ s)
  | call o => exact cls_of_stay hrun ht h ((push_faultsIn_of_room _ _ (by omega) hhi).bind fun _ u _ => jumpPc_faultsIn _ u)
  | ret o =>
    refine cls_of_stay (cs := [.addressFault, .pcOutOfRange]) hrun ht h (Eff.FaultsIn.bind (s := s) ?_ fun v u _ => ?_)
    · exact (pop_faultsIn (jumpSp (spRel s o) s)).mono (by simp)
    · exact (jumpPc_faultsIn _ u).mono (by simp)
  | ifeq | ifne | iflt | ifgt | ifle | ifge =>
    exact cls_of_stay hrun ht ((binaryIf_of_nonneg _ _ hsp.1).symm.trans h) (branch_faultsIn _ _ s)
  | ifez | ifnz | ifmi | ifpl =>
    exact cls_of_stay hrun ht ((unaryIf_of_nonneg _ _ hsp.1).symm.trans h) (branch_faultsIn _ _ s)
  | ifrsv c o =>
    cases c <;> exact cls_of_stay (s := s) (cs := []) hrun ht ((binaryIf_of_nonneg _ _ hsp.1).symm.trans h) rfl

end Sys2Proof.Machine
end

section
/-! PROOFS. The text of an input line (41_misc.md R164, R168): trim and the number parser against their relations, and the decimal
text of a word as an input that reads back. -/

namespace Sys2Proof.Machine

/-! ## trim (R168) -/

theorem trim_eq_rdropWhile (line : List Byte) : trim line = (line.dropWhile isSpace).rdropWhile isSpace := rfl

theorem not_isSpace_head_dropWhile {line : List Byte} {b : Byte} (h : b ∈ (line.dropWhile isSpace).head?) : isSpace b = false := by
  have := List.head?_dropWhile_not isSpace line
  rw [Option.mem_def.mp h] at this
  exact this

/-- What is left after the trailing set bytes are gone begins as before. -/
theorem head?_rdropWhile {l : List Byte} {b : Byte} (h : b ∈ (l.rdropWhile isSpace).head?) : b ∈ l.head? := by
  obtain ⟨tail, ht⟩ := List.rdropWhile_prefix isSpace l
  rw [← ht]
  exact List.mem_head?_append_of_mem_head? h

theorem not_isSpace_getLast_rdropWhile {l : List Byte} {b : Byte} (h : b ∈ (l.rdropWhile isSpace).getLast?) : isSpace b = false := by
  obtain ⟨hne, rfl⟩ := List.mem_getLast?_eq_getLast h
  simpa using List.rdropWhile_last_not isSpace l hne

/-- Trim drops the leading and the trailing bytes of R168's set, and no more. -/
theorem trimmed_trim (line : List Byte) : Trimmed line (trim line) := by
  rw [trim_eq_rdropWhile]
  refine ⟨⟨line.takeWhile isSpace, (line.dropWhile isSpace).rtakeWhile isSpace, ?_, fun b hb => ?_⟩, fun b hb => ?_⟩
  · rw [List.append_assoc, List.rdropWhile_append_rtakeWhile, List.takeWhile_append_dropWhile]
  · rw [← isSpace_iff]
    rcases List.mem_append.mp hb with hb | hb
    · exact List.mem_takeWhile_imp hb
    · exact List.mem_rtakeWhile_imp hb
  · rw [← isSpace_iff, Bool.not_eq_true]
    rcases hb with hb | hb
    · exact not_isSpace_head_dropWhile (head?_rdropWhile hb)
    · exact not_isSpace_getLast_rdropWhile hb

/-- A line feed after a text without set bytes is all that trim removes. -/
theorem trim_append_lineFeed {t : List Byte} (h : ∀ b ∈ t, isSpace b = false) : trim (t ++ [10]) = t := by
  have hlf : isSpace 10 = true := by decide
  rw [trim_eq_rdropWhile]
  cases t with
  | nil => decide
  | cons b rest =>
    have hb : isSpace b = false := h b List.mem_cons_self
    rw [List.cons_append, List.dropWhile_cons_of_neg (by simp [hb]), ← List.cons_append, List.rdropWhile_concat_pos _ _ _ hlf,
      List.rdropWhile_eq_self_iff]
    intro hne
    simp [h _ (List.getLast_mem hne)]

/-! ## Digits (R164) -/

/-- The number that digit values spell after `acc`, the most significant first. -/
def valueFrom (radix acc : Nat) (vs : List Nat) : Nat := vs.foldl (fun acc v => acc * radix + v) acc

theorem digitsFrom_eq_some {radix : Nat} (hr : radix ≤ 16) {ds : List Byte} {acc n : Nat} :
    digitsFrom radix acc ds = some n ↔ ∃ vs, List.Forall₂ (IsDigit radix) ds vs ∧ n = valueFrom radix acc vs := by
  induction ds generalizing acc with
  | nil => simp [digitsFrom, valueFrom, eq_comm]
  | cons b rest ih =>
    constructor
    · intro h
      rw [digitsFrom] at h
      split at h
      next v hv =>
        obtain ⟨vs, hvs, hn⟩ := ih.mp h
        exact ⟨v :: vs, .cons ((digitValue_eq_some hr b v).mp hv) hvs, hn⟩
      next => cases h
    · rintro ⟨_, hvs, hn⟩
      cases hvs with
      | cons hv hvs =>
        rw [digitsFrom, (digitValue_eq_some hr b _).mpr hv]
        exact ih.mpr ⟨_, hvs, hn⟩

theorem digits_eq_some {radix : Nat} (hr : radix ≤ 16) {ds : List Byte} {n : Nat} :
    digits radix ds = some n ↔ SpellsNat radix ds n := by
  cases ds with
  | nil => simp [digits, SpellsNat]
  | cons b rest =>
    rw [digits, digitsFrom_eq_some hr, SpellsNat]
    exact ⟨fun h => ⟨List.cons_ne_nil _ _, h⟩, And.right⟩

/-- A text that spells a number begins with a digit, whose code is above those of the signs. -/
theorem SpellsNat.head {radix : Nat} {b : Byte} {rest : List Byte} {n : Nat} (h : SpellsNat radix (b :: rest) n) :
    48 ≤ b.toNat := by
  obtain ⟨_, _, hvs, _⟩ := h
  cases hvs with
  | cons hv _ =>
    obtain ⟨_, hd⟩ := hv
    omega

/-! ## Signs (R164) -/

theorem byte_eq_iff {b : Byte} {n : Nat} (hn : n < 256) : b.toNat = n ↔ b = BitVec.ofNat 8 n := by
  constructor
  · rintro rfl
    simp
  · rintro rfl
    simp only [BitVec.toNat_ofNat]
    omega

theorem signedDigits_eq_some {radix : Nat} (hr : radix ≤ 16) {ds : List Byte} {n : Int} :
    signedDigits radix ds = some n ↔ SpellsInt radix ds n := by
  cases ds with
  | nil => simp [signedDigits, SpellsInt, SpellsNat]
  | cons b rest =>
    have hplus : b.toNat = 43 ↔ b = 43 := byte_eq_iff (by decide)
    have hminus : b.toNat = 45 ↔ b = 45 := byte_eq_iff (by decide)
    have hmap (f : Nat → Int) (l : List Byte) : (digits radix l).map f = some n ↔ ∃ m, SpellsNat radix l m ∧ f m = n := by
      simp only [Option.map_eq_some_iff, digits_eq_some hr]
    rw [signedDigits, SpellsInt]
    split
    next hb =>
      obtain rfl := hplus.mp hb
      rw [hmap]
      constructor
      · rintro ⟨m, hm, rfl⟩
        exact ⟨m, .inl ⟨rfl, .inr ⟨rest, rfl, hm⟩⟩⟩
      · rintro ⟨m, ⟨rfl, hm | ⟨_, heq, hm⟩⟩ | ⟨_, _, heq, _⟩⟩
        · exact absurd hm.head (by decide)
        · cases heq
          exact ⟨m, hm, rfl⟩
        · cases heq
    next hb =>
      split
      next hb' =>
        obtain rfl := hminus.mp hb'
        rw [hmap]
        constructor
        · rintro ⟨m, hm, rfl⟩
          exact ⟨m, .inr ⟨rfl, rest, rfl, hm⟩⟩
        · rintro ⟨m, ⟨_, hm | ⟨_, heq, _⟩⟩ | ⟨rfl, _, heq, hm⟩⟩
          · exact absurd hm.head (by decide)
          · cases heq
          · cases heq
            exact ⟨m, hm, rfl⟩
      next hb' =>
        rw [hmap]
        constructor
        · rintro ⟨m, hm, rfl⟩
          exact ⟨m, .inl ⟨rfl, .inl hm⟩⟩
        · rintro ⟨m, ⟨rfl, hm | ⟨_, heq, _⟩⟩ | ⟨_, _, heq, _⟩⟩
          · exact ⟨m, hm, rfl⟩
          · cases heq
            exact absurd rfl hb
          · cases heq
            exact absurd rfl hb'

/-! ## The radix (R164) -/

/-- In a decimal text that begins with 0 the next byte is a digit, so neither of the radix letters. -/
theorem SpellsInt.second {b : Byte} {rest : List Byte} {n : Int} (h : SpellsInt 10 (48 :: b :: rest) n) : b.toNat ≤ 57 := by
  obtain ⟨m, ⟨_, ⟨_, _, hvs, _⟩ | ⟨_, heq, _⟩⟩ | ⟨_, _, heq, _⟩⟩ := h
  · cases hvs with
    | cons _ hvs =>
      cases hvs with
      | cons hv _ =>
        obtain ⟨hlt, hd⟩ := hv
        omega
  · cases heq
  · cases heq

theorem spellsInput_hex {b : Byte} {ds : List Byte} {n : Int} (hb : b = 120 ∨ b = 88) :
    SpellsInput (48 :: b :: ds) n ↔ SpellsInt 16 ds n := by
  constructor
  · rintro (⟨ds', heq, h⟩ | ⟨ds', heq, h⟩ | h)
    · rcases heq with heq | heq <;> cases heq <;> exact h
    · rcases hb with rfl | rfl <;> rcases heq with heq | heq <;> cases heq
    · have := h.second
      rcases hb with rfl | rfl <;> exact absurd this (by decide)
  · intro h
    exact .inl ⟨ds, by rcases hb with rfl | rfl <;> simp, h⟩

theorem spellsInput_binary {b : Byte} {ds : List Byte} {n : Int} (hb : b = 98 ∨ b = 66) :
    SpellsInput (48 :: b :: ds) n ↔ SpellsInt 2 ds n := by
  constructor
  · rintro (⟨ds', heq, h⟩ | ⟨ds', heq, h⟩ | h)
    · rcases hb with rfl | rfl <;> rcases heq with heq | heq <;> cases heq
    · rcases heq with heq | heq <;> cases heq <;> exact h
    · have := h.second
      rcases hb with rfl | rfl <;> exact absurd this (by decide)
  · intro h
    exact .inr (.inl ⟨ds, by rcases hb with rfl | rfl <;> simp, h⟩)

/-- A text without a radix letter after a 0 is read as decimal. -/
theorem spellsInput_decimal {t : List Byte} {n : Int}
    (ht : ∀ b ds, t = 48 :: b :: ds → b ≠ 120 ∧ b ≠ 88 ∧ b ≠ 98 ∧ b ≠ 66) : SpellsInput t n ↔ SpellsInt 10 t n := by
  constructor
  · rintro (⟨ds, heq, _⟩ | ⟨ds, heq, _⟩ | h)
    · rcases heq with heq | heq <;> exact absurd (ht _ _ heq) (by simp)
    · rcases heq with heq | heq <;> exact absurd (ht _ _ heq) (by simp)
    · exact h
  · exact fun h => .inr (.inr h)

theorem parseInteger_eq_some {t : List Byte} {n : Int} : parseInteger t = some n ↔ SpellsInput t n := by
  unfold parseInteger
  split
  next b0 b1 rest =>
    have h0 : b0.toNat = 48 ↔ b0 = 48 := byte_eq_iff (by decide)
    have hx : b1.toNat = 120 ∨ b1.toNat = 88 ↔ b1 = 120 ∨ b1 = 88 := or_congr (byte_eq_iff (by decide)) (byte_eq_iff (by decide))
    have hb : b1.toNat = 98 ∨ b1.toNat = 66 ↔ b1 = 98 ∨ b1 = 66 := or_congr (byte_eq_iff (by decide)) (byte_eq_iff (by decide))
    simp only [h0, hx, hb]
    split
    next h =>
      obtain ⟨rfl, h⟩ := h
      rw [spellsInput_hex h, signedDigits_eq_some (by decide)]
    next hnx =>
      split
      next h =>
        obtain ⟨rfl, h⟩ := h
        rw [spellsInput_binary h, signedDigits_eq_some (by decide)]
      next hnb =>
        rw [spellsInput_decimal, signedDigits_eq_some (by decide)]
        rintro b ds heq
        cases heq
        simp only [true_and, not_or] at hnx hnb
        exact ⟨hnx.1, hnx.2, hnb.1, hnb.2⟩
  next hshort =>
    rw [spellsInput_decimal, signedDigits_eq_some (by decide)]
    exact fun b ds heq => absurd heq (hshort _ _ _)

/-- The parser answers the word of the integer that the text spells, 0 when there is none in range (R164). -/
theorem readsAs_parseInput (t : List Byte) : ReadsAs t (parseInput t) := by
  unfold parseInput ReadsAs
  simp only [← parseInteger_eq_some]
  cases parseInteger t with
  | none => exact .inr ⟨fun n h => by (cases h), rfl⟩
  | some n =>
    simp only [Option.some.injEq]
    split
    next hout => exact .inr ⟨by rintro _ rfl; exact hout, rfl⟩
    next hin => exact .inl ⟨n, rfl, by omega, by omega, s32_w32 (by omega) (by omega)⟩

theorem parseInput_of_spells {t : List Byte} {v : Word} (h : SpellsInput t (s32 v)) : parseInput t = v := by
  have hr := s32_bounds v
  rw [parseInput, parseInteger_eq_some.mpr h]
  simp only
  rw [if_neg (by omega), w32_s32]

/-! ## The decimal text of a word (R243) -/

theorem isDigit_digitByte {radix v : Nat} (hr : radix ≤ 16) (hv : v < radix) : IsDigit radix (digitByte v) v := by
  unfold IsDigit digitByte
  simp only [BitVec.toNat_ofNat]
  split <;> omega

theorem valueFrom_concat (radix acc : Nat) (vs : List Nat) (v : Nat) :
    valueFrom radix acc (vs ++ [v]) = valueFrom radix acc vs * radix + v := by
  simp [valueFrom, List.foldl_append]

/-- The digits made stand before those already there and spell the number. -/
theorem digitsOf_spells {radix : Nat} (h2 : 2 ≤ radix) (hr : radix ≤ 16) (fuel : Nat) {n : Nat} {acc : List Byte} {as : List Nat}
    (hn : n < radix ^ (fuel + 1)) (hacc : List.Forall₂ (IsDigit radix) acc as) :
    ∃ vs, vs ≠ [] ∧ List.Forall₂ (IsDigit radix) (digitsOf radix (fuel + 1) n acc) (vs ++ as) ∧ n = valueFrom radix 0 vs := by
  induction fuel generalizing n acc as with
  | zero =>
    have hlt : n < radix := by simpa using hn
    rw [digitsOf, if_pos hlt]
    exact ⟨[n], List.cons_ne_nil _ _, .cons (isDigit_digitByte hr hlt) hacc, by simp [valueFrom]⟩
  | succ fuel ih =>
    rw [digitsOf]
    split
    next hlt => exact ⟨[n], List.cons_ne_nil _ _, .cons (isDigit_digitByte hr hlt) hacc, by simp [valueFrom]⟩
    next hge =>
      have hmod : n % radix < radix := Nat.mod_lt _ (by omega)
      have hdiv : n / radix < radix ^ (fuel + 1) := by
        rw [Nat.div_lt_iff_lt_mul (by omega), ← Nat.pow_succ]
        exact hn
      obtain ⟨vs, _, hds, hval⟩ := ih hdiv (.cons (isDigit_digitByte hr hmod) hacc)
      refine ⟨vs ++ [n % radix], by simp, by simpa using hds, ?_⟩
      rw [valueFrom_concat, ← hval, Nat.div_add_mod']

theorem unsignedText_spells {n : Nat} (hn : n < 10 ^ 33) : SpellsNat 10 (unsignedText 10 n) n := by
  obtain ⟨vs, hne, hds, hval⟩ := digitsOf_spells (radix := 10) (by decide) (by decide) 32 hn (acc := []) .nil
  rw [List.append_nil] at hds
  refine ⟨?_, vs, hds, hval⟩
  intro hnil
  rw [unsignedText] at hnil
  rw [hnil] at hds
  cases hds
  exact hne rfl

theorem signedText_spells (v : Word) : SpellsInt 10 (signedText v) (s32 v) := by
  have hr := s32_bounds v
  unfold signedText
  split
  next hneg => exact ⟨(-s32 v).toNat, .inr ⟨by omega, _, rfl, unsignedText_spells (by omega)⟩⟩
  next hpos => exact ⟨(s32 v).toNat, .inl ⟨by omega, .inl (unsignedText_spells (by omega))⟩⟩

theorem IsDigit.not_isSpace {radix v : Nat} {b : Byte} (h : IsDigit radix b v) : isSpace b = false := by
  obtain ⟨_, h⟩ := h
  simp only [isSpace, Bool.or_eq_false_iff, Bool.and_eq_false_iff, decide_eq_false_iff_not, beq_eq_false_iff_ne]
  omega

theorem SpellsNat.not_isSpace {radix : Nat} {ds : List Byte} {n : Nat} (h : SpellsNat radix ds n) : ∀ b ∈ ds, isSpace b = false := by
  obtain ⟨_, vs, hvs, _⟩ := h
  clear * - hvs
  induction hvs with
  | nil => exact fun b hb => by cases hb
  | cons hv _ ih => exact List.forall_mem_cons.mpr ⟨hv.not_isSpace, ih⟩

theorem SpellsInt.not_isSpace {radix : Nat} {ds : List Byte} {n : Int} (h : SpellsInt radix ds n) : ∀ b ∈ ds, isSpace b = false := by
  obtain ⟨m, ⟨_, hm | ⟨rest, rfl, hm⟩⟩ | ⟨_, rest, rfl, hm⟩⟩ := h
  · exact hm.not_isSpace
  · exact List.forall_mem_cons.mpr ⟨by decide, hm.not_isSpace⟩
  · exact List.forall_mem_cons.mpr ⟨by decide, hm.not_isSpace⟩

/-- Settles O52: the text spells the value (`signedText_spells`), trim takes the line feed alone, and the parser reads what is spelled. -/
theorem printedDecimalReadsBack : Obligations.PrintedDecimalReadsBack := fun v => by
  have hspells := signedText_spells v
  rw [renderEvent, trim_append_lineFeed hspells.not_isSpace]
  exact parseInput_of_spells (.inr (.inr hspells))

end Sys2Proof.Machine
end

section
/-! PROOFS. The miscellaneous and the stack instructions (41_misc.md, 42_stack.md), but for the strings of StInput. -/

namespace Sys2Proof.Machine

/-! ## Nop, Debug, Swap (R161, R162, R167) -/

/-- Settles O28: both are the engine's advance alone. -/
theorem nopAndDebugOnlyAdvance : Obligations.NopAndDebugOnlyAdvance := fun s =>
  ⟨advancePc s, rfl, rfl, s32_w32_plusFour s.pc, rfl⟩

/-- Settles O29: the exchange is two writes of bytes read before (`swapBytes_cases`), also where both addresses are one. -/
theorem swapExchangesTwoBytes : Obligations.SwapExchangesTwoBytes := by
  intro a b s ha0 ha1 hb0 hb1
  rcases swapBytes_cases (s32 s.sp + a) (s32 s.sp + b) s with ⟨_, _⟩ | ⟨_, _, _⟩ | ⟨_, _, he⟩
  · omega
  · omega
  · have hexec : exec (.swap a b) s = (swapBytes (s32 s.sp + a) (s32 s.sp + b) s).thenAdvance := rfl
    refine ⟨_, by rw [hexec, he]; rfl, ?_, ?_, fun x hxa hxb => ?_, s32_w32_plusFour s.pc, rfl⟩ <;>
      simp only [advancePc_mem, State.setMem_mem, Memory.read_write]
    · rw [if_pos trivial]
      split
      next h => rw [h]
      next => rfl
    · rw [if_pos trivial]
    · rw [if_neg hxb, if_neg hxa]

/-! ## Input (R163) -/

theorem readLine_of_line {s : State} {line : List Byte} {rest : List (List Byte)} (h : s.input = line :: rest) :
    readLine eofAsEmpty s = some (line, s.setInput rest) := by
  rw [readLine, h]

theorem readLine_at_end {s : State} (h : s.input = []) (he : s.inputEnded = true) : readLine eofAsEmpty s = some ([], s) := by
  simp only [readLine, h, he]
  rfl

theorem readLine_waiting {s : State} (h : s.input = []) (he : s.inputEnded = false) : readLine eofAsEmpty s = none := by
  simp only [readLine, h, he]
  rfl

/-- Input with a line read pushes the line's number (R163). -/
theorem exec_input_of_readLine {s u : State} {line : List Byte} (h : readLine eofAsEmpty s = some (line, u)) :
    exec .input s = (push (parseInput (trim line)) u).thenAdvance := by
  simp only [exec, execInput, h]

/-- StInput with a line read pushes the line's words (R165). -/
theorem exec_stinput_of_readLine {s u : State} {line : List Byte} (n : Nat) (h : readLine eofAsEmpty s = some (line, u)) :
    exec (.stinput n) s = (pushAll (stInputWords n line) u).thenAdvance := by
  simp only [exec, execStInput, h]

/-- Settles O33: with no line and the input open, `readLine` gives nothing to go on with. -/
theorem inputWaitsForLine : Obligations.InputWaitsForLine := fun n s hin hopen => by
  have h := readLine_waiting hin hopen
  exact ⟨by simp only [exec, execInput, h], by simp only [exec, execStInput, h]⟩

/-- Settles O30: the push after `readLine`, and trim and the parser by their relations (`trimmed_trim`, `readsAs_parseInput`). -/
theorem inputPushesParsedLine : Obligations.InputPushesParsedLine := by
  refine ⟨fun s h4 hhi => ⟨fun line rest hin => ?_, fun hin hend => ?_⟩, trimmed_trim, readsAs_parseInput⟩
  · rw [exec_input_of_readLine (readLine_of_line hin)]
    exact push_pushed (s := s.setInput rest) _ h4 hhi
  · rw [exec_input_of_readLine (readLine_at_end hin hend)]
    exact push_pushed (s := s) _ h4 hhi

/-! ## Pop, Push, Dup (R190 to R192) -/

/-- Settles O36: SP is raised and clamped below 4096, and an empty stack is the clamp already. -/
theorem popRaisesSp : Obligations.PopRaisesSp := by
  intro n s ⟨h0, hhi⟩
  have hexec : exec (.pop n) s = .next (advancePc (if s32 s.sp < 4096 then jumpSp (spRel s n) s else s)) := rfl
  rw [hexec]
  split
  · exact ⟨_, rfl, s32_w32 (n := min (s32 s.sp + n) 4096) (by omega) (by omega), s32_w32_plusFour s.pc, rfl⟩
  · exact ⟨_, rfl, by rw [advancePc_sp]; omega, s32_w32_plusFour s.pc, rfl⟩

/-- An immediate of R95's range has bits 31:28 equal to bit 27, so Push stores it as it is. -/
theorem storedForm_of_imm28Ok {v : Word} (h : imm28Ok v = true) : storedForm v = v := by
  rw [imm28Ok_iff] at h
  cases hbit : v.getLsbD 27 with
  | false => exact storedForm_of_not_bit27 hbit
  | true =>
    have hhigh : v.toNat / 2 ^ 27 = 31 := by
      have hlt := v.isLt
      simp only [BitVec.getLsbD, Nat.testBit_eq_decide_div_mod_eq, decide_eq_true_eq] at hbit
      simp only [s32, BitVec.toInt_eq_toNat_cond] at h
      split at h <;> omega
    apply BitVec.eq_of_getLsbD_eq
    intro i hi
    rw [getLsbD_storedForm v hi, hbit, Bool.true_and]
    by_cases h28 : 28 ≤ i
    · have hset : v.getLsbD i = true := by
        simp only [BitVec.getLsbD, Nat.testBit_eq_decide_div_mod_eq, decide_eq_true_eq]
        interval_cases i <;> omega
      rw [hset, Bool.true_or]
    · rw [decide_eq_false h28, Bool.or_false]

theorem exec_push_eq (v : Word) (s : State) : exec (.push v) s = (push v s).thenAdvance := rfl

/-- Dup with an address that is not negative pushes the word there (R191). -/
theorem exec_dup_of_nonneg {o : Int} {s : State} (h : 0 ≤ s32 s.sp + o) :
    exec (.dup o) s = (push (s.mem.wordOrZero (s32 s.sp + o)) s).thenAdvance := by
  have hpeek : peek s.mem (spRel s o) = .ok (s.mem.wordOrZero (s32 s.sp + o)) := peek_of_nonneg h
  simp only [exec, execDup, hpeek, Eff.lift_ok, Eff.bind_ok]

/-- Settles O37: both end in `push_pushed`, Dup after its guarded read. -/
theorem pushAndDupPushOneWord : Obligations.PushAndDupPushOneWord := by
  refine fun v o s h4 hhi => ⟨?_, fun ho => ?_⟩
  · obtain ⟨t, ht, hp⟩ := push_pushed v h4 hhi
    exact ⟨t, (exec_push_eq v s).trans ht, hp, storedForm_of_imm28Ok⟩
  · rw [exec_dup_of_nonneg ho]
    exact push_pushed _ h4 hhi

/-! ## A push without room (R67, R141) -/

theorem push_without_room (v : Word) {s : State} (h0 : 0 ≤ s32 s.sp) (h4 : s32 s.sp < 4) :
    push v s = .raise (.addressFault (s32 s.sp - 4)) (s.setSp (s32 s.sp - 4)) := by
  rcases push_cases v (s := s) (by omega) (by omega) with ⟨_, he⟩ | ⟨_, _⟩
  · exact he
  · omega

/-- Settles O38: each of the four comes to `push_without_room` and takes its fault. -/
theorem pushWithoutRoomFaults : Obligations.PushWithoutRoomFaults := by
  refine fun v o s h0 h4 => ⟨?_, fun ho => ?_, ?_, fun line rest hin => ?_⟩
  · rw [exec_push_eq, push_without_room v h0 h4]
    rfl
  · rw [exec_dup_of_nonneg ho, push_without_room _ h0 h4]
    rfl
  · simp only [exec, execCall, push_without_room (returnAddress s) h0 h4]
    rfl
  · rw [exec_input_of_readLine (readLine_of_line hin), push_without_room (s := s.setInput rest) _ h0 h4]
    rfl

end Sys2Proof.Machine
end

section
/-! PROOFS. StInput's strings (41_misc.md R165, R166): the layout of the packed words and where the pushes put them. -/

namespace Sys2Proof.Machine

/-! ## The packed words (R166) -/

theorem packedWord_bytes (c0 c1 c2 flag : Byte) :
    (packedWord c0 c1 c2 flag).extractLsb' 0 8 = c0 ∧ (packedWord c0 c1 c2 flag).extractLsb' 8 8 = c1 ∧
    (packedWord c0 c1 c2 flag).extractLsb' 16 8 = c2 ∧ (packedWord c0 c1 c2 flag).extractLsb' 24 8 = flag := by
  obtain ⟨h0, h1, h2, h3⟩ := byteOf_wordOfBytes c0 c1 c2 flag
  exact ⟨(extractLsb'_eq_byteOf _ 0).trans h0, (extractLsb'_eq_byteOf _ 1).trans h1, (extractLsb'_eq_byteOf _ 2).trans h2,
    (extractLsb'_eq_byteOf _ 3).trans h3⟩

theorem length_packHead (bs : List Byte) : (packHead bs).length = (bs.length + 2) / 3 := by
  induction bs using packHead.induct with
  | case1 | case2 | case3 => simp [packHead]
  | case4 c0 c1 c2 rest ih =>
    simp only [packHead, List.length_cons, ih]
    omega

/-- The bytes of one word of the string `bs`, the `j`-th of `n`. -/
def IsPackedAt (bs : List Byte) (n j : Nat) (w : Word) : Prop :=
  w.extractLsb' 0 8 = bs.getD (3 * j) 1 ∧ w.extractLsb' 8 8 = bs.getD (3 * j + 1) 1 ∧ w.extractLsb' 16 8 = bs.getD (3 * j + 2) 1 ∧
  w.extractLsb' 24 8 = if j + 1 = n then 0 else 1

theorem packHead_isPackedAt (bs : List Byte) {j : Nat} (h : j < (packHead bs).length) :
    IsPackedAt bs (packHead bs).length j (packHead bs)[j] := by
  induction bs using packHead.induct generalizing j with
  | case1 => cases h
  | case2 c0 | case3 c0 c1 =>
    obtain rfl : j = 0 := by simpa [packHead] using h
    exact packedWord_bytes _ _ _ _
  | case4 c0 c1 c2 rest ih =>
    have hlen : (packHead (c0 :: c1 :: c2 :: rest)).length = (packHead rest).length + 1 := rfl
    cases j with
    | zero =>
      have hflag : (if rest.isEmpty then (0 : Byte) else 1) = if 0 + 1 = (packHead rest).length + 1 then 0 else 1 := by
        rw [length_packHead]
        cases rest with
        | nil => rfl
        | cons => rw [if_neg (by simp), if_neg (by simp only [List.length_cons]; omega)]
      have hw := packedWord_bytes c0 c1 c2 (if rest.isEmpty then 0 else 1)
      rw [hlen, IsPackedAt, ← hflag]
      exact hw
    | succ j =>
      obtain ⟨h0, h1, h2, h3⟩ := ih (j := j) (by omega)
      rw [hlen]
      refine ⟨h0, h1, h2, h3.trans ?_⟩
      simp only [Nat.add_right_cancel_iff]

/-- Settles O34: the length and each word of `packHead`, by its own recursion over three characters at a time. -/
theorem packingLayout : Obligations.PackingLayout := fun bs => ⟨length_packHead bs, fun _ h => packHead_isPackedAt bs h⟩

/-- A packed word's flag leaves bit 27 clear, so Push stores it as it is (R67). -/
theorem storedForm_packedWord (c0 c1 c2 : Byte) {flag : Byte} (h : flag.toNat < 8) :
    storedForm (packedWord c0 c1 c2 flag) = packedWord c0 c1 c2 flag := by
  apply storedForm_of_not_bit27
  have h0 := c0.isLt
  have h1 := c1.isLt
  have h2 := c2.isLt
  simp only [BitVec.getLsbD, packedWord, wordOfBytes, BitVec.toNat_ofNat, Nat.testBit_eq_decide_div_mod_eq, decide_eq_false_iff_not]
  omega

theorem storedForm_of_mem_packHead {bs : List Byte} : ∀ w ∈ packHead bs, storedForm w = w := by
  induction bs using packHead.induct with
  | case1 => exact fun w hw => by cases hw
  | case2 | case3 => exact List.forall_mem_singleton.mpr (storedForm_packedWord _ _ _ (by decide))
  | case4 c0 c1 c2 rest ih =>
    refine List.forall_mem_cons.mpr ⟨storedForm_packedWord _ _ _ ?_, ih⟩
    split <;> decide

/-! ## The pushed words (R165) -/

/-- What StInput stores for a line, from the head of the string to its tail: the pushes' order turned round. -/
def stInputHead (n : Nat) (line : List Byte) : List Word := if trim line = [] then [0] else packHead ((trim line).take n)

theorem stInputWords_eq_reverse (n : Nat) (line : List Byte) : stInputWords n line = (stInputHead n line).reverse := by
  simp only [stInputWords, stInputHead, List.isEmpty_iff]
  split <;> rfl

theorem storedForm_of_mem_stInputHead {n : Nat} {line : List Byte} : ∀ w ∈ stInputHead n line, storedForm w = w := by
  unfold stInputHead
  split
  · exact List.forall_mem_singleton.mpr (by decide)
  · exact storedForm_of_mem_packHead

/-- Words pushed from the last to the first lie in order from the new top on. -/
theorem afterPushes_reverse_wordAt {ws : List Word} {s : State} (hroom : 4 * (ws.length : Int) ≤ s32 s.sp)
    (hstored : ∀ w ∈ ws, storedForm w = w) {k : Nat} (hk : k < ws.length) :
    (afterPushes ws.reverse s).mem.wordAt ((s32 s.sp - 4 * ws.length).toNat + 4 * k) = ws[k] := by
  have hlen : ws.reverse.length = ws.length := List.length_reverse
  have hword := afterPushes_wordAt ws.reverse (s := s) (by rw [hlen]; exact hroom) (k := ws.length - 1 - k) (by omega)
  rw [List.getElem_reverse, hstored _ (List.getElem_mem _)] at hword
  rw [show (s32 s.sp - 4 * (ws.length : Int)).toNat + 4 * k = (s32 s.sp).toNat - 4 * (ws.length - 1 - k + 1) by omega, hword]
  congr 1
  omega

/-- StInput with room for its words stores them, the head of the string on top. -/
theorem exec_stinput_of_room {n : Nat} {line : List Byte} {s u : State} (hl : readLine eofAsEmpty s = some (line, u))
    (hroom : 4 * ((stInputHead n line).length : Int) ≤ s32 u.sp) (hhi : s32 u.sp ≤ 4096) :
    exec (.stinput n) s = .next (advancePc (afterPushes (stInputHead n line).reverse u)) := by
  rw [exec_stinput_of_readLine n hl, stInputWords_eq_reverse,
    pushAll_of_room (by rw [List.length_reverse]; exact hroom) hhi]
  rfl

theorem pushAll_singleton (v : Word) (s : State) : pushAll [v] s = push v s := by
  rw [pushAll]
  cases push v s <;> rfl

/-- Settles O31: the words are pushed from the tail of the string to its head (`afterPushes_reverse_wordAt`). -/
theorem stInputPushesPackedWords : Obligations.StInputPushesPackedWords := by
  refine ⟨fun n line rest s ws hin hws hroom hhi => ?_, fun n s hin hend h4 hhi => ?_⟩
  · obtain rfl : ws = stInputHead n line := hws
    have hroom' : 4 * ((stInputHead n line).reverse.length : Int) ≤ s32 (s.setInput rest).sp := by
      rw [List.length_reverse]
      exact hroom
    have hsp := afterPushes_sp _ hroom'
    have hframe := afterPushes_sameOutside _ hroom'
    rw [List.length_reverse] at hsp hframe
    refine ⟨_, exec_stinput_of_room (readLine_of_line hin) hroom hhi, hsp, fun k hk => ?_, ?_, ?_, ?_⟩
    · rw [advancePc_sp, hsp]
      exact afterPushes_reverse_wordAt (s := s.setInput rest) hroom storedForm_of_mem_stInputHead hk
    · rw [advancePc_sp, hsp]
      exact hframe
    · rw [advancePc_pc, afterPushes_rest]
      exact s32_w32_plusFour s.pc
    · rw [afterPushes_rest]
      rfl
  · rw [exec_stinput_of_readLine n (readLine_at_end hin hend)]
    have hwords : stInputWords n [] = [0] := rfl
    rw [hwords, pushAll_singleton]
    exact push_pushed 0 h4 hhi

/-- Settles O32: the pushes that fit are done (`pushAll_cases`), the next one faults with SP lowered once more. -/
theorem stInputFaultsBelowZero : Obligations.StInputFaultsBelowZero := by
  rintro n line rest s ws q hin hws h0 hhi hq hlt
  rcases pushAll_cases ws (s := s.setInput rest) h0 hhi with ⟨hroom, _⟩ | ⟨done, w, more, rfl, hsp, hd0, hd4, he⟩
  · rw [State.setInput_sp] at hroom
    omega
  · rw [State.setInput_sp] at hsp
    obtain rfl : q = done.length := by omega
    have hroom : 4 * (done.length : Int) ≤ s32 (s.setInput rest).sp := by rw [State.setInput_sp]; omega
    have hnew : s32 (w32 (s32 (afterPushes done (s.setInput rest)).sp - 4)) = s32 s.sp - 4 * done.length - 4 := by
      rw [hsp]
      exact s32_w32 (by omega) (by omega)
    refine ⟨_, by rw [exec_stinput_of_readLine n (readLine_of_line hin), ← hws, he]; rfl, ?_, hnew, fun k hk hkl => ?_, ?_, ?_⟩
    · rw [takeFault_status, State.setSp_pc, afterPushes_rest, hsp]
      rfl
    · rw [takeFault_mem, State.setSp_mem, List.getElem_append_left hk]
      exact afterPushes_wordAt done hroom hk
    · have hframe := afterPushes_sameOutside done hroom
      rw [State.setInput_sp, show (s32 s.sp - 4 * (done.length : Int)).toNat = (s32 s.sp).toNat - 4 * done.length by omega] at hframe
      exact hframe
    · rw [afterPushes_rest]
      rfl

end Sys2Proof.Machine
end

section
/-! PROOFS. Arithmetic (43_arithmetic.md): the functions on words, and the instructions that push their results or take their
faults. -/

namespace Sys2Proof.Machine

/-! ## Wrapped results and OVERFLOW_TRAPS (R211 to R213) -/

theorem narrow_false (n : Int) : narrow false n = .ok (w32 n) := rfl

theorem narrow_true_of_out {n : Int} (h : n < -2147483648 ∨ 2147483647 < n) : narrow true n = .error .arithmeticOverflow := by
  rw [narrow, if_pos ⟨rfl, h⟩]

theorem narrow_true_of_in {n : Int} (h1 : -2147483648 ≤ n) (h2 : n ≤ 2147483647) : narrow true n = .ok (w32 n) := by
  rw [narrow, if_neg (by omega)]

/-- Settles O39: the three functions narrow the exact result without a trap, so each is `binOp_pushed`. -/
theorem addSubMulPushWrappedResult : Obligations.AddSubMulPushWrappedResult := fun _ h =>
  ⟨binOp_pushed h (narrow_false _), binOp_pushed h (narrow_false _), binOp_pushed h (narrow_false _)⟩

/-- Each of the three functions narrows its exact result. -/
theorem arith_eq_narrow {l r : Word} {op : Bool → BinFn} {exact : Int}
    (h : op = addFn ∧ exact = s32 l + s32 r ∨ op = subFn ∧ exact = s32 l - s32 r ∨ op = mulFn ∧ exact = s32 l * s32 r)
    (traps : Bool) : op traps l r = narrow traps exact := by
  rcases h with ⟨rfl, rfl⟩ | ⟨rfl, rfl⟩ | ⟨rfl, rfl⟩ <;> rfl

/-- Settles O40: `narrow` at both values of the parameter, by the range of the exact result. -/
theorem overflowTrapsParameter : Obligations.OverflowTrapsParameter := by
  intro l r op exact h
  rw [arith_eq_narrow h, arith_eq_narrow h]
  exact ⟨fun hout => ⟨narrow_true_of_out hout, rfl⟩, fun h1 h2 => ⟨_, narrow_true_of_in h1 h2, rfl, s32_w32 h1 h2⟩⟩

/-- Settles O42: the three functions answer the bitwise word itself. -/
theorem bitwisePushResult : Obligations.BitwisePushResult := fun _ h =>
  ⟨binOp_pushed h rfl, binOp_pushed h rfl, binOp_pushed h rfl⟩

/-- Settles O46: both functions answer a word, so each instruction is `unOp_pushed`. -/
theorem negNotPushResult : Obligations.NegNotPushResult := fun _ h => ⟨unOp_pushed h rfl, unOp_pushed h rfl⟩

/-! ## Division (R214, R215) -/

theorem divisionFault_none {l r : Word} (h0 : s32 r ≠ 0) (h1 : ¬ (s32 l = -2147483648 ∧ s32 r = -1)) : divisionFault l r = none := by
  rw [divisionFault, if_neg h0, if_neg h1]

/-- The quotient of two words fits a word, but for the one pair of operands that faults. -/
theorem tdiv_range {a b : Int} (ha : -2147483648 ≤ a ∧ a ≤ 2147483647) (hb : b ≠ 0) (h : ¬ (a = -2147483648 ∧ b = -1)) :
    -2147483648 ≤ Int.tdiv a b ∧ Int.tdiv a b ≤ 2147483647 := by
  have habs : (Int.tdiv a b).natAbs ≤ a.natAbs := by
    rw [Int.natAbs_tdiv]
    exact Nat.div_le_self _ _
  by_cases hmin : a = -2147483648
  · subst hmin
    by_cases hone : b = 1
    · subst hone
      decide
    · have hb2 : 2 ≤ b.natAbs := by omega
      have hhalf : (Int.tdiv (-2147483648) b).natAbs ≤ 2147483648 / 2 := by
        rw [Int.natAbs_tdiv]
        exact Nat.div_le_div_left hb2 (by decide)
      omega
  · omega

/-- The remainder of two words fits a word: it is no longer than the dividend. -/
theorem tmod_range {a b : Int} (ha : -2147483648 ≤ a ∧ a ≤ 2147483647) :
    -2147483648 ≤ Int.tmod a b ∧ Int.tmod a b ≤ 2147483647 := by
  have habs : (Int.tmod a b).natAbs ≤ a.natAbs := by
    rw [Int.natAbs_tmod]
    exact Nat.mod_le _ _
  rcases Int.le_total 0 a with h0 | h0
  · have := Int.tmod_nonneg b h0
    omega
  · have := Int.tmod_nonneg (a := -a) b (by omega)
    rw [Int.neg_tmod] at this
    omega

theorem divFn_ok {l r : Word} (h0 : s32 r ≠ 0) (h1 : ¬ (s32 l = -2147483648 ∧ s32 r = -1)) :
    divFn l r = .ok (w32 (Int.tdiv (s32 l) (s32 r))) := by
  rw [divFn, divisionFault_none h0 h1]

theorem remFn_ok {l r : Word} (h0 : s32 r ≠ 0) (h1 : ¬ (s32 l = -2147483648 ∧ s32 r = -1)) :
    remFn l r = .ok (w32 (Int.tmod (s32 l) (s32 r))) := by
  rw [remFn, divisionFault_none h0 h1, Int.tmod_def, Int.mul_comm (s32 r)]

/-- Settles O41: where neither fault arises the exact quotient and remainder fit a word. -/
theorem divRemPushTruncatedResult : Obligations.DivRemPushTruncatedResult := by
  intro s h h0 h1
  have hl := s32_bounds s.leftOperand
  obtain ⟨t, ht, hpt⟩ := binOp_pushed h (divFn_ok h0 h1)
  obtain ⟨u, hu, hpu⟩ := binOp_pushed h (remFn_ok h0 h1)
  have hq := tdiv_range hl h0 h1
  have hr := tmod_range (b := s32 s.rightOperand) hl
  exact ⟨⟨t, _, ht, hpt, s32_w32 hq.1 hq.2⟩, ⟨u, _, hu, hpu, s32_w32 hr.1 hr.2⟩⟩

/-! ## Shifts (R219 to R221) -/

theorem shiftFn_ok (f : Word → Nat → Word) {l r : Word} (h : u32 r < 32) : shiftFn f l r = .ok (f l (u32 r)) := by
  rw [shiftFn, if_neg (by omega)]

theorem shiftLeft_eq (l : Word) (k : Nat) : shiftLeft l k = l <<< k := by
  apply BitVec.eq_of_toNat_eq
  rw [shiftLeft, w32, BitVec.ofInt_natCast, BitVec.toNat_ofNat, BitVec.toNat_shiftLeft, Nat.shiftLeft_eq]

theorem shiftRight_eq (l : Word) (k : Nat) : shiftRight l k = l >>> k := by
  apply BitVec.eq_of_toNat_eq
  have hle : u32 l / 2 ^ k ≤ u32 l := Nat.div_le_self _ _
  have hlt : u32 l < 2 ^ 32 := l.isLt
  rw [shiftRight, w32, BitVec.ofInt_natCast, BitVec.toNat_ofNat, BitVec.toNat_ushiftRight, Nat.shiftRight_eq_div_pow,
    Nat.mod_eq_of_lt (by omega)]

/-- The exact floor of the quotient by a power of two is the arithmetic shift. -/
theorem w32_fdiv_eq_sshiftRight (l : Word) (k : Nat) : w32 (Int.fdiv (s32 l) (2 ^ k)) = l.sshiftRight k := by
  rw [BitVec.sshiftRight, Int.shiftRight_eq_div_pow, Int.fdiv_eq_ediv_of_nonneg _ (by positivity)]
  rfl

theorem shiftArith_eq (l : Word) (k : Nat) :
    shiftArith l k = l.sshiftRight k ||| (if l.getLsbD 27 then 0x10000000#32 else 0#32) := by
  simp only [shiftArith, w32_fdiv_eq_sshiftRight]
  split
  · rfl
  · rw [BitVec.or_zero]

/-- Settles O43: each shift function as the shift of the bits. -/
theorem shiftsPushShiftedBits : Obligations.ShiftsPushShiftedBits := by
  intro s h hk
  obtain ⟨t, ht, hpt⟩ := binOp_pushed h (shiftFn_ok shiftLeft hk)
  obtain ⟨u, hu, hpu⟩ := binOp_pushed h (shiftFn_ok shiftRight hk)
  obtain ⟨v, hv, hpv⟩ := binOp_pushed h (shiftFn_ok shiftArith hk)
  exact ⟨⟨t, _, ht, hpt, shiftLeft_eq _ _⟩, ⟨u, _, hu, hpu, shiftRight_eq _ _⟩, ⟨v, _, hv, hpv, shiftArith_eq _ _⟩⟩

/-- A stored word whose bit 27 is 1 has bits 31:28 set, so its arithmetic shift has bit 28 set, whatever the amount. -/
theorem getLsbD_28_sshiftRight_storedForm {v : Word} (k : Nat) (h : (storedForm v).getLsbD 27 = true) :
    ((storedForm v).sshiftRight k).getLsbD 28 = true := by
  have hbit : v.getLsbD 27 = true := by
    rwa [getLsbD_storedForm v (by decide), decide_eq_false (by decide), Bool.and_false, Bool.or_false] at h
  have hset (i : Nat) (h28 : 28 ≤ i) (hi : i < 32) : (storedForm v).getLsbD i = true := by
    rw [getLsbD_storedForm v hi, hbit, decide_eq_true h28, Bool.and_self, Bool.or_true]
  rw [BitVec.getLsbD_sshiftRight]
  by_cases hk : k + 28 < 32
  · rw [if_pos hk, hset _ (by omega) hk]
    rfl
  · rw [if_neg hk, BitVec.msb_eq_getLsbD_last, hset _ (by decide) (by decide)]
    rfl

/-- A word that has bit 28 already is not changed by setting it. -/
theorem or_bit28 {a : Word} (h : a.getLsbD 28 = true) : a ||| 0x10000000#32 = a := by
  apply BitVec.eq_of_getLsbD_eq
  intro i hi
  have hone : (0x10000000#32).getLsbD i = decide (i = 28) := by
    have all : ∀ i : Fin 32, (0x10000000#32).getLsbD i = decide (i.val = 28) := by decide
    exact all ⟨i, hi⟩
  rw [BitVec.getLsbD_or, hone]
  by_cases hi28 : i = 28
  · rw [hi28, h, Bool.true_or]
  · rw [decide_eq_false hi28, Bool.or_false]

/-- Settles O45: where the correction applies, the bit it sets is set already. -/
theorem asrOfStoredWordIsPlainShift : Obligations.AsrOfStoredWordIsPlainShift := fun v k _ => by
  rw [shiftArith_eq]
  split
  next h => exact or_bit28 (getLsbD_28_sshiftRight_storedForm k h)
  next => exact BitVec.or_zero

/-! ## Faults (R210, D20) -/

theorem divisionFault_zero {l r : Word} (h : s32 r = 0) : divisionFault l r = some .divideByZero := by
  rw [divisionFault, if_pos h]

theorem divisionFault_overflow {l r : Word} (hl : s32 l = -2147483648) (hr : s32 r = -1) :
    divisionFault l r = some .divideOverflow := by
  rw [divisionFault, if_neg (by omega), if_pos ⟨hl, hr⟩]

/-- Div and Rem take the fault of the division with both pops done. -/
theorem exec_div_rem_faults {i : Instr} {s : State} {k : FaultKind} (hi : i = .div ∨ i = .rem) (h : 0 ≤ s32 s.sp)
    (hk : divisionFault s.leftOperand s.rightOperand = some k) : exec i s = .next (takeFault k (afterTwoPops s)) := by
  rcases hi with rfl | rfl
  · exact binOp_faults h (by rw [divFn, hk])
  · exact binOp_faults h (by rw [remFn, hk])

theorem exec_shift_faults {i : Instr} {s : State} (hi : i = .lsl ∨ i = .lsr ∨ i = .asr) (h : 0 ≤ s32 s.sp)
    (hk : 32 ≤ u32 s.rightOperand) : exec i s = .next (takeFault .shiftOutOfRange (afterTwoPops s)) := by
  rcases hi with rfl | rfl | rfl <;> exact binOp_faults h (by rw [shiftFn, if_pos hk])

/-- Settles O44: `binOp_faults` leaves both pops done, and the fault is the function's own. -/
theorem arithmeticFaultsLeavePopsDone : Obligations.ArithmeticFaultsLeavePopsDone := by
  rintro i s t k ⟨h0, _⟩ rfl
  refine ⟨fun hi hr hk => ?_, fun hi hl hr hk => ?_, fun hi hr hk => ?_⟩ <;> subst hk
  · exact exec_div_rem_faults hi h0 (divisionFault_zero hr)
  · exact exec_div_rem_faults hi h0 (divisionFault_overflow hl hr)
  · exact exec_shift_faults hi h0 hr

end Sys2Proof.Machine
end

section
/-! PROOFS. Output (44_output.md): the characters of a string, the lines of a dump, Print's event, and the string of StInput
printed back. -/

namespace Sys2Proof.Machine

/-! ## The characters of a string (R240) -/

theorem stringEvents_of_end {m : Memory} {a : Nat} (fuel : Nat) (h : m.read a = 0) : stringEvents m fuel a = [] := by
  cases fuel with
  | zero => rfl
  | succ fuel => rw [stringEvents, h, if_pos rfl]

theorem stringEvents_of_skip {m : Memory} {a : Nat} (fuel : Nat) (h : m.read a = 1) :
    stringEvents m (fuel + 1) a = stringEvents m fuel (a + 1) := by
  rw [stringEvents, h, if_neg (by decide), if_pos rfl]

theorem stringEvents_of_char {m : Memory} {a : Nat} {b : Byte} (fuel : Nat) (h : m.read a = b) (h0 : b ≠ 0) (h1 : b ≠ 1) :
    stringEvents m (fuel + 1) a = .char b :: stringEvents m fuel (a + 1) := by
  rw [stringEvents, h, if_neg h0, if_neg h1]

/-- The bytes up to the first zero byte, or to the end of the fuel, are emitted but for those of value 1. -/
theorem stringEvents_eq {m : Memory} {bs : List Byte} {fuel a : Nat}
    (hbs : ∀ k (h : k < bs.length), bs[k] ≠ 0 ∧ m.read (a + k) = bs[k])
    (hlen : bs.length ≤ fuel) (hend : bs.length = fuel ∨ m.read (a + bs.length) = 0) :
    stringEvents m fuel a = (bs.filter fun b => b ≠ 1).map .char := by
  induction bs generalizing fuel a with
  | nil =>
    rcases hend with rfl | hend
    · rfl
    · exact stringEvents_of_end fuel hend
  | cons b rest ih =>
    rw [List.length_cons] at hlen hend
    obtain ⟨fuel, rfl⟩ : ∃ f, fuel = f + 1 := ⟨fuel - 1, by omega⟩
    obtain ⟨hb0, hb⟩ : b ≠ 0 ∧ m.read a = b := hbs 0 (by simp)
    have hrest := ih (fuel := fuel) (a := a + 1)
      (fun k hk => by
        have := hbs (k + 1) (by simpa using hk)
        rwa [List.getElem_cons_succ, ← Nat.add_assoc, Nat.add_right_comm] at this)
      (by omega) (hend.imp (by omega) fun h => by rwa [Nat.add_right_comm, Nat.add_assoc])
    by_cases h1 : b = 1
    · rw [stringEvents_of_skip fuel (hb.trans h1), hrest, List.filter_cons_of_neg (by simp [h1])]
    · rw [stringEvents_of_char fuel hb hb0 h1, hrest, List.filter_cons_of_pos (by exact decide_eq_true h1), List.map_cons]

/-- StPrint from an address that is not negative emits the string there and advances PC (R240). -/
theorem exec_stprint_of_nonneg {o : Int} {s : State} (h : 0 ≤ s32 s.sp + o) : exec (.stprint o) s =
    .next (advancePc (s.emitAll (stringEvents s.mem (4096 - (s32 s.sp + o).toNat) (s32 s.sp + o).toNat))) := by
  have hnot : ¬ spRel s o < 0 := not_lt.mpr h
  simp only [exec, execStPrint, if_neg hnot]
  rfl

/-- Settles O47: the scan emits what `stringEvents_eq` says of the bytes at hand. -/
theorem stPrintEmitsString : Obligations.StPrintEmitsString := by
  intro o s h0
  refine ⟨_, exec_stprint_of_nonneg h0, s32_w32_plusFour s.pc, rfl, fun bs hbs hend => ?_⟩
  have hfits (hne : 0 < bs.length) : s32 s.sp + o + (bs.length - 1 : Nat) ≤ 4095 := (hbs _ (by omega)).1
  rw [advancePc_out, State.emitAll_out, stringEvents_eq (fun k hk => (hbs k hk).2)]
  · rcases Nat.eq_zero_or_pos bs.length with hz | hpos
    · omega
    · have := hfits hpos
      omega
  · refine hend.imp (fun hpast => ?_) id
    rcases Nat.eq_zero_or_pos bs.length with hz | hpos
    · omega
    · have := hfits hpos
      omega

/-! ## Print and Dump (R241, R242) -/

theorem exec_print_of_nonneg {o : Int} (f : PrintFormat) {s : State} (h : 0 ≤ s32 s.sp + o) :
    exec (.print o f) s = .next (advancePc (s.emitAll [.printValue f (s.mem.wordOrZero (s32 s.sp + o))])) := by
  have hpeek : peek s.mem (spRel s o) = .ok (s.mem.wordOrZero (s32 s.sp + o)) := peek_of_nonneg h
  simp only [exec, execPrint, hpeek, Eff.lift_ok, Eff.bind_ok, Eff.thenAdvance_ok]

/-- Settles O48: the guarded read goes on, and its word is the one event. -/
theorem printEmitsWord : Obligations.PrintEmitsWord := fun _ f s h0 =>
  ⟨_, exec_print_of_nonneg f h0, rfl, s32_w32_plusFour s.pc, rfl⟩

/-- The lines of a dump, one for each fourth address (R242). -/
theorem dumpEvents_eq (m : Memory) (count a : Nat) :
    dumpEvents m count a = (List.range count).map fun k => .dumpLine ((a : Int) + 4 * k) (m.wordOrZero ((a : Int) + 4 * k)) := by
  induction count generalizing a with
  | zero => rfl
  | succ count ih =>
    rw [dumpEvents, ih, List.range_succ_eq_map, List.map_cons, List.map_map]
    congr 1
    refine List.map_congr_left fun k _ => ?_
    have haddr : ((a + 4 : Nat) : Int) + 4 * k = a + 4 * (k + 1 : Nat) := by push_cast; omega
    simp only [Function.comp, haddr, Nat.succ_eq_add_one]

/-- Dump with SP in its range lists the words from SP on, none on an empty stack (R242). -/
theorem exec_dump_of_range {s : State} (h : s.SpInRange) :
    exec .dump s = .next (advancePc (s.emitAll (dumpEvents s.mem ((4096 - (s32 s.sp).toNat + 3) / 4) (s32 s.sp).toNat))) := by
  obtain ⟨h0, hhi⟩ := h
  simp only [exec, execDump]
  by_cases hempty : (4096 : Int) ≤ s32 s.sp
  · have hcount : (4096 - (s32 s.sp).toNat + 3) / 4 = 0 := by omega
    rw [if_pos hempty, hcount, dumpEvents, State.emitAll, List.append_nil]
    rfl
  · rw [if_neg hempty, if_neg (by omega)]
    rfl

/-- Settles O49: the lines by `dumpEvents_eq`, their number as the obligation counts it. -/
theorem dumpListsStack : Obligations.DumpListsStack := by
  intro s h
  refine ⟨_, exec_dump_of_range h, ?_, s32_w32_plusFour s.pc, rfl⟩
  obtain ⟨h0, _⟩ := h
  rw [advancePc_out, State.emitAll_out, dumpEvents_eq, Int.toNat_of_nonneg h0,
    show (4096 - (s32 s.sp).toNat + 3) / 4 = ((4099 - s32 s.sp) / 4).toNat by omega]

/-! ## Addresses out of range (R307, D16) -/

theorem exec_swap_of_raise {a b : Int} {s : State} {k : FaultKind}
    (h : swapBytes (s32 s.sp + a) (s32 s.sp + b) s = .raise k s) : exec (.swap a b) s = .next (faultedAt s k) := by
  have hexec : exec (.swap a b) s = (swapBytes (s32 s.sp + a) (s32 s.sp + b) s).thenAdvance := rfl
  rw [hexec, h]
  rfl

/-- Settles O50: the first access of each raises in the state it began with; Swap's cases are those of `swapBytes_cases`. -/
theorem negativeAddressFaults : Obligations.NegativeAddressFaults := by
  refine fun o a b f s => ⟨fun h => ?_, fun ha => ?_, fun ha0 ha1 hb => ?_⟩
  · have hpeek : peek s.mem (spRel s o) = .error (.addressFault (s32 s.sp + o)) := peek_of_neg h
    have hneg : spRel s o < 0 := h
    refine ⟨?_, ?_, ?_⟩
    · simp only [exec, execDup, hpeek]
      rfl
    · simp only [exec, execPrint, hpeek]
      rfl
    · simp only [exec, execStPrint, if_pos hneg]
      rfl
  · rcases swapBytes_cases (s32 s.sp + a) (s32 s.sp + b) s with ⟨_, he⟩ | ⟨_, _, _⟩ | ⟨_, _, _⟩
    · exact exec_swap_of_raise he
    all_goals omega
  · rcases swapBytes_cases (s32 s.sp + a) (s32 s.sp + b) s with ⟨_, _⟩ | ⟨_, _, he⟩ | ⟨_, _, _⟩
    · omega
    · exact exec_swap_of_raise he
    · omega

/-! ## A packed string printed back (R166, R240) -/

theorem reads_of_packedWord {m : Memory} {a : Nat} {c0 c1 c2 flag : Byte} (h : m.wordAt a = packedWord c0 c1 c2 flag) :
    m.read a = c0 ∧ m.read (a + 1) = c1 ∧ m.read (a + 2) = c2 ∧ m.read (a + 3) = flag := by
  obtain ⟨h0, h1, h2, h3⟩ := packedWord_bytes c0 c1 c2 flag
  rw [← h] at h0 h1 h2 h3
  exact ⟨(m.extractLsb'_wordAt a (k := 0) (by decide)).symm.trans h0, (m.extractLsb'_wordAt a (k := 1) (by decide)).symm.trans h1,
    (m.extractLsb'_wordAt a (k := 2) (by decide)).symm.trans h2, (m.extractLsb'_wordAt a (k := 3) (by decide)).symm.trans h3⟩

/-- The scan of packed words emits the characters, skips the pads and the flags 1 and stops at the flag 0. -/
theorem stringEvents_packHead {m : Memory} {bs : List Byte} {fuel a : Nat} (hne : bs ≠ []) (hbs : ∀ b ∈ bs, b ≠ 0 ∧ b ≠ 1)
    (hm : ∀ k (h : k < (packHead bs).length), m.wordAt (a + 4 * k) = (packHead bs)[k]) (hfuel : 4 * (packHead bs).length ≤ fuel) :
    stringEvents m fuel a = bs.map .char := by
  induction bs using packHead.induct generalizing fuel a with
  | case1 => exact absurd rfl hne
  | case2 c0 =>
    obtain ⟨f, rfl⟩ : ∃ f, fuel = f + 4 := ⟨fuel - 4, by simp only [packHead, List.length_singleton] at hfuel; omega⟩
    obtain ⟨r0, r1, r2, r3⟩ := reads_of_packedWord (a := a) (hm 0 (by simp [packHead]))
    obtain ⟨hz, ho⟩ := hbs c0 (by simp)
    rw [stringEvents_of_char _ r0 hz ho, stringEvents_of_skip _ r1, stringEvents_of_skip _ r2, stringEvents_of_end _ r3]
    rfl
  | case3 c0 c1 =>
    obtain ⟨f, rfl⟩ : ∃ f, fuel = f + 4 := ⟨fuel - 4, by simp only [packHead, List.length_singleton] at hfuel; omega⟩
    obtain ⟨r0, r1, r2, r3⟩ := reads_of_packedWord (a := a) (hm 0 (by simp [packHead]))
    obtain ⟨hz0, ho0⟩ := hbs c0 (by simp)
    obtain ⟨hz1, ho1⟩ := hbs c1 (by simp)
    rw [stringEvents_of_char _ r0 hz0 ho0, stringEvents_of_char _ r1 hz1 ho1, stringEvents_of_skip _ r2, stringEvents_of_end _ r3]
    rfl
  | case4 c0 c1 c2 rest ih =>
    simp only [packHead, List.length_cons] at hfuel
    obtain ⟨f, rfl⟩ : ∃ f, fuel = f + 4 := ⟨fuel - 4, by omega⟩
    obtain ⟨r0, r1, r2, r3⟩ := reads_of_packedWord (a := a) (hm 0 (by simp [packHead]))
    obtain ⟨hz0, ho0⟩ := hbs c0 (by simp)
    obtain ⟨hz1, ho1⟩ := hbs c1 (by simp)
    obtain ⟨hz2, ho2⟩ := hbs c2 (by simp)
    rw [stringEvents_of_char _ r0 hz0 ho0, stringEvents_of_char _ r1 hz1 ho1, stringEvents_of_char _ r2 hz2 ho2]
    have htail : stringEvents m (f + 1) (a + 3) = rest.map .char := by
      by_cases hrest : rest = []
      · subst hrest
        exact stringEvents_of_end _ r3
      · rw [List.isEmpty_eq_false_iff.mpr hrest] at r3
        rw [stringEvents_of_skip _ r3]
        refine ih hrest (fun b hb => hbs b (by simp [hb])) (fun k hk => ?_) (by omega)
        have := hm (k + 1) (by simpa [packHead] using hk)
        rwa [show a + 4 * (k + 1) = a + 3 + 1 + 4 * k by omega] at this
    rw [htail]
    rfl

/-- Settles O35: StInput lays the packed words from SP on (`afterPushes_reverse_wordAt`), and the scan gives their characters back. -/
theorem stPrintPrintsWhatStInputPacked : Obligations.StPrintPrintsWhatStInputPacked := by
  rintro n line rest s bs hin rfl hne hbs hroom hhi
  have htrim : trim line ≠ [] := fun h => hne (by rw [h, List.take_nil])
  have hhead : stInputHead n line = packHead ((trim line).take n) := if_neg htrim
  have hroom' : 4 * ((stInputHead n line).length : Int) ≤ s32 (s.setInput rest).sp := by
    rw [hhead, length_packHead]
    exact hroom
  have hexec := exec_stinput_of_room (readLine_of_line hin) hroom' hhi
  have hword (k : Nat) (hk : k < (stInputHead n line).length) :=
    afterPushes_reverse_wordAt (s := s.setInput rest) hroom' storedForm_of_mem_stInputHead hk
  have hsp : s32 (afterPushes (stInputHead n line).reverse (s.setInput rest)).sp = s32 s.sp - 4 * (stInputHead n line).length := by
    have h := afterPushes_sp (stInputHead n line).reverse (s := s.setInput rest) (by rw [List.length_reverse]; exact hroom')
    rwa [List.length_reverse] at h
  have hsp' : s32 (s.setInput rest).sp = s32 s.sp := rfl
  refine ⟨_, _, hexec, exec_stprint_of_nonneg (by rw [advancePc_sp]; omega), ?_⟩
  rw [advancePc_out, State.emitAll_out, advancePc_mem, advancePc_sp, Int.add_zero, hsp,
    stringEvents_packHead hne hbs (fun k hk => ?_) (by rw [← hhead]; omega)]
  · rw [advancePc_out, afterPushes_rest]
    rfl
  · simp only [← hhead] at hk ⊢
    exact hword k hk

end Sys2Proof.Machine
end

section
/-! PROOFS. Control transfer (45_control.md): Call, Return, Goto, the conditional branches, and the reads of a negative SP. -/

namespace Sys2Proof.Machine

/-! ## Jumps (R34, R35) -/

theorem jumpPc_of_nonneg {target : Int} {s : State} (h : 0 ≤ target) : jumpPc target s = .ok () (s.setPc target) := by
  rcases jumpPc_cases target s with ⟨_, _⟩ | ⟨_, he⟩
  · omega
  · exact he

theorem jumpPc_of_neg {target : Int} {s : State} (h : target < 0) : jumpPc target s = .raise (.pcOutOfRange target) s := by
  rcases jumpPc_cases target s with ⟨_, he⟩ | ⟨_, _⟩
  · exact he
  · omega

theorem exec_goto_eq (o : Int) (s : State) : exec (.goto o) s = (jumpPc (s32 s.pc + o) s).thenStay := rfl

/-- Call with room is its push, then the jump, which computes with the PC the push left alone (R260). -/
theorem exec_call_of_room (o : Int) {s : State} (h4 : 4 ≤ s32 s.sp) (hhi : s32 s.sp ≤ 4096) :
    exec (.call o) s = (jumpPc (s32 s.pc + o) (afterPush (returnAddress s) s)).thenStay := by
  simp only [exec, execCall, push_of_range _ h4 hhi, Eff.bind_ok, pcRel, afterPush_pc]

/-- Settles O56: an offset of R94's range leaves the target exact. -/
theorem gotoJumps : Obligations.GotoJumps := by
  intro o s h0 hhi hwf hpc
  have ho := ((rel28Ok_iff o).mp hwf).2
  refine ⟨s.setPc (s32 s.pc + o), by rw [exec_goto_eq, jumpPc_of_nonneg hpc]; rfl, s32_jumpTarget ⟨h0, hhi⟩ ho, rfl⟩

/-- Settles O53: the return address is below 2^27, so Push stores it as it is, and the target is exact. -/
theorem callPushesAndJumps : Obligations.CallPushesAndJumps := by
  intro o s h4 hhi hpc0 hpc1 hpc hwf
  have ho := ((rel28Ok_iff o).mp hwf).2
  have hret : s32 (storedForm (returnAddress s)) = s32 s.pc + 4 := by
    rw [returnAddress, storedForm_w32 (by omega) (by omega), s32_w32 (by omega) (by omega)]
  refine ⟨(afterPush (returnAddress s) s).setPc (s32 s.pc + o), by rw [exec_call_of_room o h4 hhi, jumpPc_of_nonneg hpc]; rfl,
    afterPush_sp (returnAddress s) (by omega), ?_, afterPush_sameOutside (returnAddress s) s, s32_jumpTarget ⟨hpc0, hpc1⟩ ho, rfl⟩
  rw [State.setPc_mem, afterPush_mem, Memory.wordAt_writeWord, hret]

/-! ## Return (R261) -/

/-- SP after Return's clamped drop, as an integer (R36). -/
theorem s32_dropped {o : Int} {s : State} (h : s.SpInRange) (ho : rel28Ok o = true) :
    s32 (jumpSp (spRel s o) s).sp = min (s32 s.sp + o) 4096 := by
  obtain ⟨h0, _⟩ := h
  have := ((rel28Ok_iff o).mp ho).2
  exact s32_w32 (n := min (s32 s.sp + o) 4096) (by omega) (by omega)

/-- The state in which Return jumps: the bytes dropped and the target popped. -/
def afterReturnPop (o : Int) (s : State) : State := s.setSp (afterPop (min (s32 s.sp + o) 4096))

theorem s32_afterReturnPop {o : Int} {s : State} (h : 0 ≤ s32 s.sp + o) :
    s32 (afterReturnPop o s).sp = afterPop (min (s32 s.sp + o) 4096) :=
  s32_w32 (by unfold afterPop; omega) (by unfold afterPop; omega)

/-- Return with a new SP that is not negative pops its target and jumps to it. -/
theorem exec_ret_of_nonneg {o : Int} {s : State} (h : s.SpInRange) (ho : rel28Ok o = true) (h0 : 0 ≤ s32 s.sp + o) :
    exec (.ret o) s = (jumpPc (s32 (s.mem.wordOrZero (min (s32 s.sp + o) 4096))) (afterReturnPop o s)).thenStay := by
  have hsp := s32_dropped h ho
  have hpop := pop_of_nonneg (s := jumpSp (spRel s o) s) (by omega)
  simp only [exec, execReturn, hpop, Eff.bind_ok, hsp]
  rfl

/-- Settles O54: a target that is not negative is a word, so the jump is exact. -/
theorem returnPopsTarget : Obligations.ReturnPopsTarget := by
  intro o s h ho h0 htarget
  have hexec : exec (.ret o) s =
      .next ((afterReturnPop o s).setPc (s32 (s.mem.wordOrZero (min (s32 s.sp + o) 4096)))) := by
    rw [exec_ret_of_nonneg h ho h0, jumpPc_of_nonneg htarget, Eff.thenStay_ok]
  exact ⟨_, hexec, by rw [State.setPc_sp, s32_afterReturnPop h0], by rw [State.setPc_pc, w32_s32], rfl⟩

/-- Settles O55: the pop raises where the drop left SP negative, the jump where the popped target is. -/
theorem returnFaults : Obligations.ReturnFaults := by
  refine fun o s h ho => ⟨fun hneg => ?_, fun h0 htarget => ?_⟩
  · have hsp : s32 (jumpSp (spRel s o) s).sp = s32 s.sp + o := by rw [s32_dropped h ho]; omega
    rcases pop_cases (jumpSp (spRel s o) s) with ⟨_, he⟩ | ⟨_, _⟩
    · refine ⟨takeFault (.addressFault (s32 s.sp + o)) (jumpSp (spRel s o) s), ?_, rfl, hsp, rfl⟩
      simp only [exec, execReturn, he, hsp]
      rfl
    · omega
  · have hexec : exec (.ret o) s = .next (takeFault
        (.pcOutOfRange (s32 (s.mem.wordOrZero (min (s32 s.sp + o) 4096)))) (afterReturnPop o s)) := by
      rw [exec_ret_of_nonneg h ho h0, jumpPc_of_neg htarget, Eff.thenStay_raise]
    exact ⟨_, hexec, rfl, by rw [takeFault_sp, s32_afterReturnPop h0], rfl⟩

/-! ## Conditional branches (R263, R271) -/

theorem branch_branchTo {taken : Bool} {p : Prop} [Decidable p] {o : Int} {s : State} (hp : taken = true ↔ p)
    (h0 : 0 ≤ s32 s.pc + o) : (branch taken o s).thenStay = .next (branchTo s p o) := by
  unfold branchTo
  cases taken with
  | true =>
    rw [if_pos (hp.mp rfl), branch, if_pos rfl, pcRel, jumpPc_of_nonneg h0]
    rfl
  | false =>
    rw [if_neg fun h => Bool.false_ne_true (hp.mpr h)]
    rfl

theorem branch_branchBelowZero {taken : Bool} {p : Prop} [Decidable p] {o : Int} {s : State} (hp : taken = true ↔ p)
    (hneg : s32 s.pc + o < 0) : (branch taken o s).thenStay = .next (branchBelowZero s p o) := by
  unfold branchBelowZero
  cases taken with
  | true =>
    rw [if_pos (hp.mp rfl), branch, if_pos rfl, pcRel, jumpPc_of_neg hneg]
    rfl
  | false =>
    rw [if_neg fun h => Bool.false_ne_true (hp.mpr h)]
    rfl

theorem takenReserved_iff (c : ReservedCond) (l r : Int) : takenReserved c l r = true ↔ False := by cases c <;> simp [takenReserved]

/-- A BinaryIf is the branch on its condition of the two words (R139). -/
theorem binaryIf_eq_branch (taken : Int → Int → Bool) (o : Int) {s : State} {l r : Int}
    (hl : l = s32 (s.mem.wordOrZero (s32 s.sp + 4))) (hr : r = s32 (s.mem.wordOrZero (s32 s.sp))) (h0 : 0 ≤ s32 s.sp) :
    binaryIf taken o s = (branch (taken l r) o s).thenStay := by
  rw [binaryIf_of_nonneg taken o h0, hl, hr]

/-- A UnaryIf is the branch on its condition of the top word (R140). -/
theorem unaryIf_eq_branch (taken : Int → Bool) (o : Int) {s : State} {v : Int} (hv : v = s32 (s.mem.wordOrZero (s32 s.sp)))
    (h0 : 0 ≤ s32 s.sp) : unaryIf taken o s = (branch (taken v) o s).thenStay := by
  rw [unaryIf_of_nonneg taken o h0, hv]

/-- Settles O57: the branch on each condition, with a target that is not negative. -/
theorem binaryIfsCompareTopWords : Obligations.BinaryIfsCompareTopWords := by
  intro o c s l r ⟨h0, _⟩ hl hr hpc
  have hbranch (taken : Int → Int → Bool) {p : Prop} [Decidable p] (hp : taken l r = true ↔ p) :
      binaryIf taken o s = .next (branchTo s p o) :=
    (binaryIf_eq_branch taken o hl hr h0).trans (branch_branchTo hp hpc)
  exact ⟨hbranch (taken3 .eq) (by simp [taken3]), hbranch (taken3 .ne) (by simp [taken3]), hbranch (taken3 .lt) (by simp [taken3]),
    hbranch (taken3 .gt) (by simp [taken3]), hbranch (taken3 .le) (by simp [taken3]), hbranch (taken3 .ge) (by simp [taken3]),
    hbranch (takenReserved c) (takenReserved_iff c l r)⟩

/-- Settles O58: the branch on each condition of the top word, with a target that is not negative. -/
theorem unaryIfsTestTopWord : Obligations.UnaryIfsTestTopWord := by
  intro o s v ⟨h0, _⟩ hv hpc
  have hbranch (taken : Int → Bool) {p : Prop} [Decidable p] (hp : taken v = true ↔ p) :
      unaryIf taken o s = .next (branchTo s p o) :=
    (unaryIf_eq_branch taken o hv h0).trans (branch_branchTo hp hpc)
  exact ⟨hbranch (taken2 .ez) (by simp [taken2]), hbranch (taken2 .nz) (by simp [taken2]), hbranch (taken2 .mi) (by simp [taken2]),
    hbranch (taken2 .pl) (by simp [taken2])⟩

/-- Settles O59: the same branches with a negative target, and the jumps of Goto and of Call after its push. -/
theorem negativeTargetFaults : Obligations.NegativeTargetFaults := by
  intro o c s l r ⟨h0, hhi⟩ hneg hl hr
  have hbin (taken : Int → Int → Bool) {p : Prop} [Decidable p] (hp : taken l r = true ↔ p) :
      binaryIf taken o s = .next (branchBelowZero s p o) :=
    (binaryIf_eq_branch taken o hl hr h0).trans (branch_branchBelowZero hp hneg)
  have hun (taken : Int → Bool) {p : Prop} [Decidable p] (hp : taken r = true ↔ p) :
      unaryIf taken o s = .next (branchBelowZero s p o) :=
    (unaryIf_eq_branch taken o hr h0).trans (branch_branchBelowZero hp hneg)
  refine ⟨by rw [exec_goto_eq, jumpPc_of_neg hneg]; rfl, fun h4 => ?_, hbin (taken3 .eq) (by simp [taken3]),
    hbin (taken3 .ne) (by simp [taken3]), hbin (taken3 .lt) (by simp [taken3]), hbin (taken3 .gt) (by simp [taken3]),
    hbin (taken3 .le) (by simp [taken3]), hbin (taken3 .ge) (by simp [taken3]), hbin (takenReserved c) (takenReserved_iff c l r),
    hun (taken2 .ez) (by simp [taken2]), hun (taken2 .nz) (by simp [taken2]), hun (taken2 .mi) (by simp [taken2]),
    hun (taken2 .pl) (by simp [taken2])⟩
  refine ⟨takeFault _ (afterPush (returnAddress s) s), by rw [exec_call_of_room o h4 hhi, jumpPc_of_neg hneg]; rfl, rfl,
    afterPush_sp (returnAddress s) (by omega), ?_, afterPush_sameOutside (returnAddress s) s, rfl⟩
  rw [takeFault_mem, afterPush_mem, Memory.wordAt_writeWord]
  rfl

/-! ## A negative SP (R46, D16) -/

section NegativeSp

variable {s : State} (h : s32 s.sp < 0)
include h

theorem pop_of_neg : pop s = .raise (.addressFault (s32 s.sp)) s := by
  rcases pop_cases s with ⟨_, he⟩ | ⟨_, _⟩
  · exact he
  · omega

theorem unOp_of_neg (f : Word → Except FaultKind Word) : unOp f s = .raise (.addressFault (s32 s.sp)) s := by
  rw [unOp, pop_of_neg h, Eff.bind_raise]

theorem binaryIf_of_neg (taken : Int → Int → Bool) (o : Int) : binaryIf taken o s = .next (faultedAt s (.addressFault (s32 s.sp))) := by
  rw [binaryIf, topWord, peek_of_neg h]
  rfl

theorem unaryIf_of_neg (taken : Int → Bool) (o : Int) : unaryIf taken o s = .next (faultedAt s (.addressFault (s32 s.sp))) := by
  rw [unaryIf, topWord, peek_of_neg h]
  rfl

theorem exec_dump_of_neg : exec .dump s = .next (faultedAt s (.addressFault (s32 s.sp))) := by
  have hlow : ¬ (4096 : Int) ≤ s32 s.sp := by omega
  simp only [exec, execDump, if_neg hlow, if_pos h]
  rfl

/-- Return by 0 leaves SP where it is and raises at its pop. -/
theorem exec_ret_zero_of_neg : exec (.ret 0) s = .next (faultedAt s (.addressFault (s32 s.sp))) := by
  have hsame : jumpSp (spRel s 0) s = s := by
    rw [jumpSp, spRel, Int.add_zero, min_eq_left (show s32 s.sp ≤ 4096 by omega), State.setSp, w32_s32]
  simp only [exec, execReturn, hsame, pop_of_neg h]
  rfl

end NegativeSp

/-- Settles O60: the first read of the top raises, in each of the forms that make one. -/
theorem negativeSpFaults : Obligations.NegativeSpFaults := by
  intro o c s h i hi
  cases i with
  | add | sub | mul | div | rem | and | or | xor | lsl | lsr | asr => exact congrArg Eff.thenAdvance (binOp_of_neg _ h)
  | neg | not => exact congrArg Eff.thenAdvance (unOp_of_neg h _)
  | ifeq | ifne | iflt | ifgt | ifle | ifge | ifrsv => exact binaryIf_of_neg h _ _
  | ifez | ifnz | ifmi | ifpl => exact unaryIf_of_neg h _ _
  | dump => exact exec_dump_of_neg h
  | ret o' =>
    obtain rfl : o' = 0 := by simpa using hi
    exact exec_ret_zero_of_neg h
  | _ => simp at hi

end Sys2Proof.Machine
end
